-- ==== Sys2Proof/Word.lean ====
section
/-! DEFINITION. The word sizes of the 80286 (`00_scope.md` R5, R6): bytes of 8 bits, words of 16 bits,
physical addresses of 24 bits, privilege levels of 2 bits. Plain abbreviations, so that the lemmas about
`BitVec` apply to them. -/

namespace Sys2Proof

/-- A byte: the unit of main memory and of I/O space (R6, R35, R36). -/
abbrev Byte := BitVec 8

/-- A word: a register, a selector, an offset, the flag word (R5). Arithmetic on it is modulo 2^16 (R6). -/
abbrev Word := BitVec 16

/-- A physical address (R5, R31). Arithmetic on it is modulo 2^24 (R6). -/
abbrev Addr := BitVec 24

/-- A privilege level, 0 (most privileged) to 3 (R90). -/
abbrev Level := BitVec 2

end Sys2Proof
end

