-- ==== Sys2Proof/Machine/Bits.lean ====
section
/-! DEFINITION. Bit fields, byte order and sign extension (`00_scope.md` R6, `20_memory.md` R38). -/

namespace Sys2Proof.Machine

/-- The word with the given high and low byte: `hi ‖ lo` (R6, R38). -/
def wordOf (hi lo : Byte) : Word := hi ++ lo

/-- Bits 7:0 of a word. -/
def lowByte (w : Word) : Byte := w.extractLsb' 0 8

/-- Bits 15:8 of a word. -/
def highByte (w : Word) : Byte := w.extractLsb' 8 8

/-- The 24-bit value `top ‖ low` (R38: the low word first and the high byte after it). -/
def addrOf (top : Byte) (low : Word) : Addr := top ++ low

/-- `sext_16` of a byte (R8, R66). -/
def signExtend16 (b : Byte) : Word := b.signExtend 16

end Sys2Proof.Machine
end

