-- ==== Sys2Proof/Config.lean ====
section
/-! DEFINITION. What a system fixes (the parameters of `00_scope.md` R5) and the one value the spec leaves
free (`60_exceptions.md` R117). -/

namespace Sys2Proof

/-- The parameters of `00_scope.md` R5 that the model takes as arguments. They belong to the launch state
(`70_reset_and_hazards.md` R129) and no rule changes them, so State holds them (log 6). -/
structure Params where
  /-- `PIC_BASE`: the port of the 8259's first register (R122). No register in scope answers there, so
  no rule reads it (`95_test_vectors.md` O3). -/
  picBase : Word
  /-- `PIC_ICW2_PORT`: the port that receives ICW2 (R121, R122). -/
  picIcw2Port : Word
  /-- `IRET_IOPL_FILTER`: whether IRET keeps IF and IOPL unless privilege allows (R79, D17). -/
  iretIoplFilter : Bool
  /-- `DELIVER_FAULTS`: whether a failed check is delivered as an exception (R114, D12). -/
  deliverFaults : Bool
  deriving DecidableEq, Repr

/-- The parameter values of R5: the ports of the source's example (section 5.13.1), the spec's choice for
the two switches (D12, D17). -/
def Config.params : Params :=
  { picBase := 0x0400#16, picIcw2Port := 0x0401#16, iretIoplFilter := true, deliverFaults := false }

/-- What a byte of main memory that nothing has written reads as. DESIGN CHOICE (log 5), unsafe: the spec
leaves memory to the caller (R34); `95_test_vectors.md` section 1 takes unlisted memory as zero. -/
def Config.blankByte : Byte := 0x00#8

/-- FREE VALUE (log 8): which of several requesting inputs the 8259 serves (R117, U8), for the n-th
free choice. It has no body, so nothing can be proved of it. -/
opaque Config.freeServed : Nat → Nat

end Sys2Proof
end

