-- ==== Sys2Proof/Syntax.lean ====
section
/-! DEFINITION. The instructions in scope, one constructor per row of `spec/opcode_table.json`
(`30_encoding.md` R62 to R68), with the register numbers and addressing forms turned into names. -/

namespace Sys2Proof

/-- The eight 16-bit general registers in encoding order, numbers 0 to 7 (`10_state.md` R13). -/
inductive Reg16 where
  | ax | cx | dx | bx | sp | bp | si | di
  deriving DecidableEq, Repr

/-- The eight 8-bit registers in encoding order, numbers 0 to 7 (`10_state.md` R14). -/
inductive Reg8 where
  | al | cl | dl | bl | ah | ch | dh | bh
  deriving DecidableEq, Repr

/-- What the rm field of a ModRM byte adds up, in encoding order 0 to 7 (`30_encoding.md` R66). -/
inductive AddrBase where
  | bxSi | bxDi | bpSi | bpDi | si | di | bp | bx
  deriving DecidableEq, Repr

/-- The displacement of a memory operand: none (mod = 00), one byte (mod = 01), one word (mod = 10)
(`30_encoding.md` R66). -/
inductive Disp where
  | none
  | disp8 (d : Byte)
  | disp16 (d : Word)
  deriving DecidableEq, Repr

/-- A memory operand (`30_encoding.md` R66): a base with a displacement, or the word that stands alone
(mod = 00, rm = 110). -/
inductive MemOperand where
  | based (b : AddrBase) (d : Disp)
  | direct (d : Word)
  deriving DecidableEq, Repr

/-- The instructions in scope (`30_encoding.md` R67). -/
inductive Instr where
  /-- `INT n` (R71). -/
  | intN (n : Byte)
  /-- `INT 3`, the one-byte form (R72). -/
  | int3
  /-- `INTO` (R73). -/
  | into
  /-- `IRET` (R75). -/
  | iret
  /-- `LIDT m` (R82). -/
  | lidt (m : MemOperand)
  /-- `MOV r8,imm8` (R84). -/
  | movR8Imm8 (r : Reg8) (v : Byte)
  /-- `MOV r16,imm16` (R85). -/
  | movR16Imm16 (r : Reg16) (v : Word)
  /-- `OUT DX,AL` (R86). -/
  | outDxAl
  deriving DecidableEq, Repr

end Sys2Proof
end

