-- ==== Sys2Proof/Machine/State.lean ====
section
/-! DEFINITION. The state of the machine (`10_state.md`), the reasons a step can stop (`60_exceptions.md`
R115, `00_scope.md` R9), and the state right after reset (R34). Plain data throughout. -/

namespace Sys2Proof.Machine

/-- The eight general registers (R13). The 8-bit registers of R14 are bytes of the first four. -/
structure GenRegs where
  ax : Word
  cx : Word
  dx : Word
  bx : Word
  sp : Word
  bp : Word
  si : Word
  di : Word
  deriving DecidableEq, Repr

/-- A segment register (R17): the visible selector and the hidden base, limit and access byte. -/
structure SegReg where
  sel : Word
  base : Addr
  limit : Word
  ar : Byte
  deriving DecidableEq, Repr

/-- A table register, IDTR (R23) or GDTR (R24): base and the offset of the last valid byte. -/
structure TableReg where
  base : Addr
  limit : Word
  deriving DecidableEq, Repr

/-- LDTR (R25) or TR (R26): a visible selector with hidden base and limit. -/
structure SysSegReg where
  sel : Word
  base : Addr
  limit : Word
  deriving DecidableEq, Repr

/-- The 8259 (R30): the edge flip-flops, IRR and ISR, bit n for input IRn, and the register ICW2. -/
structure Pic where
  edge : BitVec 8
  irr : BitVec 8
  isr : BitVec 8
  icw2 : Byte
  deriving DecidableEq, Repr

/-- What the outside does at one instruction boundary (R28, R29, R117): the MODEL's own record of inputs
(log 7). -/
structure BoundaryInput where
  /-- A request (a rising edge) at the NMI input (R28). -/
  nmi : Bool
  /-- Rising edges at IR0 to IR7, bit n for IRn (R117). -/
  ir : BitVec 8
  /-- The 8259 does not raise INT at this boundary although an edge flip-flop is set (R117). -/
  holdIntr : Bool
  /-- The input the 8259 serves if it is acknowledged at this boundary and this input requests (R117);
  otherwise the served input is the free value of Config. -/
  serve : Option (Fin 8)
  deriving DecidableEq, Repr

/-- Main memory (R31, R35): the bytes that differ from `Config.blankByte`, by rising address. -/
structure Memory where
  cells : List Host.Cell
  deriving DecidableEq, Repr

/-- The state of the machine: every piece of state `10_state.md` names, the parameters of `00_scope.md` R5,
and three fields of the model's own (`inputs`, `freeUsed`, `launched`). -/
structure State where
  /-- AX to DI (R13). -/
  regs : GenRegs
  /-- The instruction pointer (R15). -/
  ip : Word
  /-- The flag word (R18). -/
  flags : Word
  /-- The current privilege level (R22). -/
  cpl : Level
  /-- The segment registers (R17). -/
  es : SegReg
  cs : SegReg
  ss : SegReg
  ds : SegReg
  /-- The table registers (R23, R24). -/
  idtr : TableReg
  gdtr : TableReg
  /-- The local descriptor table register and the task register (R25, R26). -/
  ldtr : SysSegReg
  tr : SysSegReg
  /-- The machine status word (R27): PE 0, MP 1, EM 2, TS 3. -/
  msw : Word
  /-- The two bits of the NMI input (R28). -/
  nmiInService : Bool
  nmiPending : Bool
  /-- The interrupt controller (R30). -/
  pic : Pic
  /-- Main memory (R31). -/
  mem : Memory
  /-- The parameters (`00_scope.md` R5). -/
  params : Params
  /-- MODEL's own (log 7): what the outside does at the coming boundaries, the next one first. -/
  inputs : List BoundaryInput
  /-- MODEL's own (log 8): how many free choices of the served input have been made. -/
  freeUsed : Nat
  /-- MODEL's own (log 12): whether the launch state has been accepted (R129). -/
  launched : Bool
  deriving DecidableEq, Repr

/-- Why a step stops: the closed list of `60_exceptions.md` R115, with the info the spec gives (a
constructor without an argument carries info 0), and the shutdown of R114. Each is safe: the model stops
where the spec says its run ends (D12); the real processor raises the exception of R115, which the model
delivers instead when `DELIVER_FAULTS` is true (log 9). -/
inductive Fault where
  /-- Raised by `idtLookup` (R99): `8v + 7 > IDTR.limit`. Safe. -/
  | vectorBeyondIdtLimit (v : Byte)
  /-- Raised by `idtLookup` (R99): the entry is no task, interrupt or trap gate. Safe. -/
  | idtEntryNotGate (v : Byte)
  /-- Raised by `idtLookup` (R99, R100): a software interrupt through a gate with DPL < CPL. Safe. -/
  | gateDplBelowCpl (v : Byte)
  /-- Raised by `idtLookup` (R99): the gate's P is 0. Safe. -/
  | gateNotPresent (v : Byte)
  /-- Raised by gate entry and IRET (R101, R77, R78): a required selector is null. Safe. -/
  | nullSelector
  /-- Raised by gate entry, task gates and IRET (R101, R109, R77, R78, R80): `ReadDesc` failed. Safe. -/
  | selectorBeyondTable (sel : Word)
  /-- Raised by gate entry and IRET (R101, R77, R78): not an executable segment. Safe. -/
  | notCodeSegment (sel : Word)
  /-- Raised by gate entry and IRET (R101, R77, R78): the code segment's P is 0. Safe. -/
  | segmentNotPresent (sel : Word)
  /-- Raised by gate entry (R101, R102): the target segment's DPL is above CPL. Safe. -/
  | targetDplAboveCpl (sel : Word)
  /-- Raised by inner-level entry and the task switch (R105, R110): the TSS is too small. Safe. -/
  | tssTooSmall (sel : Word)
  /-- Raised by inner-level entry (R105): SSk is null. Safe. -/
  | innerStackNull
  /-- Raised by inner-level entry (R105): SSk lies beyond its table. Safe. -/
  | innerStackBeyondTable (sel : Word)
  /-- Raised by inner-level entry (R105): the RPL of SSk is not k. Safe. -/
  | innerStackRplMismatch (sel : Word)
  /-- Raised by inner-level entry (R105): the DPL of the stack segment is not k. Safe. -/
  | innerStackDplMismatch (sel : Word)
  /-- Raised by inner-level entry (R105): not a writable data segment. Safe. -/
  | innerStackNotWritable (sel : Word)
  /-- Raised by inner-level entry (R105): the stack segment's P is 0. Safe. -/
  | innerStackNotPresent (sel : Word)
  /-- Raised by stack accesses (R53, R104, R105, R75): beyond the stack segment's limit. Safe. -/
  | stackLimit
  /-- Raised by gate entry, IRET and the task switch (R104, R105, R77, R78, R110): IP above the limit. Safe. -/
  | ipBeyondLimit
  /-- Raised by task gates and IRET (R109, R80): a TSS selector with TI = 1. Safe. -/
  | tssSelectorNotGlobal (sel : Word)
  /-- Raised by task gates (R109): not an available TSS descriptor. Safe. -/
  | tssNotAvailable (sel : Word)
  /-- Raised by IRET (R80): the back link names no busy TSS. Safe. -/
  | tssNotBusy (sel : Word)
  /-- Raised by task gates and IRET (R109, R80): the TSS descriptor's P is 0. Safe. -/
  | tssNotPresent (sel : Word)
  /-- Raised by the task switch (R110 step 8): the incoming LDT selector fails its checks. Safe. -/
  | incomingLdtInvalid (sel : Word)
  /-- Raised by the task switch (R110 step 9): the incoming CS fails its checks. Safe. -/
  | incomingCsInvalid (sel : Word)
  /-- Raised by the task switch (R110 step 9): the incoming SS fails its checks. Safe. -/
  | incomingSsInvalid (sel : Word)
  /-- Raised by the task switch (R110 step 9): the incoming DS or ES fails its checks. Safe. -/
  | incomingDataSegInvalid (sel : Word)
  /-- Raised by IRET (R75): the return CS has an RPL below CPL. Safe. -/
  | returnToInnerLevel (sel : Word)
  /-- Raised by IRET (R77, R78): the return segment's DPL does not fit. Safe. -/
  | returnDplMismatch (sel : Word)
  /-- Raised by IRET (R78): the RPL of the return SS is not that of the return CS. Safe. -/
  | stackSelectorRplMismatch (sel : Word)
  /-- Raised by IRET (R78): the return SS is no writable data segment. Safe. -/
  | notWritableData (sel : Word)
  /-- Raised by IRET (R78): the DPL of the return SS does not fit. Safe. -/
  | stackDplMismatch (sel : Word)
  /-- Raised by IRET (R78): the return stack segment's P is 0. Safe. -/
  | stackNotPresent (sel : Word)
  /-- Raised by data accesses (R53, R82): beyond the segment's limit, or through a null selector. Safe. -/
  | segmentLimit
  /-- Raised by the fetch (R16): instruction bytes beyond the code segment's limit, or wrapping. Safe. -/
  | fetchBeyondLimit (ip : Word)
  /-- Raised by LIDT (R82): CPL is not 0. Safe. -/
  | privilegedInstruction
  /-- Raised by OUT (R86): CPL is above IOPL. Safe. -/
  | ioPrivilege
  /-- Raised by the decoder through step (R68 a): LIDT with a register operand. Safe. -/
  | invalidOpcode
  /-- Raised under `DELIVER_FAULTS` (R114): the double fault could not be delivered and the processor
  shuts down. Safe: nothing runs after it. -/
  | shutdown
  deriving DecidableEq, Repr

/-- Why the model gives a situation no meaning (`00_scope.md` R9 c). -/
inductive Refusal where
  /-- An instruction of the opcode table without a meaning yet: raised by `exec` only. Safe. -/
  | notModelled (mnemonic : String)
  /-- Raised by step (R68 b): the bytes at CS:IP begin an instruction outside the spec; `b` is its first
  byte. Safe. -/
  | notInScope (b : Byte)
  /-- Raised by step (R126, R79): the flag word that was loaded has TF = 1. Safe. -/
  | notInScopeTf
  /-- Raised by step (R129): the launch state breaks condition `n`. Safe. -/
  | badLaunchState (n : Nat)
  deriving DecidableEq, Repr

/-- The outcome of a step of this machine. -/
abbrev Outcome := Host.Outcome State Fault Refusal

/-- A segment register as hardware reset leaves it (R34): base 000000H, limit FFFFH, selector 0000H; the
access byte is a DESIGN CHOICE (log 3). -/
def SegReg.resetData : SegReg := { sel := 0x0000#16, base := 0x000000#24, limit := 0xFFFF#16, ar := 0x93#8 }

/-- The state right after hardware reset: the values of R34 where it gives one (log 4), the values of
log 2 and log 3 where it gives none. It is in real-address mode (MSW.PE = 0), so it is no launch state and
the first step refuses it (R129, D1; log 1). -/
def State.reset : State :=
  { regs := { ax := 0x0000#16, cx := 0x0000#16, dx := 0x0000#16, bx := 0x0000#16, sp := 0x0000#16, bp := 0x0000#16,
              si := 0x0000#16, di := 0x0000#16 }
    ip := 0xFFF0#16
    flags := 0x0002#16
    cpl := 0#2
    es := SegReg.resetData
    cs := { sel := 0xF000#16, base := 0xFF0000#24, limit := 0xFFFF#16, ar := 0x9B#8 }
    ss := SegReg.resetData
    ds := SegReg.resetData
    idtr := { base := 0x000000#24, limit := 0x03FF#16 }
    gdtr := { base := 0x000000#24, limit := 0x0000#16 }
    ldtr := { sel := 0x0000#16, base := 0x000000#24, limit := 0x0000#16 }
    tr := { sel := 0x0000#16, base := 0x000000#24, limit := 0x0000#16 }
    msw := 0xFFF0#16
    nmiInService := false
    nmiPending := false
    pic := { edge := 0x00#8, irr := 0x00#8, isr := 0x00#8, icw2 := 0x00#8 }
    mem := { cells := [] }
    params := Config.params
    inputs := []
    freeUsed := 0
    launched := false }

end Sys2Proof.Machine
end

