-- ==== Sys2Proof/Machine/Devices.lean ====
section
/-! DEFINITION. The 8259 interrupt controller (`60_exceptions.md` R116 to R122), I/O writes
(`20_memory.md` R36) and the address predicate of the 8205 decoder (R123). -/

namespace Sys2Proof.Machine

/-- The mask with bit n set, for input IRn. -/
def irBit (n : Fin 8) : BitVec 8 := 1#8 <<< n.val

/-- Rising edges at request inputs set their edge flip-flops (R117). -/
def Pic.request (p : Pic) (lines : BitVec 8) : Pic := { p with edge := p.edge ||| lines }

/-- Whether input IRn requests: its edge flip-flop is set (R117). -/
def Pic.requests (p : Pic) (n : Fin 8) : Bool := p.edge.getLsbD n.val

/-- The inputs that request, in rising order. -/
def Pic.requesting (p : Pic) : List (Fin 8) := [0, 1, 2, 3, 4, 5, 6, 7].filter p.requests

/-- The first INTA pulse for input IRn (R118): the edge flip-flop is reset, the request is frozen in IRRn,
ISRn is set. -/
def Pic.firstInta (p : Pic) (n : Fin 8) : Pic :=
  { p with edge := p.edge &&& ~~~(irBit n), irr := p.irr ||| irBit n, isr := p.isr ||| irBit n }

/-- The vector byte the second INTA pulse reads for input IRn (R119, R120): `(icw2 AND F8H) OR n`. -/
def Pic.vector (p : Pic) (n : Fin 8) : Byte := (p.icw2 &&& 0xF8#8) ||| BitVec.ofNat 8 n.val

/-- The n-th of the requesting inputs, counted round (R117): with one request there is no choice. -/
def pickRequesting (choice : Nat) : List (Fin 8) → Fin 8
  | [] => 0
  | [n] => n
  | n :: m :: rest => (n :: m :: rest).getD (choice % (n :: m :: rest).length) n

/-- `IoWrite(port, 1, v)` (R36, R121): the byte written to `PIC_ICW2_PORT` becomes ICW2; at every other port
nothing in scope answers and nothing changes (D21; `PIC_BASE` has no register in scope, R122). -/
def State.ioWrite (s : State) (port : Word) (v : Byte) : State :=
  if port = s.params.picIcw2Port then { s with pic := { s.pic with icw2 := v } } else s

/-- The 8205 decoder on a byte-wide bus cycle (R123): enabled iff BHE is high, A10 is low and A0 is low;
the output is the number A4 A3 A2. It has no state and decides nothing else in the model (D27). -/
def decoder8205 (bheHigh : Bool) (a : Addr) : Option (BitVec 3) :=
  if bheHigh && !a.getLsbD 10 && !a.getLsbD 0 then some (a.extractLsb' 2 3) else none

end Sys2Proof.Machine
end

