-- ==== Sys2Proof/Machine/Flags.lean ====
section
/-! DEFINITION. The flag word: its fields (`10_state.md` R18 to R21), what delivery does to it
(`60_exceptions.md` R106) and what IRET loads of an image (`41_iret.md` R79). -/

namespace Sys2Proof.Machine

/-- A flag word with bit 1 at 1 and bits 3, 5, 15 at 0 (R18, D11). -/
def fixFlags (v : Word) : Word := (v &&& 0x7FD7#16) ||| 0x0002#16

/-- TF, bit 8 (R18). -/
def flagTf (v : Word) : Bool := v.getLsbD 8

/-- IF, bit 9 (R18, R19). -/
def flagIf (v : Word) : Bool := v.getLsbD 9

/-- OF, bit 11 (R18, R21). -/
def flagOf (v : Word) : Bool := v.getLsbD 11

/-- NT, bit 14 (R18, R20). -/
def flagNt (v : Word) : Bool := v.getLsbD 14

/-- IOPL, bits 13:12 (R18, R21). -/
def flagIopl (v : Word) : Level := v.extractLsb' 12 2

/-- A flag word with IF cleared. -/
def clearIf (v : Word) : Word := v &&& 0xFDFF#16

/-- A flag word with TF cleared. -/
def clearTf (v : Word) : Word := v &&& 0xFEFF#16

/-- A flag word with NT cleared. -/
def clearNt (v : Word) : Word := v &&& 0xBFFF#16

/-- A flag word with NT set. -/
def setNt (v : Word) : Word := v ||| 0x4000#16

/-- What entry through an interrupt gate (`clear` true) or a trap gate makes of the flag word (R106):
IF cleared by an interrupt gate only, TF and NT by both (C5, C6, D14). -/
def handlerFlags (clear : Bool) (v : Word) : Word :=
  clearNt (clearTf (if clear then clearIf v else v))

/-- What IRET at level `cpl` loads of the image `img` when the flag word is `old` (R79, D17): the whole
image with the fixed bits at their values; with the filter on, IOPL is kept unless `cpl` is 0 and IF is
kept if `cpl` is above the old IOPL. -/
def filterFlags (filter : Bool) (cpl : Level) (old img : Word) : Word :=
  let v := if filter && decide (cpl ≠ 0#2) then (img &&& 0xCFFF#16) ||| (old &&& 0x3000#16) else img
  let w := if filter && decide (flagIopl old < cpl) then (v &&& 0xFDFF#16) ||| (old &&& 0x0200#16) else v
  fixFlags w

/-- The flag word as an instruction or the processor reads or stores it: the fixed bits at their values
whatever State holds there (R18). -/
def State.flagWord (s : State) : Word := fixFlags s.flags

end Sys2Proof.Machine
end

