-- ==== Sys2Proof/Machine/Memory.lean ====
section
/-! DEFINITION. Main memory (`10_state.md` R31, `20_memory.md` R35): 2^24 bytes, all of which exist, held
as the list of those that differ from `Config.blankByte`. -/

namespace Sys2Proof.Machine

/-- The byte that a list of cells gives for an address: the first cell of that address, else the blank byte. -/
def readCells : List Host.Cell → Nat → Byte
  | [], _ => Config.blankByte
  | (b, v) :: rest, a => if b = a then v else readCells rest a

/-- The cells without those of an address. -/
def removeCells : List Host.Cell → Nat → List Host.Cell
  | [], _ => []
  | (b, v) :: rest, a => if b = a then removeCells rest a else (b, v) :: removeCells rest a

/-- The cells with one more, before the first of a greater address. -/
def insertCell : List Host.Cell → Nat → Byte → List Host.Cell
  | [], a, v => [(a, v)]
  | (b, w) :: rest, a, v => if a < b then (a, v) :: (b, w) :: rest else (b, w) :: insertCell rest a v

/-- The byte of memory at an address. -/
def Memory.read (m : Memory) (a : Addr) : Byte := readCells m.cells a.toNat

/-- Memory after one byte is written. Writing the blank byte removes the entry, so that equal memories are
equal lists. -/
def Memory.write (m : Memory) (a : Addr) (v : Byte) : Memory :=
  let rest := removeCells m.cells a.toNat
  if v = Config.blankByte then { cells := rest } else { cells := insertCell rest a.toNat v }

/-- The cells rise from `lo`, lie inside the address space and none is blank. -/
def cellsRiseFrom : Nat → List Host.Cell → Bool
  | _, [] => true
  | lo, (a, v) :: rest => decide (lo ≤ a) && decide (a < 2 ^ 24) && (v != Config.blankByte) && cellsRiseFrom (a + 1) rest

/-- The canonical form of a memory: addresses strictly rising below 2^24, no entry blank. -/
def Memory.wf (m : Memory) : Bool := cellsRiseFrom 0 m.cells

end Sys2Proof.Machine
end

