-- ==== Sys2Proof/WellFormed.lean ====
section
/-! DEFINITION. Which terms of the syntax have an encoding. There is one check: BP with no displacement
has none, because mod = 00 with rm = 110 is the word that stands alone (`30_encoding.md` R66). -/

namespace Sys2Proof

/-- Whether a memory operand has an encoding (R66). -/
def MemOperand.wellFormed : MemOperand → Bool
  | .based .bp .none => false
  | .based _ _ => true
  | .direct _ => true

/-- Whether an instruction has an encoding (R66, R67). -/
def Instr.wellFormed : Instr → Bool
  | .lidt m => m.wellFormed
  | .intN _ => true
  | .int3 => true
  | .into => true
  | .iret => true
  | .movR8Imm8 _ _ => true
  | .movR16Imm16 _ _ => true
  | .outDxAl => true

end Sys2Proof
end

