-- ==== Sys2Proof/Decode.lean ====
section
/-! DEFINITION. From bytes to instructions and back (`30_encoding.md` R62 to R68). `decode` is total on
any list of bytes; it answers an instruction or says by name why there is none. `encode` is written from
the same tables. -/

namespace Sys2Proof

open Sys2Proof.Machine (wordOf lowByte highByte)

/-- What a decoder makes of the bytes at the instruction pointer (R64, R68). -/
inductive Decoded where
  /-- An instruction of the opcode map (R67). -/
  | instr (i : Instr)
  /-- LIDT with a register operand, an invalid opcode of the hardware (R68 a). -/
  | invalidOpcode
  /-- A byte sequence outside the spec; `b` is its first byte (R68 b; `95_test_vectors.md` L9, log 15). -/
  | notInScope (b : Byte)
  /-- The bytes end before the instruction does (R16). -/
  | truncated
  deriving DecidableEq, Repr

/-- The 16-bit register of a register number (R13). -/
def reg16Of (n : BitVec 3) : Reg16 :=
  match n.toNat with
  | 0 => .ax | 1 => .cx | 2 => .dx | 3 => .bx | 4 => .sp | 5 => .bp | 6 => .si | _ => .di

/-- The register number of a 16-bit register (R13). -/
def reg16Number : Reg16 → BitVec 3
  | .ax => 0#3 | .cx => 1#3 | .dx => 2#3 | .bx => 3#3 | .sp => 4#3 | .bp => 5#3 | .si => 6#3 | .di => 7#3

/-- The 8-bit register of a register number (R14). -/
def reg8Of (n : BitVec 3) : Reg8 :=
  match n.toNat with
  | 0 => .al | 1 => .cl | 2 => .dl | 3 => .bl | 4 => .ah | 5 => .ch | 6 => .dh | _ => .bh

/-- The register number of an 8-bit register (R14). -/
def reg8Number : Reg8 → BitVec 3
  | .al => 0#3 | .cl => 1#3 | .dl => 2#3 | .bl => 3#3 | .ah => 4#3 | .ch => 5#3 | .dh => 6#3 | .bh => 7#3

/-- The base of an rm field (R66). -/
def addrBaseOf (rm : BitVec 3) : AddrBase :=
  match rm.toNat with
  | 0 => .bxSi | 1 => .bxDi | 2 => .bpSi | 3 => .bpDi | 4 => .si | 5 => .di | 6 => .bp | _ => .bx

/-- The rm field of a base (R66). -/
def addrBaseNumber : AddrBase → BitVec 3
  | .bxSi => 0#3 | .bxDi => 1#3 | .bpSi => 2#3 | .bpDi => 3#3 | .si => 4#3 | .di => 5#3 | .bp => 6#3 | .bx => 7#3

/-- The memory operand of a ModRM byte's mod and rm fields and the bytes that follow (R66): none where
the displacement is cut short. mod = 11B is the caller's (R68 a). -/
def decodeOperand (mod : BitVec 2) (rm : BitVec 3) (rest : List Byte) : Option MemOperand :=
  match mod.toNat, rest with
  | 0, [] => if rm = 6#3 then none else some (.based (addrBaseOf rm) .none)
  | 0, [_] => if rm = 6#3 then none else some (.based (addrBaseOf rm) .none)
  | 0, lo :: hi :: _ => if rm = 6#3 then some (.direct (wordOf hi lo)) else some (.based (addrBaseOf rm) .none)
  | 1, [] => none
  | 1, d :: _ => some (.based (addrBaseOf rm) (.disp8 d))
  | _, lo :: hi :: _ => some (.based (addrBaseOf rm) (.disp16 (wordOf hi lo)))
  | _, _ => none

/-- What follows 0FH 01H: the ModRM byte and the displacement (R64, R68). -/
def decodeGroup (modrm : Byte) (rest : List Byte) : Decoded :=
  if modrm.extractLsb' 3 3 = 3#3 then
    if modrm.extractLsb' 6 2 = 3#2 then .invalidOpcode
    else
      match decodeOperand (modrm.extractLsb' 6 2) (modrm.extractLsb' 0 3) rest with
      | some m => .instr (.lidt m)
      | none => .truncated
  else .notInScope 0x0F#8

/-- What follows 0FH (R64). -/
def decodeTwoByte : List Byte → Decoded
  | [] => .truncated
  | b1 :: rest =>
    if b1 = 0x01#8 then
      match rest with
      | [] => .truncated
      | modrm :: rest' => decodeGroup modrm rest'
    else .notInScope 0x0F#8

/-- An instruction whose opcode is followed by one immediate byte (format `OP_I8`, R63). -/
def decodeImm8 (f : Byte → Instr) : List Byte → Decoded
  | [] => .truncated
  | v :: _ => .instr (f v)

/-- An instruction whose opcode is followed by an immediate word, low byte first (format `OP_I16`, R63, R65). -/
def decodeImm16 (f : Word → Instr) : List Byte → Decoded
  | lo :: hi :: _ => .instr (f (wordOf hi lo))
  | _ => .truncated

/-- The instruction that the bytes begin with (R64, R67, R68). -/
def decode : List Byte → Decoded
  | [] => .truncated
  | b :: rest =>
    if b = 0xCC#8 then .instr .int3
    else if b = 0xCE#8 then .instr .into
    else if b = 0xCF#8 then .instr .iret
    else if b = 0xEE#8 then .instr .outDxAl
    else if b = 0xCD#8 then decodeImm8 .intN rest
    else if b.extractLsb' 3 5 = 0x16#5 then decodeImm8 (.movR8Imm8 (reg8Of (b.extractLsb' 0 3))) rest
    else if b.extractLsb' 3 5 = 0x17#5 then decodeImm16 (.movR16Imm16 (reg16Of (b.extractLsb' 0 3))) rest
    else if b = 0x0F#8 then decodeTwoByte rest
    else .notInScope b

/-- The bytes of a word as an immediate or a displacement: low byte first (R38, R65). -/
def wordBytes (w : Word) : List Byte := [lowByte w, highByte w]

/-- The mod field of a memory operand (R66). -/
def MemOperand.modField : MemOperand → BitVec 2
  | .based _ .none => 0#2
  | .based _ (.disp8 _) => 1#2
  | .based _ (.disp16 _) => 2#2
  | .direct _ => 0#2

/-- The rm field of a memory operand (R66). -/
def MemOperand.rmField : MemOperand → BitVec 3
  | .based b _ => addrBaseNumber b
  | .direct _ => 6#3

/-- The displacement bytes of a memory operand (R66). -/
def MemOperand.dispBytes : MemOperand → List Byte
  | .based _ .none => []
  | .based _ (.disp8 d) => [d]
  | .based _ (.disp16 d) => wordBytes d
  | .direct d => wordBytes d

/-- The ModRM byte of LIDT: mod in bits 7:6, the opcode extension 011B in bits 5:3, rm in bits 2:0 (R63). -/
def lidtModRM (m : MemOperand) : Byte := m.modField ++ (3#3 ++ m.rmField)

/-- The bytes of an instruction (R63, R67). -/
def encode : Instr → List Byte
  | .intN n => [0xCD#8, n]
  | .int3 => [0xCC#8]
  | .into => [0xCE#8]
  | .iret => [0xCF#8]
  | .lidt m => 0x0F#8 :: 0x01#8 :: lidtModRM m :: m.dispBytes
  | .movR8Imm8 r v => [0x16#5 ++ reg8Number r, v]
  | .movR16Imm16 r v => (0x17#5 ++ reg16Number r) :: wordBytes v
  | .outDxAl => [0xEE#8]

/-- How many displacement bytes a memory operand has (R66). -/
def MemOperand.dispSize : MemOperand → Nat
  | .based _ .none => 0
  | .based _ (.disp8 _) => 1
  | .based _ (.disp16 _) => 2
  | .direct _ => 2

/-- The length of an instruction in bytes (R64). -/
def Instr.length : Instr → Nat
  | .intN _ => 2
  | .int3 => 1
  | .into => 1
  | .iret => 1
  | .lidt m => 3 + m.dispSize
  | .movR8Imm8 _ _ => 2
  | .movR16Imm16 _ _ => 3
  | .outDxAl => 1

/-- The longest instruction in scope (R62). -/
def maxLength : Nat := 5

/-- `n` bytes of a number, the least significant first. -/
def bytesLow : Nat → Nat → List Byte
  | 0, _ => []
  | n + 1, w => BitVec.ofNat 8 w :: bytesLow n (w / 256)

/-- The bytes followed by zeros up to the longest instruction's length. -/
def padBytes (bs : List Byte) : List Byte := bs ++ List.replicate (maxLength - bs.length) 0x00#8

/-- Whether the decoder reads an instruction from the bytes. -/
def decodesToInstr (bs : List Byte) : Bool :=
  match decode bs with
  | .instr _ => true
  | _ => false

/-- The bytes, in memory order, of an instruction whose bits are the number `w` (log 16): byte 0 is the least
significant byte if the decoder reads an instruction that way. Otherwise `w` is read as the opcode table writes
its one row of more than a byte (LIDT, R67), with byte 0 as the most significant of the `nbits` bits. -/
def tableBytes (nbits w : Nat) : List Byte :=
  let low := bytesLow ((nbits + 7) / 8) w
  if decodesToInstr (padBytes low) then padBytes low else padBytes low.reverse

/-- The instruction the decoder reads from a number of the opcode table (`tableBytes`). -/
def decodeTableWord (nbits w : Nat) : Option Instr :=
  match decode (tableBytes nbits w) with
  | .instr i => some i
  | _ => none

end Sys2Proof
end

