-- ==== Sys2Proof/Machine/Descriptors.lean ====
section
/-! DEFINITION. The bit fields of selectors, access bytes, descriptors, gates and the TSS
(`20_memory.md` R41 to R52). -/

namespace Sys2Proof.Machine

/-- Bits 1:0 of a selector (R41). -/
def selRpl (sel : Word) : Level := sel.extractLsb' 0 2

/-- Bit 2 of a selector: 0 the GDT, 1 the LDT (R41). -/
def selTi (sel : Word) : Bool := sel.getLsbD 2

/-- Whether a selector is null: bits 15:2 are zero (R41). -/
def selNull (sel : Word) : Bool := sel.extractLsb' 2 14 == 0#14

/-- The byte offset of a selector's descriptor in its table: INDEX times 8 (R42). -/
def selOffset (sel : Word) : Word := sel.extractLsb' 3 13 ++ 0#3

/-- A selector with its RPL replaced (R104, R105). -/
def selWithRpl (sel : Word) (k : Level) : Word := sel.extractLsb' 2 14 ++ k

/-- Access byte, bit 7: Present (R44). -/
def arPresent (ar : Byte) : Bool := ar.getLsbD 7

/-- Access byte, bits 6:5: DPL (R44). -/
def arDpl (ar : Byte) : Level := ar.extractLsb' 5 2

/-- Access byte, bit 4: S, 1 for a code or data segment (R44). -/
def arIsSegment (ar : Byte) : Bool := ar.getLsbD 4

/-- Access byte, bits 3:0: TYPE (R44). -/
def arType (ar : Byte) : BitVec 4 := ar.extractLsb' 0 4

/-- A code segment: S = 1 and bit 3 = 1 (R48, R101). -/
def arIsCode (ar : Byte) : Bool := arIsSegment ar && ar.getLsbD 3

/-- A conforming code segment: bit 2 of a code segment (R48). -/
def arConforming (ar : Byte) : Bool := arIsCode ar && ar.getLsbD 2

/-- A data segment: S = 1 and bit 3 = 0 (R49). -/
def arIsData (ar : Byte) : Bool := arIsSegment ar && !ar.getLsbD 3

/-- A writable data segment: bit 1 of a data segment (R49). -/
def arWritable (ar : Byte) : Bool := arIsData ar && ar.getLsbD 1

/-- A segment that can be read: a data segment, or a code segment with R = 1 (R48, R53). -/
def arReadable (ar : Byte) : Bool := arIsData ar || (arIsCode ar && ar.getLsbD 1)

/-- An expand-down data segment: bit 2 of a data segment (R49). -/
def arExpandDown (ar : Byte) : Bool := arIsData ar && ar.getLsbD 2

/-- An access byte with the accessed bit, bit 0, set (R48, R55). -/
def arAccessed (ar : Byte) : Byte := ar ||| 0x01#8

/-- The accessed bit (R48). -/
def arIsAccessed (ar : Byte) : Bool := ar.getLsbD 0

/-- A code segment whose DPL suits level `k`: DPL = k, or DPL <= k if it conforms (R77, R78, R110). -/
def arCodeFits (ar : Byte) (k : Level) : Bool :=
  if arConforming ar then decide (arDpl ar ≤ k) else arDpl ar == k

/-- A descriptor as read from memory, `b0` at the lowest address, with the address of `b0` (R42, R44). -/
structure Desc where
  b0 : Byte
  b1 : Byte
  b2 : Byte
  b3 : Byte
  b4 : Byte
  b5 : Byte
  /-- Reserved and ignored when read, as is `b7` (R44, D28). -/
  b6 : Byte
  b7 : Byte
  addr : Addr
  deriving DecidableEq, Repr

/-- The access byte of a descriptor (R44). -/
def Desc.ar (d : Desc) : Byte := d.b5

/-- The limit of a segment, TSS or LDT descriptor (R48 to R51). -/
def Desc.limit (d : Desc) : Word := wordOf d.b1 d.b0

/-- The base of a segment, TSS or LDT descriptor (R48 to R51). -/
def Desc.base (d : Desc) : Addr := addrOf d.b4 (wordOf d.b3 d.b2)

/-- The offset of an interrupt or trap gate (R45). -/
def Desc.gateOffset (d : Desc) : Word := wordOf d.b1 d.b0

/-- The selector of a gate (R45, R46). -/
def Desc.gateSelector (d : Desc) : Word := wordOf d.b3 d.b2

/-- A task gate: S = 0, TYPE 0101B (R46). -/
def Desc.isTaskGate (d : Desc) : Bool := !arIsSegment d.ar && arType d.ar == 0x5#4

/-- An interrupt gate: S = 0, TYPE 0110B (R45). -/
def Desc.isInterruptGate (d : Desc) : Bool := !arIsSegment d.ar && arType d.ar == 0x6#4

/-- A trap gate: S = 0, TYPE 0111B (R45). -/
def Desc.isTrapGate (d : Desc) : Bool := !arIsSegment d.ar && arType d.ar == 0x7#4

/-- One of the three gates that may stand in the IDT (R99, D25). -/
def Desc.isIdtGate (d : Desc) : Bool := d.isTaskGate || d.isInterruptGate || d.isTrapGate

/-- An available TSS: S = 0, TYPE 0001B (R50, R109). -/
def Desc.isAvailableTss (d : Desc) : Bool := !arIsSegment d.ar && arType d.ar == 0x1#4

/-- A busy TSS: S = 0, TYPE 0011B (R50, R80). -/
def Desc.isBusyTss (d : Desc) : Bool := !arIsSegment d.ar && arType d.ar == 0x3#4

/-- An LDT descriptor: S = 0, TYPE 0010B (R51). -/
def Desc.isLdt (d : Desc) : Bool := !arIsSegment d.ar && arType d.ar == 0x2#4

/-- The segment register that `LoadSeg` makes of a selector and its descriptor (R55). -/
def Desc.toSegReg (sel : Word) (d : Desc) : SegReg :=
  { sel := sel, base := d.base, limit := d.limit, ar := arAccessed d.ar }

/-- LDTR or TR as loaded from a descriptor (R25, R26). -/
def Desc.toSysSegReg (sel : Word) (d : Desc) : SysSegReg :=
  { sel := sel, base := d.base, limit := d.limit }

/-- The words of a TSS that a task switch loads (R52). -/
structure TssImage where
  ip : Word
  flags : Word
  regs : GenRegs
  es : Word
  cs : Word
  ss : Word
  ds : Word
  ldt : Word
  deriving DecidableEq, Repr

/-- The smallest limit of a TSS descriptor (R50). -/
def tssMinLimit : Word := 0x002B#16

end Sys2Proof.Machine
end

