-- ==== Sys2Proof/Machine/Operands.lean ====
section
/-! DEFINITION. Reading and writing the general registers (`10_state.md` R13, R14), naming the segment
registers (R17), and the effective address of a memory operand (`30_encoding.md` R66). -/

namespace Sys2Proof.Machine

/-- The four segment registers (R17). -/
inductive SegName where
  | es | cs | ss | ds
  deriving DecidableEq, Repr

/-- A segment register (R17). -/
def State.seg (s : State) : SegName → SegReg
  | .es => s.es
  | .cs => s.cs
  | .ss => s.ss
  | .ds => s.ds

/-- The state with a segment register replaced (R17). -/
def State.setSeg (s : State) (n : SegName) (g : SegReg) : State :=
  match n with
  | .es => { s with es := g }
  | .cs => { s with cs := g }
  | .ss => { s with ss := g }
  | .ds => { s with ds := g }

/-- `x[r]` (R7, R13). -/
def GenRegs.read (g : GenRegs) : Reg16 → Word
  | .ax => g.ax
  | .cx => g.cx
  | .dx => g.dx
  | .bx => g.bx
  | .sp => g.sp
  | .bp => g.bp
  | .si => g.si
  | .di => g.di

/-- `x[r] <- v` (R7, R13). -/
def GenRegs.write (g : GenRegs) (r : Reg16) (v : Word) : GenRegs :=
  match r with
  | .ax => { g with ax := v }
  | .cx => { g with cx := v }
  | .dx => { g with dx := v }
  | .bx => { g with bx := v }
  | .sp => { g with sp := v }
  | .bp => { g with bp := v }
  | .si => { g with si := v }
  | .di => { g with di := v }

/-- The 16-bit register that holds an 8-bit register (R14). -/
def reg8Home : Reg8 → Reg16
  | .al => .ax | .cl => .cx | .dl => .dx | .bl => .bx
  | .ah => .ax | .ch => .cx | .dh => .dx | .bh => .bx

/-- Whether an 8-bit register is the high byte of its home (R14). -/
def reg8IsHigh : Reg8 → Bool
  | .al => false | .cl => false | .dl => false | .bl => false
  | .ah => true | .ch => true | .dh => true | .bh => true

/-- An 8-bit register (R14). -/
def GenRegs.read8 (g : GenRegs) (r : Reg8) : Byte :=
  if reg8IsHigh r then highByte (g.read (reg8Home r)) else lowByte (g.read (reg8Home r))

/-- The general registers after an 8-bit register is written; the other byte of its home stays (R14). -/
def GenRegs.write8 (g : GenRegs) (r : Reg8) (v : Byte) : GenRegs :=
  let old := g.read (reg8Home r)
  g.write (reg8Home r) (if reg8IsHigh r then wordOf v (lowByte old) else wordOf (highByte old) v)

/-- The sum a base names, modulo 2^16 (R66). -/
def baseValue (g : GenRegs) : AddrBase → Word
  | .bxSi => g.bx + g.si
  | .bxDi => g.bx + g.di
  | .bpSi => g.bp + g.si
  | .bpDi => g.bp + g.di
  | .si => g.si
  | .di => g.di
  | .bp => g.bp
  | .bx => g.bx

/-- The default segment of a base: SS where BP takes part, DS otherwise (R66). -/
def baseSegment : AddrBase → SegName
  | .bxSi => .ds
  | .bxDi => .ds
  | .bpSi => .ss
  | .bpDi => .ss
  | .si => .ds
  | .di => .ds
  | .bp => .ss
  | .bx => .ds

/-- The value a displacement adds: disp8 is sign-extended (R66). -/
def dispValue : Disp → Word
  | .none => 0x0000#16
  | .disp8 d => signExtend16 d
  | .disp16 d => d

/-- The effective offset of a memory operand, modulo 2^16 (R66). -/
def effectiveOffset (g : GenRegs) : MemOperand → Word
  | .based b d => baseValue g b + dispValue d
  | .direct d => d

/-- The default segment of a memory operand (R66). -/
def operandSegment : MemOperand → SegName
  | .based b _ => baseSegment b
  | .direct _ => .ds

end Sys2Proof.Machine
end

