-- ==== Sys2Proof/Machine/Ops.lean ====
section
/-! DEFINITION. The operations the instructions share: memory and segment access (`20_memory.md` R38, R53,
R54), descriptors (R42, R55), the task switch (`60_exceptions.md` R110), taking an interrupt or exception
(R98 to R109), the return from one (`41_iret.md` R75 to R81), and what becomes of a failed check (R114). -/

namespace Sys2Proof.Machine

/-! ### Physical memory -/

/-- `MemRead(a, 1)` (R8). -/
def State.read8 (s : State) (a : Addr) : Byte := s.mem.read a

/-- `MemRead(a, 2)`: the low byte at the lower address (R8, R38). -/
def State.read16 (s : State) (a : Addr) : Word := wordOf (s.read8 (a + 1#24)) (s.read8 a)

/-- `MemWrite(a, 1, v)` (R8). -/
def State.write8 (s : State) (a : Addr) (v : Byte) : State := { s with mem := s.mem.write a v }

/-- `MemWrite(a, 2, v)` (R8, R38). -/
def State.write16 (s : State) (a : Addr) (v : Word) : State :=
  (s.write8 a (lowByte v)).write8 (a + 1#24) (highByte v)

/-- Consecutive words, the first at the lowest address. -/
def State.writeWords (s : State) (a : Addr) : List Word → State
  | [] => s
  | w :: ws => (s.write16 a w).writeWords (a + 2#24) ws

/-! ### Segment access and the stack -/

/-- The limit test for `n` bytes at an offset, without wrap (R53). -/
def rangeOk (g : SegReg) (off : Word) (n : Nat) : Bool :=
  if arExpandDown g.ar then decide (g.limit.toNat < off.toNat) && decide (off.toNat + n ≤ 0x10000)
  else decide (off.toNat + n ≤ g.limit.toNat + 1)

/-- Whether a read of `n` bytes through a segment register is allowed (R53). -/
def segReadOk (g : SegReg) (off : Word) (n : Nat) : Bool :=
  !selNull g.sel && arReadable g.ar && rangeOk g off n

/-- Whether a write of `n` bytes through a segment register is allowed (R53). -/
def segWriteOk (g : SegReg) (off : Word) (n : Nat) : Bool :=
  !selNull g.sel && arWritable g.ar && rangeOk g off n

/-- The physical address of an offset in a segment, modulo 2^24 (R35, R56 d). -/
def SegReg.phys (g : SegReg) (off : Word) : Addr := g.base + off.setWidth 24

/-- The reason a failed access through a segment register gives (R53). -/
def accessFault : SegName → Fault
  | .ss => .stackLimit
  | .es => .segmentLimit
  | .cs => .segmentLimit
  | .ds => .segmentLimit

/-- Whether `words` pushes from offset `sp` down all pass the limit test, word by word with the 16-bit wrap
of a push (R104, R105, C13). -/
def frameFits (g : SegReg) (sp : Word) : Nat → Bool
  | 0 => true
  | n + 1 => segWriteOk g (sp - 2#16) 2 && frameFits g (sp - 2#16) n

/-- The state with SP replaced. -/
def State.setSp (s : State) (v : Word) : State := { s with regs := { s.regs with sp := v } }

/-- The state with IP replaced. -/
def State.setIp (s : State) (v : Word) : State := { s with ip := v }

/-- The state with the flag word replaced. -/
def State.setFlags (s : State) (v : Word) : State := { s with flags := v }

/-- The state with CPL replaced. -/
def State.setCpl (s : State) (k : Level) : State := { s with cpl := k }

/-- A push whose limit test has been made for the whole frame (R54, last paragraph). -/
def State.pushWord (s : State) (v : Word) : State :=
  (s.write16 (s.ss.phys (s.regs.sp - 2#16)) v).setSp (s.regs.sp - 2#16)

/-- Pushes in the order listed (R54). -/
def State.pushWords (s : State) : List Word → State
  | [] => s
  | w :: ws => (s.pushWord w).pushWords ws

/-! ### Failed checks -/

/-- A failed check: the reason (R115), whether the second exception of its row applies (`alt`: the
selector names a TSS, or P = 0 is the only defect), and the state the failure leaves. -/
structure Failure where
  reason : Fault
  alt : Bool
  left : State

/-- What a procedure that may fail answers: a state, or a failed check. -/
abbrev Attempt := Except Failure State

/-- A failed check that leaves state `s`. -/
def failing (s : State) (r : Fault) : Failure := { reason := r, alt := false, left := s }

/-- A failed check whose row of R115 names a second exception, and that one applies iff `alt`. -/
def failingAlt (s : State) (r : Fault) (alt : Bool) : Failure := { reason := r, alt := alt, left := s }

/-! ### Descriptors -/

/-- The eight bytes of a descriptor at a physical address (R40, R44). -/
def State.descAt (s : State) (a : Addr) : Desc :=
  { b0 := s.read8 a, b1 := s.read8 (a + 1#24), b2 := s.read8 (a + 2#24), b3 := s.read8 (a + 3#24), b4 := s.read8 (a + 4#24),
    b5 := s.read8 (a + 5#24), b6 := s.read8 (a + 6#24), b7 := s.read8 (a + 7#24), addr := a }

/-- `ReadDesc(sel)` (R42): none for a null selector, for a selector beyond its table's limit, and for a
selector with TI = 1 while LDTR is null (R25). -/
def State.readDesc (s : State) (sel : Word) : Option Desc :=
  if selNull sel then none
  else if selTi sel then
    if selNull s.ldtr.sel || decide (s.ldtr.limit.toNat < (selOffset sel).toNat + 7) then none
    else some (s.descAt (s.ldtr.base + (selOffset sel).setWidth 24))
  else
    if s.gdtr.limit.toNat < (selOffset sel).toNat + 7 then none
    else some (s.descAt (s.gdtr.base + (selOffset sel).setWidth 24))

/-- Setting the accessed bit in memory, if it was 0 (R55). -/
def State.markAccessed (s : State) (d : Desc) : State :=
  if arIsAccessed d.ar then s else s.write8 (d.addr + 5#24) (arAccessed d.ar)

/-- `LoadSeg(s, sel, d)` (R55). -/
def State.loadSeg (s : State) (n : SegName) (sel : Word) (d : Desc) : State :=
  (s.setSeg n (d.toSegReg sel)).markAccessed d

/-! ### The task switch -/

/-- What causes a task switch (R110): an interrupt through a task gate, or IRET with NT = 1. -/
inductive SwitchCause where
  | nest
  | iret
  deriving DecidableEq, Repr

/-- The words of the outgoing task, from offset 0EH of its TSS on (R52, R110 step 3). NT is cleared in the
image when IRET leaves the task (R112). -/
def State.outgoingWords (s : State) (cause : SwitchCause) (retIp : Word) : List Word :=
  [retIp,
   match cause with
   | .nest => s.flagWord
   | .iret => clearNt s.flagWord,
   s.regs.ax, s.regs.cx, s.regs.dx, s.regs.bx, s.regs.sp, s.regs.bp, s.regs.si, s.regs.di,
   s.es.sel, s.cs.sel, s.ss.sel, s.ds.sel]

/-- Step 3 of R110: the outgoing state goes to its TSS. -/
def State.saveTask (s : State) (cause : SwitchCause) (retIp : Word) : State :=
  s.writeWords (s.tr.base + 0x0E#24) (s.outgoingWords cause retIp)

/-- Step 4 of R110: BUSY of the incoming descriptor is set (nest), or BUSY of the outgoing one, which TR
names in the GDT, is cleared (iret). -/
def State.switchBusy (s : State) (cause : SwitchCause) (d : Desc) : State :=
  match cause with
  | .nest => s.write8 (d.addr + 5#24) (s.read8 (d.addr + 5#24) ||| 0x02#8)
  | .iret =>
    let a := s.gdtr.base + (selOffset s.tr.sel).setWidth 24 + 5#24
    s.write8 a (s.read8 a &&& 0xFD#8)

/-- Step 5 of R110: the back link of the incoming TSS, if tasks nest. -/
def State.linkBack (s : State) (cause : SwitchCause) (d : Desc) : State :=
  match cause with
  | .nest => s.write16 d.base s.tr.sel
  | .iret => s

/-- Step 6 of R110: TR and MSW.TS. -/
def State.enterTask (s : State) (new : Word) (d : Desc) : State :=
  { s with tr := d.toSysSegReg new, msw := s.msw ||| 0x0008#16 }

/-- The words of a TSS that a task switch loads (R52). -/
def State.readTss (s : State) (base : Addr) : TssImage :=
  { ip := s.read16 (base + 0x0E#24)
    flags := s.read16 (base + 0x10#24)
    regs := { ax := s.read16 (base + 0x12#24), cx := s.read16 (base + 0x14#24), dx := s.read16 (base + 0x16#24),
              bx := s.read16 (base + 0x18#24), sp := s.read16 (base + 0x1A#24), bp := s.read16 (base + 0x1C#24),
              si := s.read16 (base + 0x1E#24), di := s.read16 (base + 0x20#24) }
    es := s.read16 (base + 0x22#24)
    cs := s.read16 (base + 0x24#24)
    ss := s.read16 (base + 0x26#24)
    ds := s.read16 (base + 0x28#24)
    ldt := s.read16 (base + 0x2A#24) }

/-- Step 7 of R110: IP, the flag word (with NT set if tasks nest, R111) and the general registers. -/
def State.loadTask (s : State) (cause : SwitchCause) (t : TssImage) : State :=
  { s with
    ip := t.ip
    flags := match cause with
      | .nest => setNt (fixFlags t.flags)
      | .iret => fixFlags t.flags
    regs := t.regs }

/-- Step 8 of R110: LDTR. A null selector leaves no LDT; another must have TI = 0 and name a present LDT
descriptor inside the GDT. -/
def State.loadLdt (s : State) (ldt : Word) : Attempt :=
  if selNull ldt then .ok { s with ldtr := { sel := ldt, base := 0#24, limit := 0#16 } }
  else if selTi ldt then .error (failing s (.incomingLdtInvalid ldt))
  else
    match s.readDesc ldt with
    | none => .error (failing s (.incomingLdtInvalid ldt))
    | some d =>
      if d.isLdt && arPresent d.ar then .ok { s with ldtr := d.toSysSegReg ldt }
      else .error (failingAlt s (.incomingLdtInvalid ldt) d.isLdt)

/-- Step 9 of R110, CS: CPL is the RPL of the selector; a present code segment whose DPL suits it. -/
def State.loadTaskCs (s : State) (cs : Word) : Attempt :=
  match s.readDesc cs with
  | none => .error (failing (s.setCpl (selRpl cs)) (.incomingCsInvalid cs))
  | some d =>
    if arIsCode d.ar && arCodeFits d.ar (selRpl cs) then
      if arPresent d.ar then .ok ((s.setCpl (selRpl cs)).loadSeg .cs cs d)
      else .error (failingAlt (s.setCpl (selRpl cs)) (.incomingCsInvalid cs) true)
    else .error (failing (s.setCpl (selRpl cs)) (.incomingCsInvalid cs))

/-- Step 9 of R110, SS: RPL = CPL, a present writable data segment with DPL = CPL. -/
def State.loadTaskSs (s : State) (ss : Word) : Attempt :=
  match s.readDesc ss with
  | none => .error (failing s (.incomingSsInvalid ss))
  | some d =>
    if selRpl ss == s.cpl && arWritable d.ar && arDpl d.ar == s.cpl then
      if arPresent d.ar then .ok (s.loadSeg .ss ss d) else .error (failingAlt s (.incomingSsInvalid ss) true)
    else .error (failing s (.incomingSsInvalid ss))

/-- A data-segment register made null (R78): the selector as given and the access byte 00H. -/
def SegReg.asNull (g : SegReg) (sel : Word) : SegReg := { g with sel := sel, ar := 0x00#8 }

/-- The greater of two levels. -/
def levelMax (a b : Level) : Level := if a ≤ b then b else a

/-- Whether a descriptor may be loaded into DS or ES by a task switch, presence apart (R110 step 9): a data
segment or readable code segment with, unless it is a conforming code segment, DPL >= max(CPL, RPL). -/
def dataSegFits (ar : Byte) (cpl rpl : Level) : Bool :=
  arReadable ar && (arConforming ar || decide (levelMax cpl rpl ≤ arDpl ar))

/-- Step 9 of R110, DS and ES: null is allowed, otherwise `dataSegFits` and present. -/
def State.loadTaskData (s : State) (n : SegName) (sel : Word) : Attempt :=
  if selNull sel then .ok (s.setSeg n ((s.seg n).asNull sel))
  else
    match s.readDesc sel with
    | none => .error (failing s (.incomingDataSegInvalid sel))
    | some d =>
      if dataSegFits d.ar s.cpl (selRpl sel) then
        if arPresent d.ar then .ok (s.loadSeg n sel d) else .error (failingAlt s (.incomingDataSegInvalid sel) true)
      else .error (failing s (.incomingDataSegInvalid sel))

/-- Step 10 of R110. -/
def State.checkTaskIp (s : State) : Attempt :=
  if s.cs.limit < s.ip then .error (failing s .ipBeyondLimit) else .ok s

/-- Steps 8 to 10 of R110, in that order; DS before ES. -/
def State.loadTaskSegments (s : State) (t : TssImage) : Attempt := do
  let s8 ← s.loadLdt t.ldt
  let sCs ← s8.loadTaskCs t.cs
  let sSs ← sCs.loadTaskSs t.ss
  let sDs ← sSs.loadTaskData .ds t.ds
  let sEs ← sDs.loadTaskData .es t.es
  sEs.checkTaskIp

/-- Steps 2 to 6 of R110: everything up to the point of no return. -/
def State.leaveTask (s : State) (new : Word) (d : Desc) (cause : SwitchCause) (retIp : Word) : State :=
  (((s.saveTask cause retIp).switchBusy cause d).linkBack cause d).enterTask new d

/-- `TaskSwitch(new, desc, cause, ret_ip)` (R110). -/
def State.taskSwitch (s : State) (new : Word) (d : Desc) (cause : SwitchCause) (retIp : Word) : Attempt :=
  if d.limit < tssMinLimit then .error (failing s (.tssTooSmall new))
  else
    let u := s.leaveTask new d cause retIp
    let t := u.readTss d.base
    (u.loadTask cause t).loadTaskSegments t

/-! ### Taking an interrupt or exception -/

/-- The kinds of event (R88). -/
inductive EventKind where
  | software
  | external
  | exception
  deriving DecidableEq, Repr

/-- The descriptor bytes at the IDT entry of a vector (R43). -/
def State.idtEntry (s : State) (v : Byte) : Desc := s.descAt (s.idtr.base + v.setWidth 24 * 8#24)

/-- `IdtLookup(v, kind)` (R99, R100), its tests in the order listed. -/
def State.idtLookup (s : State) (v : Byte) (kind : EventKind) : Except Failure Desc :=
  let g := s.idtEntry v
  if s.idtr.limit.toNat < 8 * v.toNat + 7 then .error (failing s (.vectorBeyondIdtLimit v))
  else if !g.isIdtGate then .error (failing s (.idtEntryNotGate v))
  else if decide (kind = .software) && decide (arDpl g.ar < s.cpl) then .error (failing s (.gateDplBelowCpl v))
  else if !arPresent g.ar then .error (failing s (.gateNotPresent v))
  else .ok g

/-- How a gate is entered once its checks have passed (R101): on the stack in use, or on the stack the TSS
gives for an inner level. -/
inductive GateEntry where
  | same (sel : Word) (d : Desc) (off : Word)
  | inner (sel : Word) (d : Desc) (off : Word) (newSs newSp : Word) (e : Desc)
  deriving DecidableEq, Repr

/-- How many words delivery pushes besides an error code, and the error code's one (R107). -/
def frameWords (base : Nat) (err : Option Word) : Nat :=
  match err with
  | none => base
  | some _ => base + 1

/-- The checks of `SameLevel` (R104). -/
def State.checkSame (s : State) (sel : Word) (d : Desc) (off : Word) (err : Option Word) : Except Failure GateEntry :=
  if !frameFits s.ss s.regs.sp (frameWords 3 err) then .error (failing s .stackLimit)
  else if d.limit < off then .error (failing s .ipBeyondLimit)
  else .ok (.same sel d off)

/-- The address of SPk in the current TSS; SSk is the next word (R52). -/
def State.innerStackAddr (s : State) (k : Level) : Addr := s.tr.base + 2#24 + 4#24 * k.setWidth 24

/-- The checks of `InnerLevel` (R105), in the order listed. -/
def State.checkInner (s : State) (sel : Word) (d : Desc) (off : Word) (err : Option Word) : Except Failure GateEntry :=
  let k := arDpl d.ar
  let newSp := s.read16 (s.innerStackAddr k)
  let newSs := s.read16 (s.innerStackAddr k + 2#24)
  if s.tr.limit.toNat < 4 + 4 * k.toNat + 1 then .error (failing s (.tssTooSmall s.tr.sel))
  else if selNull newSs then .error (failing s .innerStackNull)
  else
    match s.readDesc newSs with
    | none => .error (failing s (.innerStackBeyondTable newSs))
    | some e =>
      if selRpl newSs ≠ k then .error (failing s (.innerStackRplMismatch newSs))
      else if arDpl e.ar ≠ k then .error (failing s (.innerStackDplMismatch newSs))
      else if !arWritable e.ar then .error (failing s (.innerStackNotWritable newSs))
      else if !arPresent e.ar then .error (failing s (.innerStackNotPresent newSs))
      else if !frameFits (e.toSegReg newSs) newSp (frameWords 5 err) then .error (failing s .stackLimit)
      else if d.limit < off then .error (failing s .ipBeyondLimit)
      else .ok (.inner sel d off newSs newSp e)

/-- The checks of `GatePath` (R101, R102, R103), all made before the first write (R98). -/
def State.checkGate (s : State) (g : Desc) (err : Option Word) : Except Failure GateEntry :=
  let sel := g.gateSelector
  if selNull sel then .error (failing s .nullSelector)
  else
    match s.readDesc sel with
    | none => .error (failing s (.selectorBeyondTable sel))
    | some d =>
      if !arIsCode d.ar then .error (failing s (.notCodeSegment sel))
      else if !arPresent d.ar then .error (failing s (.segmentNotPresent sel))
      else if !arConforming d.ar && decide (arDpl d.ar < s.cpl) then s.checkInner sel d g.gateOffset err
      else if arCodeFits d.ar s.cpl then s.checkSame sel d g.gateOffset err
      else .error (failing s (.targetDplAboveCpl sel))

/-- The error code's push, if there is one (R104, R105, R107). -/
def State.pushErr (s : State) (err : Option Word) : State :=
  match err with
  | none => s
  | some e => s.pushWord e

/-- The first instruction of a handler: CS with the level as its RPL, IP, CPL, the error code, the flags
(R104, R105, R106). -/
def State.enterHandler (s : State) (sel : Word) (d : Desc) (off : Word) (k : Level) (err : Option Word)
    (clear : Bool) : State :=
  ((((s.loadSeg .cs (selWithRpl sel k) d).setIp off).setCpl k).pushErr err).setFlags (handlerFlags clear s.flagWord)

/-- The writes of `SameLevel` (R104) and `InnerLevel` (R105). -/
def State.enterGate (s : State) (entry : GateEntry) (retIp : Word) (err : Option Word) (clear : Bool) : State :=
  match entry with
  | .same sel d off =>
    (s.pushWords [s.flagWord, s.cs.sel, retIp]).enterHandler sel d off s.cpl err clear
  | .inner sel d off newSs newSp e =>
    (((s.loadSeg .ss newSs e).setSp newSp).pushWords [s.ss.sel, s.regs.sp, s.flagWord, s.cs.sel, retIp]).enterHandler
      sel d off (arDpl d.ar) err clear

/-- `GatePath` (R101). -/
def State.gatePath (s : State) (g : Desc) (retIp : Word) (err : Option Word) (clear : Bool) : Attempt :=
  match s.checkGate g err with
  | .error f => .error f
  | .ok entry => .ok (s.enterGate entry retIp err clear)

/-- `Push16` with its own limit test (R54). -/
def State.push16 (s : State) (v : Word) : Attempt :=
  if segWriteOk s.ss (s.regs.sp - 2#16) 2 then .ok (s.pushWord v) else .error (failing s .stackLimit)

/-- The error code on the incoming task's stack (R109). -/
def State.pushTaskErr (s : State) (err : Option Word) : Attempt :=
  match err with
  | none => .ok s
  | some e => s.push16 e

/-- `TaskGatePath` (R109). -/
def State.taskGatePath (s : State) (g : Desc) (retIp : Word) (err : Option Word) : Attempt :=
  let tsel := g.gateSelector
  if selTi tsel then .error (failing s (.tssSelectorNotGlobal tsel))
  else
    match s.readDesc tsel with
    | none => .error (failingAlt s (.selectorBeyondTable tsel) true)
    | some t =>
      if !t.isAvailableTss then .error (failing s (.tssNotAvailable tsel))
      else if !arPresent t.ar then .error (failing s (.tssNotPresent tsel))
      else
        match s.taskSwitch tsel t .nest retIp with
        | .error f => .error f
        | .ok u => u.pushTaskErr err

/-- TAKING AN INTERRUPT OR EXCEPTION: `Deliver(v, kind, ret_ip, err)` (R98), the one procedure by which every
interrupt and exception enters its handler. -/
def State.deliver (s : State) (v : Byte) (kind : EventKind) (retIp : Word) (err : Option Word) : Attempt :=
  match s.idtLookup v kind with
  | .error f => .error f
  | .ok g =>
    if g.isTaskGate then s.taskGatePath g retIp err
    else s.gatePath g retIp err g.isInterruptGate

/-! ### Returning from an interrupt -/

/-- A word of the stack, `i` bytes above SP (R54, R75). -/
def State.stackWord (s : State) (i : Word) : Word := s.read16 (s.ss.phys (s.regs.sp + i))

/-- The flag word after an IRET at the present level (R79). -/
def State.returnFlags (s : State) (img : Word) : Word :=
  filterFlags s.params.iretIoplFilter s.cpl s.flagWord img

/-- The checks on the return CS for a return to level `k`, the one on IP apart (R77, R78). -/
def State.checkReturnCs (s : State) (retCs : Word) (k : Level) : Except Failure Desc :=
  if selNull retCs then .error (failing s .nullSelector)
  else
    match s.readDesc retCs with
    | none => .error (failing s (.selectorBeyondTable retCs))
    | some d =>
      if !arIsCode d.ar then .error (failing s (.notCodeSegment retCs))
      else if !arCodeFits d.ar k then .error (failing s (.returnDplMismatch retCs))
      else if !arPresent d.ar then .error (failing s (.segmentNotPresent retCs))
      else .ok d

/-- The checks on the return SS for a return to the outer level `k` (R78). -/
def State.checkReturnSs (s : State) (retSs : Word) (k : Level) : Except Failure Desc :=
  if selNull retSs then .error (failing s .nullSelector)
  else
    match s.readDesc retSs with
    | none => .error (failing s (.selectorBeyondTable retSs))
    | some e =>
      if selRpl retSs ≠ k then .error (failing s (.stackSelectorRplMismatch retSs))
      else if !arWritable e.ar then .error (failing s (.notWritableData retSs))
      else if arDpl e.ar ≠ k then .error (failing s (.stackDplMismatch retSs))
      else if !arPresent e.ar then .error (failing s (.stackNotPresent retSs))
      else .ok e

/-- `ReturnSameLevel` (R77). -/
def State.returnSameLevel (s : State) (retIp retCs img : Word) : Attempt :=
  match s.checkReturnCs retCs s.cpl with
  | .error f => .error f
  | .ok d =>
    if d.limit < retIp then .error (failing s .ipBeyondLimit)
    else .ok ((((s.loadSeg .cs retCs d).setIp retIp).setFlags (s.returnFlags img)).setSp (s.regs.sp + 6#16))

/-- The clean-up of a data-segment register after a return to level `k` (R78, D29): a data segment or a
non-conforming code segment with DPL < k is made null. -/
def cleanDataSeg (k : Level) (g : SegReg) : SegReg :=
  if !selNull g.sel && (arIsData g.ar || (arIsCode g.ar && !arConforming g.ar)) && decide (arDpl g.ar < k) then
    g.asNull 0x0000#16
  else g

/-- The writes of a return to an outer level once its checks have passed (R78). -/
def State.leaveLevel (s : State) (retIp retCs img retSp retSs : Word) (d e : Desc) : State :=
  (((((s.loadSeg .cs retCs d).setIp retIp).setFlags (s.returnFlags img)).loadSeg .ss retSs e).setSp retSp).setCpl
    (selRpl retCs)

/-- The clean-up of DS and ES after a return to level `k` (R78). -/
def State.cleanData (s : State) (k : Level) : State :=
  (s.setSeg .es (cleanDataSeg k s.es)).setSeg .ds (cleanDataSeg k s.ds)

/-- `ReturnOuterLevel` (R78). -/
def State.returnOuterLevel (s : State) (retIp retCs img : Word) : Attempt :=
  if !(segReadOk s.ss (s.regs.sp + 6#16) 2 && segReadOk s.ss (s.regs.sp + 8#16) 2) then .error (failing s .stackLimit)
  else
    match s.checkReturnCs retCs (selRpl retCs) with
    | .error f => .error f
    | .ok d =>
      match s.checkReturnSs (s.stackWord 8#16) (selRpl retCs) with
      | .error f => .error f
      | .ok e =>
        if d.limit < retIp then .error (failing s .ipBeyondLimit)
        else .ok ((s.leaveLevel retIp retCs img (s.stackWord 6#16) (s.stackWord 8#16) d e).cleanData (selRpl retCs))

/-- `TaskReturn` (R80). -/
def State.taskReturn (s : State) : Attempt :=
  let link := s.read16 s.tr.base
  if selTi link then .error (failing s (.tssSelectorNotGlobal link))
  else
    match s.readDesc link with
    | none => .error (failingAlt s (.selectorBeyondTable link) true)
    | some t =>
      if !t.isBusyTss then .error (failing s (.tssNotBusy link))
      else if !arPresent t.ar then .error (failing s (.tssNotPresent link))
      else s.taskSwitch link t .iret (s.ip + 1#16)

/-- IRET with NT = 0 (R75): the return by the frame on the stack. -/
def State.stackReturn (s : State) : Attempt :=
  if !(segReadOk s.ss s.regs.sp 2 && segReadOk s.ss (s.regs.sp + 2#16) 2 && segReadOk s.ss (s.regs.sp + 4#16) 2) then
    .error (failing s .stackLimit)
  else
    let retCs := s.stackWord 2#16
    if selRpl retCs < s.cpl then .error (failing s (.returnToInnerLevel retCs))
    else if selRpl retCs = s.cpl then s.returnSameLevel (s.stackWord 0#16) retCs (s.stackWord 4#16)
    else s.returnOuterLevel (s.stackWord 0#16) retCs (s.stackWord 4#16)

/-- The NMI input re-opened (R81). -/
def State.endNmiService (s : State) : State := { s with nmiInService := false }

/-- THE RETURN FROM AN INTERRUPT OR EXCEPTION: IRET (R75), which re-opens the NMI input once it completes (R81). -/
def State.returnFromInterrupt (s : State) : Attempt :=
  match (if flagNt s.flags then s.taskReturn else s.stackReturn) with
  | .error f => .error f
  | .ok u => .ok u.endNmiService

/-! ### What becomes of a failed check -/

/-- The exception the real 80286 raises for a failed check (R115, third column; PRESUMED, log 9). -/
def Failure.vector (f : Failure) : Byte :=
  match f.reason with
  | .vectorBeyondIdtLimit _ => 13#8
  | .idtEntryNotGate _ => 13#8
  | .gateDplBelowCpl _ => 13#8
  | .gateNotPresent _ => 11#8
  | .nullSelector => 13#8
  | .selectorBeyondTable _ => if f.alt then 10#8 else 13#8
  | .notCodeSegment _ => 13#8
  | .segmentNotPresent _ => 11#8
  | .targetDplAboveCpl _ => 13#8
  | .tssTooSmall _ => 10#8
  | .innerStackNull => 10#8
  | .innerStackBeyondTable _ => 10#8
  | .innerStackRplMismatch _ => 10#8
  | .innerStackDplMismatch _ => 10#8
  | .innerStackNotWritable _ => 10#8
  | .innerStackNotPresent _ => 12#8
  | .stackLimit => 12#8
  | .ipBeyondLimit => 13#8
  | .tssSelectorNotGlobal _ => 10#8
  | .tssNotAvailable _ => 10#8
  | .tssNotBusy _ => 10#8
  | .tssNotPresent _ => 11#8
  | .incomingLdtInvalid _ => if f.alt then 11#8 else 10#8
  | .incomingCsInvalid _ => if f.alt then 11#8 else 10#8
  | .incomingSsInvalid _ => if f.alt then 12#8 else 10#8
  | .incomingDataSegInvalid _ => if f.alt then 11#8 else 10#8
  | .returnToInnerLevel _ => 13#8
  | .returnDplMismatch _ => 13#8
  | .stackSelectorRplMismatch _ => 13#8
  | .notWritableData _ => 13#8
  | .stackDplMismatch _ => 13#8
  | .stackNotPresent _ => 11#8
  | .segmentLimit => 13#8
  | .fetchBeyondLimit _ => 13#8
  | .privilegedInstruction => 13#8
  | .ioPrivilege => 13#8
  | .invalidOpcode => 6#8
  | .shutdown => 8#8

/-- An error code that names a vector: 8v + 2 (R107, R115). -/
def vectorCode (v : Byte) : Word := v.setWidth 16 * 8#16 + 2#16

/-- An error code that names a selector: bits 15:2 of it (R107, R115). -/
def selectorCode (sel : Word) : Word := sel &&& 0xFFFC#16

/-- The error code of a failed check without its EXT bit (R115, last column; PRESUMED, log 9). -/
def Failure.baseCode (f : Failure) : Option Word :=
  match f.reason with
  | .vectorBeyondIdtLimit v => some (vectorCode v)
  | .idtEntryNotGate v => some (vectorCode v)
  | .gateDplBelowCpl v => some (vectorCode v)
  | .gateNotPresent v => some (vectorCode v)
  | .nullSelector => some 0#16
  | .selectorBeyondTable sel => some (selectorCode sel)
  | .notCodeSegment sel => some (selectorCode sel)
  | .segmentNotPresent sel => some (selectorCode sel)
  | .targetDplAboveCpl sel => some (selectorCode sel)
  | .tssTooSmall sel => some (selectorCode sel)
  | .innerStackNull => some 0#16
  | .innerStackBeyondTable sel => some (selectorCode sel)
  | .innerStackRplMismatch sel => some (selectorCode sel)
  | .innerStackDplMismatch sel => some (selectorCode sel)
  | .innerStackNotWritable sel => some (selectorCode sel)
  | .innerStackNotPresent sel => some (selectorCode sel)
  | .stackLimit => some 0#16
  | .ipBeyondLimit => some 0#16
  | .tssSelectorNotGlobal sel => some (selectorCode sel)
  | .tssNotAvailable sel => some (selectorCode sel)
  | .tssNotBusy sel => some (selectorCode sel)
  | .tssNotPresent sel => some (selectorCode sel)
  | .incomingLdtInvalid sel => some (selectorCode sel)
  | .incomingCsInvalid sel => some (selectorCode sel)
  | .incomingSsInvalid sel => some (selectorCode sel)
  | .incomingDataSegInvalid sel => some (selectorCode sel)
  | .returnToInnerLevel sel => some (selectorCode sel)
  | .returnDplMismatch sel => some (selectorCode sel)
  | .stackSelectorRplMismatch sel => some (selectorCode sel)
  | .notWritableData sel => some (selectorCode sel)
  | .stackDplMismatch sel => some (selectorCode sel)
  | .stackNotPresent sel => some (selectorCode sel)
  | .segmentLimit => some 0#16
  | .fetchBeyondLimit _ => some 0#16
  | .privilegedInstruction => some 0#16
  | .ioPrivilege => some 0#16
  | .invalidOpcode => none
  | .shutdown => none

/-- Whether the EXT bit of R115 (`e`) takes part in the error code of a reason: not where the table gives a
code without it. -/
def Failure.hasExt (f : Failure) : Bool :=
  match f.reason with
  | .gateDplBelowCpl _ => false
  | .ipBeyondLimit => false
  | .tssNotBusy _ => false
  | .returnToInnerLevel _ => false
  | .returnDplMismatch _ => false
  | .stackSelectorRplMismatch _ => false
  | .notWritableData _ => false
  | .stackDplMismatch _ => false
  | .stackNotPresent _ => false
  | .segmentLimit => false
  | .fetchBeyondLimit _ => false
  | .privilegedInstruction => false
  | .ioPrivilege => false
  | _ => true

/-- The error code of a failed check (R107, R115): `ext` says that the event being delivered was an
external interrupt or an exception. -/
def Failure.errorCode (f : Failure) (ext : Bool) : Option Word :=
  f.baseCode.map fun c => if ext && f.hasExt then c ||| 0x0001#16 else c

/-- A failed check delivered as an exception (R114 under `DELIVER_FAULTS`): the exception of R115 with the
IP of the state the failure left; if that fails, the double fault, exception 8 with error code 0; if that
fails, shutdown. -/
def Failure.deliverException (f : Failure) (ext : Bool) : Outcome :=
  match f.left.deliver f.vector .exception f.left.ip (f.errorCode ext) with
  | .ok u => .next u
  | .error g =>
    match g.left.deliver 8#8 .exception g.left.ip (some 0#16) with
    | .ok u => .next u
    | .error _ => .fault .shutdown

/-- The outcome of a procedure that may fail (R9, R114): its state, or its fault, which `DELIVER_FAULTS`
turns into an exception. -/
def settle (ext : Bool) (r : Attempt) : Outcome :=
  match r with
  | .ok u => .next u
  | .error f => if f.left.params.deliverFaults then f.deliverException ext else .fault f.reason

end Sys2Proof.Machine
end

