-- ==== Sys2Proof/Machine/Launch.lean ====
section
/-! DEFINITION. The launch state (`70_reset_and_hazards.md` R129): the numbered conditions and the refusal
of a state that breaks one. Condition 9 forbids nothing (the caller may state other values) and has no test
(log 12). -/

namespace Sys2Proof.Machine

/-- Condition 2's demand on an access byte: a present code segment whose DPL suits CPL. -/
def codeHeld (ar : Byte) (cpl : Level) : Bool := arPresent ar && arIsCode ar && arCodeFits ar cpl

/-- Condition 3's demand on an access byte: a present writable data segment with DPL = CPL. -/
def stackHeld (ar : Byte) (cpl : Level) : Bool := arPresent ar && arWritable ar && arDpl ar == cpl

/-- Condition 4's demand on DS and ES: the null selector, or a present segment readable at CPL (log 12). -/
def dataHeld (g : SegReg) (cpl : Level) : Bool :=
  selNull g.sel || (arPresent g.ar && arReadable g.ar && (arConforming g.ar || decide (cpl ≤ arDpl g.ar)))

/-- Condition 5 for one register: the cache is what `LoadSeg` makes of the descriptor in memory. -/
def State.cacheAgrees (s : State) (g : SegReg) : Bool :=
  match s.readDesc g.sel with
  | none => false
  | some d => g == d.toSegReg g.sel

/-- Condition 1: protected mode. -/
def State.launch1 (s : State) : Bool := s.msw.getLsbD 0

/-- Condition 2: CS, CPL and IP. -/
def State.launch2 (s : State) : Bool :=
  codeHeld s.cs.ar s.cpl && selRpl s.cs.sel == s.cpl && decide (s.ip ≤ s.cs.limit)

/-- Condition 3: SS. -/
def State.launch3 (s : State) : Bool := stackHeld s.ss.ar s.cpl && selRpl s.ss.sel == s.cpl

/-- Condition 4: DS and ES. -/
def State.launch4 (s : State) : Bool := dataHeld s.ds s.cpl && dataHeld s.es s.cpl

/-- Condition 5: the caches agree with memory; a null DS or ES names no descriptor. -/
def State.launch5 (s : State) : Bool :=
  s.cacheAgrees s.cs && s.cacheAgrees s.ss && (selNull s.ds.sel || s.cacheAgrees s.ds) &&
    (selNull s.es.sel || s.cacheAgrees s.es)

/-- Condition 6: TR names, through the GDT, a present busy TSS of at least 44 bytes, and caches it. -/
def State.launch6 (s : State) : Bool :=
  !selTi s.tr.sel &&
    match s.readDesc s.tr.sel with
    | none => false
    | some d => d.isBusyTss && arPresent d.ar && decide (tssMinLimit ≤ d.limit) && s.tr == d.toSysSegReg s.tr.sel

/-- Condition 7: LDTR is null, or names through the GDT a present LDT and caches it. -/
def State.launch7 (s : State) : Bool :=
  selNull s.ldtr.sel ||
    (!selTi s.ldtr.sel &&
      match s.readDesc s.ldtr.sel with
      | none => false
      | some d => d.isLdt && arPresent d.ar && s.ldtr == d.toSysSegReg s.ldtr.sel)

/-- Condition 8: the fixed bits of the flag word, and TF = 0. -/
def State.launch8 (s : State) : Bool := fixFlags s.flags == s.flags && !flagTf s.flags

/-- The first condition of R129 that a state breaks, if any. -/
def State.brokenCondition (s : State) : Option Nat :=
  if !s.launch1 then some 1
  else if !s.launch2 then some 2
  else if !s.launch3 then some 3
  else if !s.launch4 then some 4
  else if !s.launch5 then some 5
  else if !s.launch6 then some 6
  else if !s.launch7 then some 7
  else if !s.launch8 then some 8
  else none

/-- The state with its launch accepted (R129; log 12). -/
def State.launch (s : State) : State := { s with launched := true }

/-- What may stand before a boundary: a state not yet launched must meet R129 and is then launched; a flag
word with TF = 1 ends the run (R126). -/
def State.accept (s : State) : Except Refusal State :=
  if s.launched then
    if flagTf s.flags then .error .notInScopeTf else .ok s
  else
    match s.brokenCondition with
    | some n => .error (.badLaunchState n)
    | none => .ok s.launch

end Sys2Proof.Machine
end

