-- ==== Sys2Proof/Machine/Boundary.lean ====
section
/-! DEFINITION. The instruction boundary (`60_exceptions.md` R93 to R97): what arrives from outside, which
interrupt is recognised, the acknowledge sequence, and the fetch of an instruction (`10_state.md` R16). -/

namespace Sys2Proof.Machine

/-- A boundary at which nothing arrives and INT is not held back (log 7). -/
def BoundaryInput.quiet : BoundaryInput := { nmi := false, ir := 0x00#8, holdIntr := false, serve := none }

/-- What the outside does at the coming boundary. -/
def State.boundaryInput (s : State) : BoundaryInput :=
  match s.inputs with
  | [] => .quiet
  | b :: _ => b

/-- Requests land: an NMI request sets `nmi_pending` (R28, R96), rising edges set the 8259's edge flip-flops
(R117). -/
def State.arrive (s : State) : State :=
  { s with
    nmiPending := s.nmiPending || s.boundaryInput.nmi
    pic := s.pic.request s.boundaryInput.ir
    inputs := s.inputs.tail }

/-- The level of INTR (R29, R117): it may be 1 only if some edge flip-flop is set. -/
def intrLevel (b : BoundaryInput) (p : Pic) : Bool := p.edge != 0x00#8 && !b.holdIntr

/-- The input the 8259 serves (R117, U8): any that requests. The outside's choice if it requests, else the
free choice. -/
def servedInput (b : BoundaryInput) (p : Pic) (choice : Nat) : Fin 8 :=
  match b.serve with
  | some n => if p.requests n then n else pickRequesting choice p.requesting
  | none => pickRequesting choice p.requesting

/-- Whether the served input was the model's free choice. -/
def servedFreely (b : BoundaryInput) (p : Pic) : Bool :=
  match b.serve with
  | some n => !p.requests n
  | none => true

/-- `Acknowledge()` (R95): both INTA pulses, as one indivisible step (D20). The state after them and the
vector read at the second. -/
def State.acknowledge (s : State) (b : BoundaryInput) : Byte × State :=
  let n := servedInput b s.pic (Config.freeServed s.freeUsed)
  (s.pic.vector n,
   { s with
     pic := s.pic.firstInta n
     freeUsed := if servedFreely b s.pic then s.freeUsed + 1 else s.freeUsed })

/-- The NMI's two bits as its delivery sets them (R93, R96). -/
def State.beginNmiService (s : State) : State := { s with nmiPending := false, nmiInService := true }

/-- What a boundary does (R93). -/
inductive Recognised where
  /-- The NMI is delivered (R96). -/
  | nmi (s : State)
  /-- INTR is accepted and acknowledged with this vector (R95). -/
  | intr (v : Byte) (s : State)
  /-- The instruction at CS:IP executes. -/
  | run (s : State)
  deriving DecidableEq, Repr

/-- Recognition at an instruction boundary (R93, R94): NMI, then INTR if IF = 1, then the instruction. -/
def State.recognise (s : State) : Recognised :=
  let b := s.boundaryInput
  let t := s.arrive
  if t.nmiPending && !t.nmiInService then .nmi t.beginNmiService
  else if intrLevel b t.pic && flagIf t.flags then
    let va := t.acknowledge b
    .intr va.1 va.2
  else .run t

/-- The delivery of an external interrupt (R93): the saved IP is that of the instruction not yet begun. -/
def State.deliverExternal (s : State) (v : Byte) : Outcome :=
  settle true (s.deliver v .external s.ip none)

/-- At most `n` bytes of the code segment from an offset on: those at offsets not above the limit, so that
the bytes stop at the limit and at FFFFH (R16, D26). -/
def State.codeBytes (s : State) : Nat → Nat → List Byte
  | 0, _ => []
  | n + 1, off =>
    if off ≤ s.cs.limit.toNat then s.read8 (s.cs.base + BitVec.ofNat 24 off) :: s.codeBytes n (off + 1) else []

/-- What the decoder makes of the bytes at CS:IP, read at this moment (R15, R60, D5). -/
def State.fetch (s : State) : Decoded := decode (s.codeBytes maxLength s.ip.toNat)

/-- The outcome where the bytes at CS:IP are no instruction in scope (R16, R68). -/
def State.noInstruction (s : State) : Decoded → Outcome
  | .instr _ => .refused (.notInScope 0x00#8)
  | .invalidOpcode => settle false (.error (failing s .invalidOpcode))
  | .notInScope b => .refused (.notInScope b)
  | .truncated => settle false (.error (failing s (.fetchBeyondLimit s.ip)))

/-- Bytes stored from a physical address on. -/
def State.storeBytes (s : State) (a : Addr) : List Byte → State
  | [] => s
  | b :: bs => (s.write8 a b).storeBytes (a + 1#24) bs

/-- A state made ready to fetch at its next step (log 17): launched, in protected mode, TF = 0 and nothing
to recognise. -/
def State.readyToFetch (s : State) : State :=
  { s with
    launched := true
    msw := s.msw ||| 0x0001#16
    flags := clearTf s.flags
    nmiPending := false
    pic := { s.pic with edge := 0x00#8 }
    inputs := [] }

end Sys2Proof.Machine
end

