-- ==== Sys2Proof/Machine/InterruptReturn.lean ====
section
/-! DEFINITION. IRET (`41_iret.md` R75 to R81). -/

namespace Sys2Proof.Machine

/-- `IRET` (R75). -/
def execIret (s : State) : Outcome := settle false s.returnFromInterrupt

end Sys2Proof.Machine
end

