-- ==== Sys2Proof/Machine/MovOut.lean ====
section
/-! DEFINITION. The instructions of the source's listing (`43_mov_out.md` R84 to R87). -/

namespace Sys2Proof.Machine

/-- `MOV r8,imm8` (R84). -/
def execMovR8Imm8 (r : Reg8) (v : Byte) (s : State) : Outcome :=
  .next { s with regs := s.regs.write8 r v, ip := s.ip + 2#16 }

/-- `MOV r16,imm16` (R85). -/
def execMovR16Imm16 (r : Reg16) (v : Word) (s : State) : Outcome :=
  .next { s with regs := s.regs.write r v, ip := s.ip + 3#16 }

/-- `OUT DX,AL` (R86, D32). -/
def execOutDxAl (s : State) : Outcome :=
  if flagIopl s.flags < s.cpl then settle false (.error (failing s .ioPrivilege))
  else .next { s.ioWrite s.regs.dx (s.regs.read8 .al) with ip := s.ip + 1#16 }

end Sys2Proof.Machine
end

