-- ==== Sys2Proof/Machine/SoftInterrupt.lean ====
section
/-! DEFINITION. The software interrupt instructions (`40_int.md` R71 to R74). A task gate in the IDT makes
the same instructions switch tasks (R74); that is `State.deliver`'s. -/

namespace Sys2Proof.Machine

/-- `INT n` (R71): vector n, kind Software, returning two bytes on. -/
def execIntN (n : Byte) (s : State) : Outcome :=
  settle false (s.deliver n .software (s.ip + 2#16) none)

/-- `INT 3`, the one-byte form (R72): vector 3, returning one byte on. -/
def execInt3 (s : State) : Outcome :=
  settle false (s.deliver 3#8 .software (s.ip + 1#16) none)

/-- `INTO` (R73): vector 4 if OF = 1, else a one-byte no-op. -/
def execInto (s : State) : Outcome :=
  if flagOf s.flags then settle false (s.deliver 4#8 .software (s.ip + 1#16) none)
  else .next { s with ip := s.ip + 1#16 }

end Sys2Proof.Machine
end

