-- ==== Sys2Proof/Machine/TableRegister.lean ====
section
/-! DEFINITION. LIDT (`42_lidt.md` R82, R83). -/

namespace Sys2Proof.Machine

/-- `LIDT m` (R82): the limit from the first word of the operand, the base from the next three bytes; the
sixth byte is read and not used. -/
def execLidt (m : MemOperand) (s : State) : Outcome :=
  let g := s.seg (operandSegment m)
  let ea := effectiveOffset s.regs m
  if s.cpl ≠ 0#2 then settle false (.error (failing s .privilegedInstruction))
  else if decide (0xFFFA#16 < ea) || !(segReadOk g ea 2 && segReadOk g (ea + 2#16) 2 && segReadOk g (ea + 4#16) 2) then
    settle false (.error (failing s (accessFault (operandSegment m))))
  else
    .next { s with
      idtr := { base := addrOf (lowByte (s.read16 (g.phys (ea + 4#16)))) (s.read16 (g.phys (ea + 2#16)))
                limit := s.read16 (g.phys ea) }
      ip := s.ip + BitVec.ofNat 16 (Instr.lidt m).length }

end Sys2Proof.Machine
end

