-- ==== Sys2Proof/Machine/Step.lean ====
section
/-! DEFINITION. One step of the machine (`70_reset_and_hazards.md` R140): one complete delivery or one
instruction. -/

namespace Sys2Proof.Machine

/-- One instruction: fetched at CS:IP, decoded and executed. -/
def State.runInstruction (s : State) : Outcome :=
  match s.fetch with
  | .instr i => exec i s
  | d => s.noInstruction d

/-- One instruction boundary (R93). -/
def State.boundary (s : State) : Outcome :=
  match s.recognise with
  | .nmi t => t.deliverExternal 2#8
  | .intr v t => t.deliverExternal v
  | .run t => t.runInstruction

/-- One step: the launch state and TF are looked at first (R126, R129), then the boundary. -/
def step (s : State) : Host.Outcome State Fault Refusal :=
  match s.accept with
  | .error r => .refused r
  | .ok t => t.boundary

/-- The state whose next step fetches and runs the instruction that the number `w` of the opcode table
stands for: its bytes, padded with zeros, stand at CS:IP, and the launch that a caller of the model makes
(R129) is taken as made (log 17). -/
def State.withFetchWord (s : State) (nbits w : Nat) : State :=
  s.readyToFetch.storeBytes (s.cs.base + s.ip.setWidth 24) (tableBytes nbits w)

end Sys2Proof.Machine
end

