-- ==== Sys2Proof/Safety.lean ====
section
/-! DEFINITION. The terms in which claims about the machine are stated: which software event an instruction
raises, what is due at a boundary, which bytes a store touches, and the invariants of `10_state.md` R18, R22
and `70_reset_and_hazards.md` R129. -/

namespace Sys2Proof.Machine

/-- Whether an outcome is a next state. -/
def completes : Outcome → Bool
  | .next _ => true
  | .fault _ => false
  | .refused _ => false

/-- The software interrupt an instruction raises in a state, if any: its vector and the IP it saves
(`40_int.md` R71, R72, R73). -/
def softwareEvent (s : State) : Instr → Option (Byte × Word)
  | .intN n => some (n, s.ip + 2#16)
  | .int3 => some (3#8, s.ip + 1#16)
  | .into => if flagOf s.flags then some (4#8, s.ip + 1#16) else none
  | .iret => none
  | .lidt _ => none
  | .movR8Imm8 _ _ => none
  | .movR16Imm16 _ _ => none
  | .outDxAl => none

/-- An NMI is delivered at the coming boundary (R93, R96). -/
def State.nmiDue (s : State) : Bool := (s.nmiPending || s.boundaryInput.nmi) && !s.nmiInService

/-- INTR is accepted at the coming boundary if no NMI is due (R93). -/
def State.intrDue (s : State) : Bool :=
  intrLevel s.boundaryInput (s.pic.request s.boundaryInput.ir) && flagIf s.flags

/-- A launched state that is not single-stepping: its next step is a boundary (R93, R126). -/
def State.atBoundary (s : State) : Bool := s.launched && !flagTf s.flags

/-- A state at whose next boundary the instruction at CS:IP executes (R93). -/
def State.runsNext (s : State) : Bool := s.atBoundary && !s.nmiDue && !s.intrDue

/-- The address lies in the `n` bytes from `start` on, modulo 2^24. -/
def within (start : Addr) (n : Nat) (a : Addr) : Prop := (a - start).toNat < n

/-- The address is the access byte that loading the descriptor rewrites, because its accessed bit is 0
(`20_memory.md` R55). -/
def marksAt (d : Desc) (a : Addr) : Prop := arIsAccessed d.ar = false ∧ a = d.addr + 5#24

/-- The address lies in one of the `n` words pushed from offset `sp` of a stack segment down (R54). -/
def inFrame (g : SegReg) (sp : Word) : Nat → Addr → Prop
  | 0, _ => False
  | n + 1, a => within (g.phys (sp - 2#16)) 2 a ∨ inFrame g (sp - 2#16) n a

/-- The words that lie below offset `sp` of a stack segment, the nearest first, are these. -/
def frameHolds (s : State) (g : SegReg) (sp : Word) : List Word → Prop
  | [] => True
  | w :: ws => s.read16 (g.phys (sp - 2#16)) = w ∧ frameHolds s g (sp - 2#16) ws

/-- The memory is in its canonical form. -/
def State.canonical (s : State) : Bool := s.mem.wf

/-- Bits 1, 3, 5 and 15 of the flag word hold their fixed values (R18). -/
def State.flagsFixed (s : State) : Bool := fixFlags s.flags == s.flags

/-- CPL is the RPL of the CS selector (R22). -/
def State.levelAgrees (s : State) : Bool := selRpl s.cs.sel == s.cpl

/-- CS holds a present code segment whose DPL suits CPL, under a selector with RPL = CPL (R129, condition 2
without IP). -/
def State.codeSafe (s : State) : Bool := !selNull s.cs.sel && codeHeld s.cs.ar s.cpl && s.levelAgrees

/-- SS holds a present writable data segment of the current level, under a selector with RPL = CPL (R129,
condition 3). -/
def State.stackSafe (s : State) : Bool :=
  !selNull s.ss.sel && stackHeld s.ss.ar s.cpl && selRpl s.ss.sel == s.cpl

/-- DS and ES hold nothing the current level may not read (R129, condition 4). -/
def State.dataSafe (s : State) : Bool := dataHeld s.ds s.cpl && dataHeld s.es s.cpl

/-- TR names through the GDT a TSS of at least 44 bytes, and LDTR is null or names its table through the GDT
(R129, conditions 6 and 7 without what memory holds). -/
def State.taskSafe (s : State) : Bool :=
  !selNull s.tr.sel && !selTi s.tr.sel && decide (tssMinLimit ≤ s.tr.limit) &&
    (selNull s.ldtr.sel || !selTi s.ldtr.sel)

/-- The protection state of a launched machine that stops at failed checks: protected mode, the fixed flag
bits, and conditions 2 to 4, 6 and 7 of R129 without the one on IP and without what memory holds (log 22). -/
def State.protectionHolds (s : State) : Bool :=
  s.launched && !s.params.deliverFaults && s.msw.getLsbD 0 && s.flagsFixed && s.codeSafe && s.stackSafe &&
    s.dataSafe && s.taskSafe

/-- What neither delivery, nor IRET, nor a task switch touches: the table registers IDTR and GDTR, the
remembered NMI, the 8259, and what the model adds. -/
def keepsSystem (s t : State) : Prop :=
  t.idtr = s.idtr ∧ t.gdtr = s.gdtr ∧ t.nmiPending = s.nmiPending ∧ t.pic = s.pic ∧ t.params = s.params ∧
    t.inputs = s.inputs ∧ t.freeUsed = s.freeUsed ∧ t.launched = s.launched

/-- What only a task switch touches: TR, LDTR and MSW. -/
def keepsTask (s t : State) : Prop := t.tr = s.tr ∧ t.ldtr = s.ldtr ∧ t.msw = s.msw

/-- The IDT entry of a vector may be used by an event of this kind: it lies inside the table, is one of the
three gates, is present, and for a software interrupt its DPL is not below CPL (`60_exceptions.md` R99, R100). -/
def State.gateOpen (s : State) (v : Byte) (k : EventKind) : Bool :=
  decide (8 * v.toNat + 7 ≤ s.idtr.limit.toNat) && (s.idtEntry v).isIdtGate &&
    (decide (k ≠ .software) || decide (s.cpl ≤ arDpl (s.idtEntry v).ar)) && arPresent (s.idtEntry v).ar

/-- The IDT entry of a vector is an interrupt gate or a trap gate. -/
def State.procedureGate (s : State) (v : Byte) : Bool :=
  (s.idtEntry v).isInterruptGate || (s.idtEntry v).isTrapGate

/-- `d` is the present code segment a gate leads to, and the gate's offset lies inside it (R101). -/
def State.handlerAt (s : State) (g d : Desc) : Bool :=
  s.readDesc g.gateSelector == some d && arIsCode d.ar && arPresent d.ar && decide (g.gateOffset ≤ d.limit)

/-- The current TSS gives for level `k` the stack segment with selector `ss` and descriptor `e` and the stack
pointer `sp`, and all checks of R105 on them pass. -/
def State.innerStackAt (s : State) (k : Level) (ss sp : Word) (e : Desc) : Bool :=
  decide (4 + 4 * k.toNat + 1 ≤ s.tr.limit.toNat) && s.read16 (s.tr.base + 2#24 + 4#24 * k.setWidth 24) == sp &&
    s.read16 (s.tr.base + 4#24 + 4#24 * k.setWidth 24) == ss && s.readDesc ss == some e && selRpl ss == k &&
    arDpl e.ar == k && arWritable e.ar && arPresent e.ar

/-- The three words of a return frame at SS:SP may be read (`41_iret.md` R75). -/
def State.frameReadable (s : State) : Bool :=
  segReadOk s.ss s.regs.sp 2 && segReadOk s.ss (s.regs.sp + 2#16) 2 && segReadOk s.ss (s.regs.sp + 4#16) 2

/-- `d` is a present code segment named by the selector, whose DPL suits level `k`, and offset `ip` lies inside
it: the checks on the return CS (R77, R78). -/
def State.returnCodeAt (s : State) (cs ip : Word) (k : Level) (d : Desc) : Bool :=
  s.readDesc cs == some d && arIsCode d.ar && arCodeFits d.ar k && arPresent d.ar && decide (ip ≤ d.limit)

/-- `e` is a present writable data segment of level `k` named by the selector, whose RPL is `k`: the checks on
the return SS (R78). -/
def State.returnStackAt (s : State) (ss : Word) (k : Level) (e : Desc) : Bool :=
  s.readDesc ss == some e && selRpl ss == k && arWritable e.ar && arDpl e.ar == k && arPresent e.ar

/-- `d` is the descriptor of a present TSS of at least 44 bytes that the selector names through the GDT, BUSY
or not as stated (`60_exceptions.md` R109, R110; `41_iret.md` R80). -/
def State.taskAt (s : State) (sel : Word) (busy : Bool) (d : Desc) : Bool :=
  !selTi sel && s.readDesc sel == some d && (if busy then d.isBusyTss else d.isAvailableTss) && arPresent d.ar &&
    decide (tssMinLimit ≤ d.limit)

/-- The physical address of the descriptor a selector names (`20_memory.md` R42). -/
def State.descAddr (s : State) (sel : Word) : Addr :=
  (if selTi sel then s.ldtr.base else s.gdtr.base) + (selOffset sel).setWidth 24

/-! ### Tests in order -/

/-- What the first failing test of a list answers; none if every test passes. -/
def firstFailed {α : Type} : List (Bool × α) → Option α
  | [] => none
  | (passes, answer) :: rest => if passes then firstFailed rest else some answer

/-- `ReadDesc` finds a descriptor for the selector (R42). -/
def State.named (s : State) (sel : Word) : Bool := (s.readDesc sel).isSome

/-- The eight bytes at the place that the selector names (R42). -/
def State.descOf (s : State) (sel : Word) : Desc := s.descAt (s.descAddr sel)

/-- The tests of an entry at the same level, in the order of R104: the words fit, IP lies inside the segment. -/
def State.sameEntryTests (s : State) (d : Desc) (off : Word) (words : Nat) : List (Bool × Fault) :=
  [(frameFits s.ss s.regs.sp words, .stackLimit),
   (decide (off ≤ d.limit), .ipBeyondLimit)]

/-- The tests of an entry at the inner level of the segment `d`, in the order of R105, on the stack that the TSS
gives for that level. -/
def State.innerEntryTests (s : State) (d : Desc) (off : Word) (words : Nat) : List (Bool × Fault) :=
  let k := arDpl d.ar
  let sp := s.read16 (s.tr.base + 2#24 + 4#24 * k.setWidth 24)
  let ss := s.read16 (s.tr.base + 4#24 + 4#24 * k.setWidth 24)
  let e := s.descOf ss
  [(decide (4 + 4 * k.toNat + 1 ≤ s.tr.limit.toNat), .tssTooSmall s.tr.sel),
   (!selNull ss, .innerStackNull),
   (s.named ss, .innerStackBeyondTable ss),
   (selRpl ss == k, .innerStackRplMismatch ss),
   (arDpl e.ar == k, .innerStackDplMismatch ss),
   (arWritable e.ar, .innerStackNotWritable ss),
   (arPresent e.ar, .innerStackNotPresent ss),
   (frameFits (e.toSegReg ss) sp words, .stackLimit),
   (decide (off ≤ d.limit), .ipBeyondLimit)]

/-- The tests on the return CS for a return to level `k`, in the order of R77 and R78, the one on IP apart. -/
def State.returnCodeTests (s : State) (cs : Word) (k : Level) : List (Bool × Fault) :=
  let d := s.descOf cs
  [(!selNull cs, .nullSelector),
   (s.named cs, .selectorBeyondTable cs),
   (arIsCode d.ar, .notCodeSegment cs),
   (arCodeFits d.ar k, .returnDplMismatch cs),
   (arPresent d.ar, .segmentNotPresent cs)]

/-- The tests on the return SS for a return to the outer level `k`, in the order of R78. -/
def State.returnStackTests (s : State) (ss : Word) (k : Level) : List (Bool × Fault) :=
  let e := s.descOf ss
  [(!selNull ss, .nullSelector),
   (s.named ss, .selectorBeyondTable ss),
   (selRpl ss == k, .stackSelectorRplMismatch ss),
   (arWritable e.ar, .notWritableData ss),
   (arDpl e.ar == k, .stackDplMismatch ss),
   (arPresent e.ar, .stackNotPresent ss)]

/-- The tests of a switch to the task that a selector names, up to the point of no return: those of a task gate
(R109) or of IRET's back link (R80), then step 1 of R110. -/
def State.taskTests (s : State) (sel : Word) (cause : SwitchCause) : List (Bool × Fault) :=
  let t := s.descOf sel
  [(!selTi sel, .tssSelectorNotGlobal sel),
   (s.named sel, .selectorBeyondTable sel),
   match cause with
   | .nest => (t.isAvailableTss, .tssNotAvailable sel)
   | .iret => (t.isBusyTss, .tssNotBusy sel),
   (arPresent t.ar, .tssNotPresent sel),
   (decide (0x002B#16 ≤ t.limit), .tssTooSmall sel)]

/-- The tests on a selector for DS or ES of an incoming task at level `k` (R110 step 9): null, or a data segment or
readable code segment with, unless it conforms, a DPL not below level and RPL; and present. The Bool of an answer
says that P = 0 is the only defect. -/
def State.taskDataTests (s : State) (sel : Word) (k : Level) : List (Bool × (Fault × Bool)) :=
  let d := s.descOf sel
  [(selNull sel || (s.named sel && arReadable d.ar &&
      (arConforming d.ar || (decide (k ≤ arDpl d.ar) && decide (selRpl sel ≤ arDpl d.ar)))),
    (.incomingDataSegInvalid sel, false)),
   (selNull sel || arPresent d.ar, (.incomingDataSegInvalid sel, true))]

/-- The states in whose tables steps 8 and 9 of R110 look up LDTR, CS, SS, DS and ES of an incoming task: each with
the LDTR and the accessed bits that the loads before it set. -/
structure TaskStages where
  atLdt : State
  atCs : State
  atSs : State
  atDs : State
  atEs : State

/-- The stages of an incoming task (R110 steps 8 and 9, R55). -/
def State.taskStages (s : State) (img : TssImage) : TaskStages :=
  let ldtr : SysSegReg :=
    if selNull img.ldt then { sel := img.ldt, base := 0#24, limit := 0#16 } else (s.descOf img.ldt).toSysSegReg img.ldt
  let atCs : State := { s with ldtr := ldtr }
  let atSs := atCs.markAccessed (atCs.descOf img.cs)
  let atDs := atSs.markAccessed (atSs.descOf img.ss)
  { atLdt := s, atCs := atCs, atSs := atSs, atDs := atDs
    atEs := if selNull img.ds then atDs else atDs.markAccessed (atDs.descOf img.ds) }

/-- The tests on the segments of an incoming task, in the order of R110 steps 8 to 10, DS before ES (log 21). The Bool
of an answer says that P = 0 is the only defect. -/
def TaskStages.tests (g : TaskStages) (img : TssImage) (ip : Word) : List (Bool × (Fault × Bool)) :=
  let ldt := g.atLdt.descOf img.ldt
  let cs := g.atCs.descOf img.cs
  let ss := g.atSs.descOf img.ss
  let k := selRpl img.cs
  [(selNull img.ldt || (!selTi img.ldt && g.atLdt.named img.ldt && ldt.isLdt), (.incomingLdtInvalid img.ldt, false)),
   (selNull img.ldt || arPresent ldt.ar, (.incomingLdtInvalid img.ldt, true)),
   (g.atCs.named img.cs && arIsCode cs.ar && arCodeFits cs.ar k, (.incomingCsInvalid img.cs, false)),
   (arPresent cs.ar, (.incomingCsInvalid img.cs, true)),
   (g.atSs.named img.ss && selRpl img.ss == k && arWritable ss.ar && arDpl ss.ar == k,
    (.incomingSsInvalid img.ss, false)),
   (arPresent ss.ar, (.incomingSsInvalid img.ss, true))] ++
  g.atDs.taskDataTests img.ds k ++ g.atEs.taskDataTests img.es k ++
  [(decide (ip ≤ cs.limit), (.ipBeyondLimit, false))]

/-- The incoming task has been loaded from the TSS image `img` (R110, steps 7 to 10): its registers, its flag
word, its level and its selectors. -/
def taskLoaded (t : State) (cause : SwitchCause) (img : TssImage) : Prop :=
  t.ip = img.ip ∧ t.regs = img.regs ∧
    t.flags = (match cause with
      | .nest => setNt (fixFlags img.flags)
      | .iret => fixFlags img.flags) ∧
    t.cpl = selRpl img.cs ∧ t.cs.sel = img.cs ∧ t.ss.sel = img.ss ∧ t.ds.sel = img.ds ∧ t.es.sel = img.es ∧
    t.ldtr.sel = img.ldt ∧ t.ip ≤ t.cs.limit

/-- What the memory of `t` may differ in from that of `u` once a task's segments are loaded: the access bytes
of the descriptors of its four segments (R55, R110 step 9). -/
def marksOnly (u t : State) (img : TssImage) : Prop :=
  ∀ a, t.read8 a ≠ u.read8 a → ∃ sel ∈ [img.cs, img.ss, img.ds, img.es], a = t.descAddr sel + 5#24

end Sys2Proof.Machine
end

