-- ==== Sys2Proof/Certificates/Slice0/Obligations.lean ====
section
/-! DEFINITION. The statements for the provers. Each formalises the rule its docstring names; where a
statement rests on a choice of the model, the docstring names the log entry. -/

open Sys2Proof Sys2Proof.Machine

/-! ### Encoding -/

/-- R63, R66, R67: every instruction that has an encoding is read back from it, with every operand, whatever
bytes follow. -/
def Obligations.DecodeReadsEveryEncoding : Prop :=
  ∀ (i : Instr) (rest : List Byte), i.wellFormed = true → decode (encode i ++ rest) = .instr i

/-- R64, R67: bytes that decode to an instruction begin with exactly that instruction's encoding, so that no
instruction has two encodings. -/
def Obligations.DecodedBytesAreTheEncoding : Prop :=
  ∀ (bs : List Byte) (i : Instr), decode bs = .instr i →
    i.wellFormed = true ∧ (encode i).length = i.length ∧ ∃ rest, bs = encode i ++ rest

/-- R63, R67, and the examples of R84, R85, R82: a few encodings written out by hand. -/
def Obligations.SpecWordsDecode : Prop :=
  decode [0xCD#8, 0x40#8] = .instr (.intN 0x40#8) ∧
  decode [0xCC#8] = .instr .int3 ∧
  decode [0xCE#8] = .instr .into ∧
  decode [0xCF#8] = .instr .iret ∧
  decode [0x0F#8, 0x01#8, 0x1F#8] = .instr (.lidt (.based .bx .none)) ∧
  decode [0x0F#8, 0x01#8, 0x1E#8, 0x34#8, 0x12#8] = .instr (.lidt (.direct 0x1234#16)) ∧
  decode [0xB0#8, 0x28#8] = .instr (.movR8Imm8 .al 0x28#8) ∧
  decode [0xBA#8, 0x01#8, 0x04#8] = .instr (.movR16Imm16 .dx 0x0401#16) ∧
  decode [0xEE#8] = .instr .outDxAl

/-- R68: a first byte outside the map, another second byte after 0FH and another opcode extension after
0FH 01H are outside the scope; LIDT with a register operand is an invalid opcode. R68 does not say which byte a
refusal names: that it is the first one, 0FH for a two-byte opcode, is the model's choice (log 15, DEDUCED). -/
def Obligations.BytesOutsideTheMapAreRefused : Prop :=
  (∀ (b : Byte) (rest : List Byte),
    b ≠ 0x0F#8 → b ≠ 0xCC#8 → b ≠ 0xCD#8 → b ≠ 0xCE#8 → b ≠ 0xCF#8 → b ≠ 0xEE#8 →
    b.extractLsb' 4 4 ≠ 0xB#4 → decode (b :: rest) = .notInScope b) ∧
  (∀ (b : Byte) (rest : List Byte), b ≠ 0x01#8 → decode (0x0F#8 :: b :: rest) = .notInScope 0x0F#8) ∧
  (∀ (m : Byte) (rest : List Byte), m.extractLsb' 3 3 ≠ 3#3 →
    decode (0x0F#8 :: 0x01#8 :: m :: rest) = .notInScope 0x0F#8) ∧
  (∀ (m : Byte) (rest : List Byte), m.extractLsb' 3 3 = 3#3 → m.extractLsb' 6 2 = 3#2 →
    decode (0x0F#8 :: 0x01#8 :: m :: rest) = .invalidOpcode)

/-- R66: the effective offset and the default segment of every memory operand, read from the ModRM byte's mod
and rm fields and the two bytes after it. -/
def Obligations.EffectiveAddressFollowsModRM : Prop :=
  ∀ (g : GenRegs) (rm : BitVec 3) (lo hi : Byte),
    let base : Word := match rm.toNat with
      | 0 => g.bx + g.si
      | 1 => g.bx + g.di
      | 2 => g.bp + g.si
      | 3 => g.bp + g.di
      | 4 => g.si
      | 5 => g.di
      | 6 => g.bp
      | _ => g.bx
    let seg : SegName := if rm = 2#3 ∨ rm = 3#3 ∨ rm = 6#3 then .ss else .ds
    (∃ m, decodeOperand 0#2 rm [lo, hi] = some m ∧
      (rm ≠ 6#3 → effectiveOffset g m = base ∧ operandSegment m = seg) ∧
      (rm = 6#3 → effectiveOffset g m = hi ++ lo ∧ operandSegment m = .ds)) ∧
    (∃ m, decodeOperand 1#2 rm [lo, hi] = some m ∧ effectiveOffset g m = base + lo.signExtend 16 ∧
      operandSegment m = seg) ∧
    (∃ m, decodeOperand 2#2 rm [lo, hi] = some m ∧ effectiveOffset g m = base + (hi ++ lo) ∧ operandSegment m = seg)

/-! ### The step -/

/-- R15, R93: at a boundary at which neither NMI nor INTR is taken, the bytes at CS:IP that decode to an
instruction make the step the meaning of that instruction on the state with the boundary's requests recorded;
a state not yet launched must meet R129 and is launched by its first step (log 12). -/
def Obligations.StepRunsDecodedInstruction : Prop :=
  (∀ (s : State) (i : Instr), s.runsNext = true →
    decode (s.codeBytes maxLength s.ip.toNat) = .instr i → step s = exec i s.arrive) ∧
  (∀ (s : State) (i : Instr), s.launched = false → s.brokenCondition = none → s.nmiDue = false → s.intrDue = false →
    decode (s.codeBytes maxLength s.ip.toNat) = .instr i →
    step s = exec i s.launch.arrive)

/-- R16: an instruction executes if its last byte lies at an offset not above CS.limit; otherwise, and where
its bytes would wrap past FFFFH, the step is the fault `FetchBeyondLimit` with IP. -/
def Obligations.InstructionMustLieWithinCodeLimit : Prop :=
  ∀ (s : State) (i : Instr), s.runsNext = true → s.params.deliverFaults = false → i.wellFormed = true →
    (∀ j, j < (encode i).length → s.ip.toNat + j ≤ s.cs.limit.toNat →
      s.read8 (s.cs.base + BitVec.ofNat 24 (s.ip.toNat + j)) = (encode i).getD j 0x00#8) →
    (s.ip.toNat + i.length ≤ s.cs.limit.toNat + 1 → step s = exec i s.arrive) ∧
    (s.cs.limit.toNat + 1 < s.ip.toNat + i.length → step s = .fault (.fetchBeyondLimit s.ip))

/-- R68, R114 with `DELIVER_FAULTS` off: bytes that are no instruction in scope end the run, an invalid opcode
by a fault and the others by a refusal with the first byte (log 15). -/
def Obligations.StepStopsOutsideTheMap : Prop :=
  ∀ (s : State), s.runsNext = true → s.params.deliverFaults = false →
    (∀ b, decode (s.codeBytes maxLength s.ip.toNat) = .notInScope b → step s = .refused (.notInScope b)) ∧
    (decode (s.codeBytes maxLength s.ip.toNat) = .invalidOpcode → step s = .fault .invalidOpcode)

/-- R93, R94, R96: a remembered or arriving NMI is delivered first, whatever IF is and whatever the 8259
requests, with vector 2 and no acknowledge: the 8259 only records its requests. -/
def Obligations.NmiIsDeliveredFirst : Prop :=
  ∀ (s : State), s.atBoundary = true → s.nmiDue = true →
    ∃ t, t = s.arrive.beginNmiService ∧ t.nmiPending = false ∧ t.nmiInService = true ∧
      t.pic = s.pic.request s.boundaryInput.ir ∧ step s = settle true (t.deliver 2#8 .external s.ip none)

/-- R93, R95, R117, R118, R120: where no NMI is due, INTR with IF = 1 serves one requesting input of the 8259:
its flip-flops change as the first INTA pulse says, and the vector of the second pulse is delivered with the IP
of the instruction not yet begun. Which input is served is the outside's choice where it made one; no other
choice is constrained (log 8). -/
def Obligations.AcceptedIntrServesARequest : Prop :=
  ∀ (s : State), s.atBoundary = true → s.nmiDue = false → s.intrDue = true →
    ∃ (n : Fin 8) (f : Nat),
      (s.pic.request s.boundaryInput.ir).edge.getLsbD n.val = true ∧
      (∀ m : Fin 8, s.boundaryInput.serve = some m → (s.pic.request s.boundaryInput.ir).edge.getLsbD m.val = true →
        n = m ∧ f = s.freeUsed) ∧
      step s = settle true
        (({ s.arrive with pic := (s.pic.request s.boundaryInput.ir).firstInta n, freeUsed := f } : State).deliver
          ((s.pic.icw2 &&& 0xF8#8) ||| BitVec.ofNat 8 n.val) .external s.ip none)

/-- R126, R79: a flag word with TF = 1 that has been loaded ends the run. That the refusal is the outcome of the next
step, before anything its boundary might recognise, is the model's reading (log 11, DEDUCED). -/
def Obligations.TrapFlagEndsTheRun : Prop :=
  ∀ s : State, s.launched = true → s.flags.getLsbD 8 = true → step s = .refused .notInScopeTf

/-- R129, D1: a state that is not launched and breaks a condition is refused with its number; real-address mode is
the first condition. That the number is that of the FIRST condition broken where several are, and how
`brokenCondition` reads conditions 4 and 5 for null DS and ES, is the model's reading (log 12, DEDUCED). -/
def Obligations.BadLaunchStatesAreRefused : Prop :=
  ∀ s : State, s.launched = false →
    (∀ n, s.brokenCondition = some n → step s = .refused (.badLaunchState n)) ∧
    (s.msw.getLsbD 0 = false → step s = .refused (.badLaunchState 1)) ∧
    (s.brokenCondition = none → s.msw.getLsbD 0 = true ∧ selRpl s.cs.sel = s.cpl ∧ s.ip ≤ s.cs.limit ∧
      selRpl s.ss.sel = s.cpl ∧ s.flags.getLsbD 8 = false ∧ s.flagsFixed = true)

/-! ### Reset and invariants -/

/-- The values of hardware reset that R34's table gives: CS, IP, the flag word, MSW, IDTR, CPL and the other segment
registers as general knowledge (log 4: PRESUMED), the two NMI bits by decision D8. -/
def Obligations.ResetHoldsTheHardwareValues : Prop :=
  State.reset.cs.sel = 0xF000#16 ∧ State.reset.cs.base = 0xFF0000#24 ∧ State.reset.cs.limit = 0xFFFF#16 ∧
  State.reset.ip = 0xFFF0#16 ∧ State.reset.cpl = 0#2 ∧
  State.reset.nmiInService = false ∧ State.reset.nmiPending = false ∧
  State.reset.flags = 0x0002#16 ∧ State.reset.msw = 0xFFF0#16 ∧
  State.reset.idtr = { base := 0x000000#24, limit := 0x03FF#16 } ∧
  (∀ n : SegName, n ≠ .cs → (State.reset.seg n).sel = 0x0000#16 ∧ (State.reset.seg n).base = 0x000000#24 ∧
    (State.reset.seg n).limit = 0xFFFF#16)

/-- The reset state meets the invariants that hold in every mode: canonical memory (the model's form, log 5),
CPL the RPL of CS (R22), fixed flag bits (R18). -/
def Obligations.ResetMeetsTheInvariants : Prop :=
  State.reset.canonical = true ∧ State.reset.levelAgrees = true ∧ State.reset.flagsFixed = true

/-- Every step keeps the canonical form of memory, so that equal memories stay equal data (log 5). -/
def Obligations.StepKeepsMemoryCanonical : Prop :=
  ∀ s t : State, s.canonical = true → step s = .next t → t.canonical = true

/-- R22: after every rule the RPL of CS is CPL. R18: bits 1, 3, 5 and 15 of the flag word keep their values. -/
def Obligations.StepKeepsLevelAndFixedFlags : Prop :=
  ∀ s t : State, s.levelAgrees = true → s.flagsFixed = true → step s = .next t →
    t.levelAgrees = true ∧ t.flagsFixed = true

/-- R129 read as an invariant (log 22): from a launched state in which CS, SS, DS, ES, TR and LDTR hold what
the present level allows, every step of a machine that stops at failed checks leads to such a state. -/
def Obligations.StepKeepsProtection : Prop :=
  ∀ s t : State, s.protectionHolds = true → step s = .next t → t.protectionHolds = true

/-- R129: a launch state that is accepted meets the protection invariant. -/
def Obligations.AcceptedLaunchIsProtected : Prop :=
  ∀ s : State, s.brokenCondition = none → s.params.deliverFaults = false →
    s.launch.protectionHolds = true

/-- R23, R82, R90: IDTR changes only by a LIDT executed at CPL 0. -/
def Obligations.OnlyLidtAtLevelZeroChangesIdtr : Prop :=
  ∀ s t : State, step s = .next t → t.idtr ≠ s.idtr →
    s.cpl = 0#2 ∧ s.nmiDue = false ∧ s.intrDue = false ∧
      ∃ m, decode (s.codeBytes maxLength s.ip.toNat) = .instr (.lidt m)

/-- R24, R27: no step changes GDTR or MSW.PE. That no step changes the parameters is the model's choice to hold
the parameters of `00_scope.md` R5 in State (log 6, DESIGN CHOICE); that a machine that has stepped is launched
is about the model's own field (log 12, DEDUCED). -/
def Obligations.StepKeepsGdtrAndProtectedMode : Prop :=
  ∀ s t : State, step s = .next t →
    t.gdtr = s.gdtr ∧ t.params = s.params ∧ t.msw.getLsbD 0 = s.msw.getLsbD 0 ∧ t.launched = true

/-- R28, R96: the service of an NMI ends only by an IRET; and a request that arrives, or is pending, while an NMI
is in service is remembered. -/
def Obligations.NmiServiceEndsOnlyByIret : Prop :=
  ∀ s t : State, step s = .next t → s.nmiInService = true →
    (t.nmiInService = false → s.intrDue = false ∧ decode (s.codeBytes maxLength s.ip.toNat) = .instr .iret) ∧
    ((s.nmiPending || s.boundaryInput.nmi) = true → t.nmiPending = true)

/-- R81: every IRET that completes re-opens the NMI input, and a remembered NMI is then delivered at the
boundary that follows (where the loaded flag word has TF = 0, R126). -/
def Obligations.CompletedIretReopensTheNmiInput : Prop :=
  ∀ s t : State, s.params.deliverFaults = false → exec .iret s = .next t →
    t.nmiInService = false ∧
    (s.nmiPending = true → s.launched = true → t.flags.getLsbD 8 = false →
      step t = settle true (t.arrive.beginNmiService.deliver 2#8 .external
        t.ip none))

/-! ### Instructions -/

/-- R84, R14: `MOV r8,imm8` loads the register, leaves the other byte of its word and every other register,
and changes nothing else but IP. -/
def Obligations.MovByteLoadsItsRegister : Prop :=
  ∀ (s : State) (r : Reg8) (v : Byte),
    ∃ g, exec (.movR8Imm8 r v) s = .next { s with regs := g, ip := s.ip + 2#16 } ∧
      g.read8 r = v ∧ (∀ q, q ≠ r → g.read8 q = s.regs.read8 q) ∧
      (∀ q, q ≠ reg8Home r → g.read q = s.regs.read q)

/-- R85: `MOV r16,imm16` loads the register and changes nothing else but IP. -/
def Obligations.MovWordLoadsItsRegister : Prop :=
  ∀ (s : State) (r : Reg16) (v : Word),
    ∃ g, exec (.movR16Imm16 r v) s = .next { s with regs := g, ip := s.ip + 3#16 } ∧
      g.read r = v ∧ (∀ q, q ≠ r → g.read q = s.regs.read q)

/-- R86, R36, R121: with CPL <= IOPL, `OUT DX,AL` gives AL to the port in DX: at `PIC_ICW2_PORT` it becomes
ICW2, at every other port nothing changes; and IP advances. With CPL > IOPL it is the fault `IoPrivilege`. -/
def Obligations.OutWritesThePort : Prop :=
  ∀ s : State,
    (s.cpl ≤ flagIopl s.flags → s.regs.dx = s.params.picIcw2Port →
      exec .outDxAl s = .next { s with pic := { s.pic with icw2 := s.regs.ax.extractLsb' 0 8 }, ip := s.ip + 1#16 }) ∧
    (s.cpl ≤ flagIopl s.flags → s.regs.dx ≠ s.params.picIcw2Port →
      exec .outDxAl s = .next { s with ip := s.ip + 1#16 }) ∧
    (flagIopl s.flags < s.cpl → s.params.deliverFaults = false → exec .outDxAl s = .fault .ioPrivilege)

/-- R82: at CPL 0, with the six bytes of the operand readable in its segment, LIDT loads the limit from the
first two bytes and the base from the next three, lowest byte first, and changes nothing else but IP. -/
def Obligations.LidtLoadsTheTableRegister : Prop :=
  ∀ (s : State) (m : MemOperand), s.cpl = 0#2 →
    effectiveOffset s.regs m ≤ 0xFFFA#16 →
    segReadOk (s.seg (operandSegment m)) (effectiveOffset s.regs m) 2 = true →
    segReadOk (s.seg (operandSegment m)) (effectiveOffset s.regs m + 2#16) 2 = true →
    segReadOk (s.seg (operandSegment m)) (effectiveOffset s.regs m + 4#16) 2 = true →
    ∃ a : Addr, a = (s.seg (operandSegment m)).base + (effectiveOffset s.regs m).setWidth 24 ∧
      exec (.lidt m) s = .next { s with
        idtr := { base := s.read8 (a + 4#24) ++ (s.read8 (a + 3#24) ++ s.read8 (a + 2#24))
                  limit := s.read8 (a + 1#24) ++ s.read8 a }
        ip := s.ip + BitVec.ofNat 16 (3 + m.dispSize) }

/-- R82: LIDT faults at a CPL other than 0, before the operand is looked at; and at CPL 0 where a byte of the
operand lies beyond FFFFH or beyond its segment, as `StackLimit` if that is SS. -/
def Obligations.LidtFaultsOutsideItsConditions : Prop :=
  ∀ (s : State) (m : MemOperand), s.params.deliverFaults = false →
    (s.cpl ≠ 0#2 → exec (.lidt m) s = .fault .privilegedInstruction) ∧
    (s.cpl = 0#2 →
      (0xFFFA#16 < effectiveOffset s.regs m ∨
        ∃ j ∈ [0#16, 2#16, 4#16],
          segReadOk (s.seg (operandSegment m)) (effectiveOffset s.regs m + j) 2 = false) →
      exec (.lidt m) s = .fault (if operandSegment m = .ss then .stackLimit else .segmentLimit))

/-- R73: with OF = 0, INTO only advances IP. -/
def Obligations.IntoWithoutOverflowOnlyAdvances : Prop :=
  ∀ s : State, s.flags.getLsbD 11 = false → exec .into s = .next { s with ip := s.ip + 1#16 }

/-- R71, R72, R73, R99, R100, R101, R103, R104, R106, R108: `INT n`, `INT 3` and INTO with OF = 1, through an
interrupt or trap gate to a code segment entered at the present level, complete: flag word, CS and return IP
stand on the stack in use, CS:IP is the handler's with the level as RPL, IF, TF and NT change as the gate says.
Everything else stays, and memory outside the three words changes at most in the accessed bit of the handler's
segment (R55). -/
def Obligations.SoftwareInterruptEntersTheSameLevel : Prop :=
  ∀ (s : State) (i : Instr) (v : Byte) (retIp : Word) (d : Desc),
    softwareEvent s i = some (v, retIp) → s.gateOpen v .software = true → s.procedureGate v = true →
    s.handlerAt (s.idtEntry v) d = true → arCodeFits d.ar s.cpl = true → frameFits s.ss s.regs.sp 3 = true →
    ∃ t, exec i s = .next t ∧
      t.ip = (s.idtEntry v).gateOffset ∧ t.cpl = s.cpl ∧
      t.cs = d.toSegReg (selWithRpl (s.idtEntry v).gateSelector s.cpl) ∧
      t.flags = handlerFlags (s.idtEntry v).isInterruptGate s.flagWord ∧
      t.regs = s.regs.write .sp (s.regs.sp - 6#16) ∧
      t.ss = s.ss ∧ t.ds = s.ds ∧ t.es = s.es ∧ keepsTask s t ∧ keepsSystem s t ∧ t.nmiInService = s.nmiInService ∧
      ((∀ a, marksAt d a → ¬ inFrame s.ss s.regs.sp 3 a) →
        frameHolds t s.ss s.regs.sp [s.flagWord, s.cs.sel, retIp]) ∧
      (∀ a, marksAt d a → t.read8 a = arAccessed d.ar) ∧
      (∀ a, ¬ inFrame s.ss s.regs.sp 3 a → ¬ marksAt d a → t.read8 a = s.read8 a)

/-- R90, R92, R105, R106, R108: the same instructions through an interrupt or trap gate to a non-conforming code
segment of a smaller level `k` switch to the stack the TSS gives for that level, push SS, SP, flag word, CS
and return IP there in this order, and continue in the handler at level `k`. -/
def Obligations.SoftwareInterruptEntersAnInnerLevel : Prop :=
  ∀ (s : State) (i : Instr) (v : Byte) (retIp : Word) (d : Desc) (newSs newSp : Word) (e : Desc),
    softwareEvent s i = some (v, retIp) → s.gateOpen v .software = true → s.procedureGate v = true →
    s.handlerAt (s.idtEntry v) d = true → arConforming d.ar = false → arDpl d.ar < s.cpl →
    s.innerStackAt (arDpl d.ar) newSs newSp e = true → frameFits (e.toSegReg newSs) newSp 5 = true →
    ∃ t, exec i s = .next t ∧
      t.ip = (s.idtEntry v).gateOffset ∧ t.cpl = arDpl d.ar ∧
      t.cs = d.toSegReg (selWithRpl (s.idtEntry v).gateSelector (arDpl d.ar)) ∧
      t.ss = e.toSegReg newSs ∧
      t.flags = handlerFlags (s.idtEntry v).isInterruptGate s.flagWord ∧
      t.regs = s.regs.write .sp (newSp - 10#16) ∧
      t.ds = s.ds ∧ t.es = s.es ∧ keepsTask s t ∧ keepsSystem s t ∧ t.nmiInService = s.nmiInService ∧
      ((∀ a, marksAt d a → ¬ inFrame (e.toSegReg newSs) newSp 5 a) →
        frameHolds t (e.toSegReg newSs) newSp [s.ss.sel, s.regs.sp, s.flagWord, s.cs.sel, retIp]) ∧
      (∀ a, marksAt d a → t.read8 a = arAccessed d.ar) ∧
      (∀ a, ¬ inFrame (e.toSegReg newSs) newSp 5 a → ¬ marksAt d a → ¬ marksAt e a → t.read8 a = s.read8 a)

/-- R74, R98, R109, R110, R111: the same instructions through a task gate to an available TSS leave the present
task (steps 3 to 6 of R110) and load the incoming one from its TSS with NT set; if its segments pass the checks
of steps 8 to 10, the instruction completes in that task, whatever its level. -/
def Obligations.SoftwareInterruptSwitchesTasks : Prop :=
  ∀ (s t : State) (i : Instr) (v : Byte) (retIp : Word) (d : Desc) (u : State) (img : TssImage),
    softwareEvent s i = some (v, retIp) → s.gateOpen v .software = true → (s.idtEntry v).isTaskGate = true →
    s.taskAt (s.idtEntry v).gateSelector false d = true →
    u = s.leaveTask (s.idtEntry v).gateSelector d .nest retIp → img = u.readTss d.base →
    (u.loadTask .nest img).loadTaskSegments img = .ok t →
    exec i s = .next t ∧ taskLoaded t .nest img ∧ t.flags.getLsbD 14 = true ∧ marksOnly u t img ∧
      t.tr = { sel := (s.idtEntry v).gateSelector, base := d.base, limit := d.limit } ∧
      t.msw = s.msw ||| 0x0008#16 ∧ keepsSystem s t ∧ t.nmiInService = s.nmiInService

/-- R110 steps 3 to 6, R52, R111, R112: what leaving a task writes. The outgoing task's fourteen words go to its
TSS from offset 0EH on; BUSY of the incoming descriptor is set and its back link is the old TR selector if
tasks nest; BUSY of the outgoing descriptor is cleared if IRET leaves it, with NT cleared in the saved flag
word. No other byte changes. (The three places are taken not to overlap.) -/
def Obligations.LeavingATaskSavesItsState : Prop :=
  ∀ (s u : State) (new : Word) (d : Desc) (cause : SwitchCause) (retIp : Word) (busy : Addr),
    u = s.leaveTask new d cause retIp →
    busy = (match cause with
      | .nest => d.addr + 5#24
      | .iret => s.gdtr.base + (selOffset s.tr.sel).setWidth 24 + 5#24) →
    ¬ within (s.tr.base + 0x0E#24) 28 busy →
    (cause = .nest → ¬ within d.base 2 busy ∧
      ∀ a, within d.base 2 a → ¬ within (s.tr.base + 0x0E#24) 28 a) →
    (∀ j, j < 14 →
      some (u.read16 (s.tr.base + 0x0E#24 + BitVec.ofNat 24 (2 * j))) =
        [retIp, (match cause with
            | .nest => s.flagWord
            | .iret => s.flagWord &&& 0xBFFF#16),
          s.regs.ax, s.regs.cx, s.regs.dx, s.regs.bx, s.regs.sp, s.regs.bp, s.regs.si, s.regs.di,
          s.es.sel, s.cs.sel, s.ss.sel, s.ds.sel][j]?) ∧
    u.read8 busy = (match cause with
      | .nest => s.read8 busy ||| 0x02#8
      | .iret => s.read8 busy &&& 0xFD#8) ∧
    (cause = .nest → u.read16 d.base = s.tr.sel) ∧
    (∀ a, ¬ within (s.tr.base + 0x0E#24) 28 a → a ≠ busy → (cause = .nest → ¬ within d.base 2 a) →
      u.read8 a = s.read8 a) ∧
    u.tr = { sel := new, base := d.base, limit := d.limit } ∧ u.msw = s.msw ||| 0x0008#16 ∧
    u.regs = s.regs ∧ u.ip = s.ip ∧ u.flags = s.flags ∧ u.cpl = s.cpl ∧ u.cs = s.cs ∧ u.ss = s.ss ∧ u.ds = s.ds ∧
    u.es = s.es ∧ u.ldtr = s.ldtr ∧ u.nmiInService = s.nmiInService ∧ keepsSystem s u

/-- R110 steps 8 and 9: an incoming task without an LDT, with the null selector in DS and ES, is loaded if CS
names through the GDT a present code segment whose DPL suits the RPL of CS, SS a present writable data segment of
that level, and IP lies inside CS. -/
def Obligations.IncomingTaskWithoutDataSegmentsLoads : Prop :=
  ∀ (s : State) (img : TssImage) (d e : Desc),
    selNull img.ldt = true → selNull img.ds = true → selNull img.es = true → selTi img.cs = false →
    selTi img.ss = false →
    s.returnCodeAt img.cs s.ip (selRpl img.cs) d = true →
    ((s.setCpl (selRpl img.cs)).markAccessed d).returnStackAt img.ss (selRpl img.cs) e = true →
    ∃ t, s.loadTaskSegments img = .ok t ∧ t.cpl = selRpl img.cs ∧ t.cs = d.toSegReg img.cs ∧
      t.ss = e.toSegReg img.ss ∧ t.ds.sel = img.ds ∧ t.es.sel = img.es ∧ t.ldtr.sel = img.ldt ∧
      t.regs = s.regs ∧ t.flags = s.flags ∧ t.ip = s.ip ∧ t.tr = s.tr ∧ t.msw = s.msw ∧
      (∀ a, ¬ marksAt d a → ¬ marksAt e a → t.read8 a = s.read8 a)

/-- R75, R77, R79, R81: IRET with NT = 0 and the RPL of the return CS equal to CPL completes: it takes IP, CS and
the flag word (through the filter) from the three words at SS:SP, adds 6 to SP, and changes nothing else but
`nmi_in_service` and the accessed bit of the segment returned to. -/
def Obligations.IretReturnsToTheSameLevel : Prop :=
  ∀ (s : State) (retIp retCs img : Word) (d : Desc),
    flagNt s.flags = false → s.frameReadable = true →
    retIp = s.read16 (s.ss.phys s.regs.sp) → retCs = s.read16 (s.ss.phys (s.regs.sp + 2#16)) →
    img = s.read16 (s.ss.phys (s.regs.sp + 4#16)) → selRpl retCs = s.cpl →
    s.returnCodeAt retCs retIp s.cpl d = true →
    ∃ t, exec .iret s = .next t ∧ t.ip = retIp ∧ t.cs = d.toSegReg retCs ∧ t.cpl = s.cpl ∧
      t.flags = filterFlags s.params.iretIoplFilter s.cpl s.flagWord img ∧
      t.regs = s.regs.write .sp (s.regs.sp + 6#16) ∧ t.ss = s.ss ∧ t.ds = s.ds ∧ t.es = s.es ∧
      t.nmiInService = false ∧ keepsTask s t ∧ keepsSystem s t ∧
      (∀ a, marksAt d a → t.read8 a = arAccessed d.ar) ∧ (∀ a, ¬ marksAt d a → t.read8 a = s.read8 a)

/-- R75, R78, R79, R81: IRET with NT = 0 and the RPL of the return CS above CPL completes at that outer level: it
takes IP, CS, flag word, SP and SS from the five words at SS:SP, and makes DS and ES null where they hold a data
segment or a non-conforming code segment of a smaller DPL. -/
def Obligations.IretReturnsToAnOuterLevel : Prop :=
  ∀ (s : State) (retIp retCs img retSp retSs : Word) (d e : Desc),
    flagNt s.flags = false → s.frameReadable = true →
    segReadOk s.ss (s.regs.sp + 6#16) 2 = true → segReadOk s.ss (s.regs.sp + 8#16) 2 = true →
    retIp = s.read16 (s.ss.phys s.regs.sp) → retCs = s.read16 (s.ss.phys (s.regs.sp + 2#16)) →
    img = s.read16 (s.ss.phys (s.regs.sp + 4#16)) → retSp = s.read16 (s.ss.phys (s.regs.sp + 6#16)) →
    retSs = s.read16 (s.ss.phys (s.regs.sp + 8#16)) → s.cpl < selRpl retCs →
    s.returnCodeAt retCs retIp (selRpl retCs) d = true → s.returnStackAt retSs (selRpl retCs) e = true →
    ∃ t, exec .iret s = .next t ∧ t.ip = retIp ∧ t.cs = d.toSegReg retCs ∧ t.cpl = selRpl retCs ∧
      t.flags = filterFlags s.params.iretIoplFilter s.cpl s.flagWord img ∧
      t.ss = e.toSegReg retSs ∧ t.regs = s.regs.write .sp retSp ∧
      t.ds = cleanDataSeg (selRpl retCs) s.ds ∧ t.es = cleanDataSeg (selRpl retCs) s.es ∧
      t.nmiInService = false ∧ keepsTask s t ∧ keepsSystem s t ∧
      (∀ a, ¬ marksAt d a → ¬ marksAt e a → t.read8 a = s.read8 a)

/-- R78: the clean-up keeps a register that the outer level may hold and gives the null selector and the access
byte 00H to the others; a register made null cannot be read or written through. -/
def Obligations.CleanUpClearsInnerSegments : Prop :=
  ∀ (k : Level) (g : SegReg) (off : Word) (n : Nat),
    (selNull g.sel = false → arIsSegment g.ar = true → arConforming g.ar = false → arDpl g.ar < k →
      cleanDataSeg k g = { g with sel := 0x0000#16, ar := 0x00#8 } ∧
      segReadOk (cleanDataSeg k g) off n = false ∧ segWriteOk (cleanDataSeg k g) off n = false) ∧
    (selNull g.sel = true ∨ arConforming g.ar = true ∨ k ≤ arDpl g.ar → cleanDataSeg k g = g)

/-- R75, R80, R81, R110, R112: IRET with NT = 1 returns to the task the back link names: it leaves the present
task with the IP after the IRET saved, and completes in the linked task if that task's segments pass the checks;
the flag word is the one that task's TSS holds, its NT included. -/
def Obligations.IretWithNestedTaskReturnsToTheLink : Prop :=
  ∀ (s t : State) (d : Desc) (u : State) (img : TssImage),
    flagNt s.flags = true → s.taskAt (s.read16 s.tr.base) true d = true →
    u = s.leaveTask (s.read16 s.tr.base) d .iret (s.ip + 1#16) → img = u.readTss d.base →
    (u.loadTask .iret img).loadTaskSegments img = .ok t →
    ∃ r, exec .iret s = .next r ∧ r = ({ t with nmiInService := false } : State) ∧ taskLoaded r .iret img ∧
      marksOnly u r img ∧ r.tr = { sel := s.read16 s.tr.base, base := d.base, limit := d.limit } ∧
      r.msw = s.msw ||| 0x0008#16 ∧ keepsSystem s r

/-- R76, R90: an IRET within the task never leads to an inner level: CPL does not fall, and it is at most the DPL
of the code segment returned to unless that segment conforms. -/
def Obligations.IretNeverReturnsInward : Prop :=
  ∀ s t : State, s.params.deliverFaults = false → flagNt s.flags = false → exec .iret s = .next t →
    s.cpl ≤ t.cpl ∧ (arConforming t.cs.ar = false → s.cpl ≤ arDpl t.cs.ar)

/-- R79 with the filter on: an IRET within the task changes IOPL only at CPL 0 and IF only at a CPL not above
IOPL. -/
def Obligations.IretCannotRaisePrivilegedFlags : Prop :=
  ∀ s t : State, s.params.deliverFaults = false → s.params.iretIoplFilter = true → flagNt s.flags = false →
    exec .iret s = .next t →
    (s.cpl ≠ 0#2 → flagIopl t.flags = flagIopl s.flags) ∧
    (flagIopl s.flags < s.cpl → flagIf t.flags = flagIf s.flags)

/-- R90, R92, R102, R103: an interrupt or exception of any kind taken through an interrupt or trap gate continues
at the same or a smaller level, in a segment of DPL not above the interrupted level; the level is that DPL unless
the segment conforms, and then it does not change. -/
def Obligations.HandlersNeverRunOutward : Prop :=
  ∀ (s t : State) (v : Byte) (k : EventKind) (retIp : Word) (err : Option Word),
    s.procedureGate v = true → s.deliver v k retIp err = .ok t →
    t.cpl ≤ s.cpl ∧ arDpl t.cs.ar ≤ s.cpl ∧
    (arConforming t.cs.ar = true → t.cpl = s.cpl) ∧ (arConforming t.cs.ar = false → t.cpl = arDpl t.cs.ar)

/-- R100, D16: for external interrupts and exceptions the gate's DPL is not looked at, so they are delivered
alike from every level, even where DPL < CPL: an entry inside the limit that is a gate and is present passes
`IdtLookup` for them whatever DPL and CPL are, and for a software interrupt if and only if CPL <= DPL, so that one
through the same gate at a greater CPL is refused. -/
def Obligations.HardwareIgnoresTheGateLevel : Prop :=
  ∀ (s : State) (v : Byte) (retIp : Word) (err : Option Word),
    (8 * v.toNat + 7 ≤ s.idtr.limit.toNat → (s.idtEntry v).isIdtGate = true → arPresent (s.idtEntry v).ar = true →
      s.idtLookup v .external = .ok (s.idtEntry v) ∧ s.idtLookup v .exception = .ok (s.idtEntry v) ∧
      (s.idtLookup v .software = .ok (s.idtEntry v) ↔ s.cpl ≤ arDpl (s.idtEntry v).ar)) ∧
    s.deliver v .external retIp err = s.deliver v .exception retIp err ∧
    (s.cpl ≤ arDpl (s.idtEntry v).ar → s.deliver v .software retIp err = s.deliver v .external retIp err) ∧
    (arDpl (s.idtEntry v).ar < s.cpl → ∀ i retIp', softwareEvent s i = some (v, retIp') →
      s.params.deliverFaults = false → completes (exec i s) = false)

/-- R93, R105, R106, `95_test_vectors.md` S7: an external interrupt at an outer level, through a gate of any DPL,
enters the inner handler with the IP of the instruction not yet begun. -/
def Obligations.ExternalInterruptEntersAnInnerLevel : Prop :=
  ∀ (s : State) (v : Byte) (d : Desc) (newSs newSp : Word) (e : Desc),
    s.gateOpen v .external = true → s.procedureGate v = true →
    s.handlerAt (s.idtEntry v) d = true → arConforming d.ar = false → arDpl d.ar < s.cpl →
    s.innerStackAt (arDpl d.ar) newSs newSp e = true → frameFits (e.toSegReg newSs) newSp 5 = true →
    ∃ t, s.deliverExternal v = .next t ∧ t.ip = (s.idtEntry v).gateOffset ∧ t.cpl = arDpl d.ar ∧
      t.cs = d.toSegReg (selWithRpl (s.idtEntry v).gateSelector (arDpl d.ar)) ∧
      t.ss = e.toSegReg newSs ∧ t.regs = s.regs.write .sp (newSp - 10#16) ∧
      t.flags = handlerFlags (s.idtEntry v).isInterruptGate s.flagWord ∧
      t.ds = s.ds ∧ t.es = s.es ∧ keepsTask s t ∧ keepsSystem s t ∧ t.nmiInService = s.nmiInService ∧
      (∀ a, ¬ inFrame (e.toSegReg newSs) newSp 5 a → ¬ marksAt d a → ¬ marksAt e a → t.read8 a = s.read8 a) ∧
      ((∀ a, marksAt d a → ¬ inFrame (e.toSegReg newSs) newSp 5 a) →
        frameHolds t (e.toSegReg newSs) newSp [s.ss.sel, s.regs.sp, s.flagWord, s.cs.sel, s.ip])

/-- R104, R105, R107, R108, R109: a delivery with an error code pushes it last, so that it lies at the lowest address:
below the return IP at the same level, below the return IP on the TSS's stack at an inner level, and through a task
gate as the one word on the incoming task's stack, whose failed limit test is `StackLimit` in the incoming task.
Memory outside the frame changes at most in the accessed bits of the segments loaded (R55), and the frame is read
back where the accessed bit of the handler's segment does not stand in it. -/
def Obligations.ErrorCodeLiesLowestInTheFrame : Prop :=
  ∀ (s : State) (v : Byte) (retIp err : Word), s.gateOpen v .exception = true →
    (∀ d, s.procedureGate v = true → s.handlerAt (s.idtEntry v) d = true →
      arCodeFits d.ar s.cpl = true → frameFits s.ss s.regs.sp 4 = true →
      ∃ t, s.deliver v .exception retIp (some err) = .ok t ∧ t.ip = (s.idtEntry v).gateOffset ∧
        t.regs = s.regs.write .sp (s.regs.sp - 8#16) ∧ t.ss = s.ss ∧
        ((∀ a, marksAt d a → ¬ inFrame s.ss s.regs.sp 4 a) →
          frameHolds t s.ss s.regs.sp [s.flagWord, s.cs.sel, retIp, err] ∧
          ∀ a, marksAt d a → t.read8 a = arAccessed d.ar) ∧
        (∀ a, ¬ inFrame s.ss s.regs.sp 4 a → ¬ marksAt d a → t.read8 a = s.read8 a)) ∧
    (∀ d newSs newSp e, s.procedureGate v = true → s.handlerAt (s.idtEntry v) d = true →
      arConforming d.ar = false → arDpl d.ar < s.cpl → s.innerStackAt (arDpl d.ar) newSs newSp e = true →
      frameFits (e.toSegReg newSs) newSp 6 = true →
      ∃ t, s.deliver v .exception retIp (some err) = .ok t ∧ t.ip = (s.idtEntry v).gateOffset ∧
        t.cpl = arDpl d.ar ∧ t.ss = e.toSegReg newSs ∧ t.regs = s.regs.write .sp (newSp - 12#16) ∧
        ((∀ a, marksAt d a → ¬ inFrame (e.toSegReg newSs) newSp 6 a) →
          frameHolds t (e.toSegReg newSs) newSp [s.ss.sel, s.regs.sp, s.flagWord, s.cs.sel, retIp, err] ∧
          ∀ a, marksAt d a → t.read8 a = arAccessed d.ar) ∧
        (∀ a, ¬ inFrame (e.toSegReg newSs) newSp 6 a → ¬ marksAt d a → ¬ marksAt e a → t.read8 a = s.read8 a)) ∧
    (∀ d u img t, (s.idtEntry v).isTaskGate = true → s.taskAt (s.idtEntry v).gateSelector false d = true →
      u = s.leaveTask (s.idtEntry v).gateSelector d .nest retIp → img = u.readTss d.base →
      (u.loadTask .nest img).loadTaskSegments img = .ok t →
      (segWriteOk t.ss (t.regs.sp - 2#16) 2 = true →
        ∃ r, s.deliver v .exception retIp (some err) = .ok r ∧ r.regs = t.regs.write .sp (t.regs.sp - 2#16) ∧
          frameHolds r t.ss t.regs.sp [err] ∧
          (∀ a, ¬ inFrame t.ss t.regs.sp 1 a → r.read8 a = t.read8 a) ∧
          r = { t with regs := r.regs, mem := r.mem }) ∧
      (segWriteOk t.ss (t.regs.sp - 2#16) 2 = false →
        s.deliver v .exception retIp (some err) = .error (failing t .stackLimit)))

/-- R98, R104, R106, R77, R79: a software interrupt through a gate to the same level, and the IRET that follows it,
bring back the interrupted code: all registers, CS, SS, DS, ES, CPL and the flag word, at the return IP. Required:
CS holds a present code segment that fits the level, and it is still the cached copy of its descriptor after the
entry; the accessed bit of the handler's segment does not stand in the frame; and the filter of R79 lets IF
through. -/
def Obligations.IretUndoesASameLevelEntry : Prop :=
  ∀ (s : State) (i : Instr) (v : Byte) (retIp : Word) (d : Desc),
    softwareEvent s i = some (v, retIp) → s.gateOpen v .software = true →
    s.procedureGate v = true → s.handlerAt (s.idtEntry v) d = true → arCodeFits d.ar s.cpl = true →
    frameFits s.ss s.regs.sp 3 = true → (∀ a, marksAt d a → ¬ inFrame s.ss s.regs.sp 3 a) →
    s.codeSafe = true → retIp ≤ s.cs.limit → s.flagsFixed = true →
    (s.params.iretIoplFilter = true → s.cpl ≤ flagIopl s.flags) →
    ∃ t, exec i s = .next t ∧
      (t.cacheAgrees s.cs = true →
        ∃ r, exec .iret t = .next r ∧ r.ip = retIp ∧ r.cs = s.cs ∧ r.cpl = s.cpl ∧ r.flags = s.flags ∧
          r.regs = s.regs ∧ r.ss = s.ss ∧ r.ds = s.ds ∧ r.es = s.es ∧ keepsTask s r ∧ keepsSystem s r)

/-! ### Failed checks -/

/-- R99, R100: the four tests on the IDT entry of a vector, in their order, each with its fault; the one on the gate's
DPL for software interrupts only. A software interrupt instruction whose delivery fails ends in that fault
(R114 with `DELIVER_FAULTS` off). -/
def Obligations.IdtEntryTestsComeInOrder : Prop :=
  ∀ (s : State) (v : Byte) (k : EventKind) (retIp : Word) (err : Option Word),
    (s.idtr.limit.toNat < 8 * v.toNat + 7 →
      s.deliver v k retIp err = .error (failing s (.vectorBeyondIdtLimit v))) ∧
    (8 * v.toNat + 7 ≤ s.idtr.limit.toNat → (s.idtEntry v).isIdtGate = false →
      s.deliver v k retIp err = .error (failing s (.idtEntryNotGate v))) ∧
    (8 * v.toNat + 7 ≤ s.idtr.limit.toNat → (s.idtEntry v).isIdtGate = true → k = .software →
      arDpl (s.idtEntry v).ar < s.cpl → s.deliver v k retIp err = .error (failing s (.gateDplBelowCpl v))) ∧
    (8 * v.toNat + 7 ≤ s.idtr.limit.toNat → (s.idtEntry v).isIdtGate = true →
      (k ≠ .software ∨ s.cpl ≤ arDpl (s.idtEntry v).ar) → arPresent (s.idtEntry v).ar = false →
      s.deliver v k retIp err = .error (failing s (.gateNotPresent v))) ∧
    (∀ i f, softwareEvent s i = some (v, retIp) → s.params.deliverFaults = false →
      s.deliver v .software retIp none = .error f → exec i s = .fault f.reason)

/-- R101, R102, R104, R105: the tests of a gate entry, for every kind of event: on the segment the gate leads to, a
target of greater DPL being refused whatever raised the event; then those of an entry at the same level or at an
inner one, in their order, with room for one more word where there is an error code. Each failure leaves the state as
it was. -/
def Obligations.HandlerSegmentTestsComeInOrder : Prop :=
  ∀ (s : State) (v : Byte) (k : EventKind) (retIp : Word) (err : Option Word) (sel : Word),
    s.gateOpen v k = true → s.procedureGate v = true → sel = (s.idtEntry v).gateSelector →
    (selNull sel = true → s.deliver v k retIp err = .error (failing s .nullSelector)) ∧
    (selNull sel = false → s.readDesc sel = none →
      s.deliver v k retIp err = .error (failing s (.selectorBeyondTable sel))) ∧
    (∀ d, s.readDesc sel = some d →
      (arIsCode d.ar = false → s.deliver v k retIp err = .error (failing s (.notCodeSegment sel))) ∧
      (arIsCode d.ar = true → arPresent d.ar = false →
        s.deliver v k retIp err = .error (failing s (.segmentNotPresent sel))) ∧
      (arIsCode d.ar = true → arPresent d.ar = true → s.cpl < arDpl d.ar →
        s.deliver v k retIp err = .error (failing s (.targetDplAboveCpl sel))) ∧
      (arIsCode d.ar = true → arPresent d.ar = true → arCodeFits d.ar s.cpl = true →
        ∀ f, firstFailed (s.sameEntryTests d (s.idtEntry v).gateOffset (if err.isSome then 4 else 3)) = some f →
          s.deliver v k retIp err = .error (failing s f)) ∧
      (arIsCode d.ar = true → arPresent d.ar = true → arConforming d.ar = false → arDpl d.ar < s.cpl →
        ∀ f, firstFailed (s.innerEntryTests d (s.idtEntry v).gateOffset (if err.isSome then 6 else 5)) = some f →
          s.deliver v k retIp err = .error (failing s f)))

/-- R109, R110, R111: a task gate to a TSS that is not available, because it is BUSY or is no TSS, is refused with
nothing changed; so is one whose selector names the LDT. All tests up to the point of no return, in their order, leave
the state as it was; a check that fails in the incoming task (R110 steps 8 to 10) is the failure of the delivery. -/
def Obligations.BusyTasksCannotBeEntered : Prop :=
  ∀ (s : State) (v : Byte) (k : EventKind) (retIp : Word) (err : Option Word) (sel : Word),
    s.gateOpen v k = true → (s.idtEntry v).isTaskGate = true → sel = (s.idtEntry v).gateSelector →
    (selTi sel = true → s.deliver v k retIp err = .error (failing s (.tssSelectorNotGlobal sel))) ∧
    (∀ d, selTi sel = false → s.readDesc sel = some d → d.isAvailableTss = false →
      s.deliver v k retIp err = .error (failing s (.tssNotAvailable sel))) ∧
    (∀ d : Desc, d.isBusyTss = true → d.isAvailableTss = false) ∧
    (∀ f, firstFailed (s.taskTests sel .nest) = some f →
      s.deliver v k retIp err = .error (failingAlt s f (decide (f = .selectorBeyondTable sel)))) ∧
    (∀ d u img g, s.taskAt sel false d = true → u = s.leaveTask sel d .nest retIp → img = u.readTss d.base →
      (u.loadTask .nest img).loadTaskSegments img = .error g → s.deliver v k retIp err = .error g)

/-- R98, R109, R110, D12: a delivery that fails has changed nothing, unless it is a task switch past the point of
no return, which leaves the machine in the incoming task; an IRET within the task that fails has changed nothing. -/
def Obligations.FailedEntryOrReturnChangesNothing : Prop :=
  (∀ (s : State) (v : Byte) (k : EventKind) (retIp : Word) (err : Option Word) (f : Failure),
    s.deliver v k retIp err = .error f →
    f.left = s ∨
      ((s.idtEntry v).isTaskGate = true ∧ f.left.tr.sel = (s.idtEntry v).gateSelector ∧
        f.left.msw = s.msw ||| 0x0008#16 ∧ f.left.flags.getLsbD 14 = true)) ∧
  (∀ (s : State) (f : Failure), flagNt s.flags = false → s.returnFromInterrupt = .error f → f.left = s)

/-- R75, R76, R77, R78, R80, R110: IRET refuses a return to an inner level, a frame it cannot read, and a back link
that does not name a BUSY TSS, each by its fault; all tests of a return to the same level, of one to an outer level
and of one to the task of the back link come in the order of their rules; and a check that fails in the incoming task
is the fault of the IRET. -/
def Obligations.IretRefusesBadReturns : Prop :=
  ∀ (s : State), s.params.deliverFaults = false →
    (flagNt s.flags = false → s.frameReadable = false → exec .iret s = .fault .stackLimit) ∧
    (flagNt s.flags = false → s.frameReadable = true → selRpl (s.read16 (s.ss.phys (s.regs.sp + 2#16))) < s.cpl →
      exec .iret s = .fault (.returnToInnerLevel (s.read16 (s.ss.phys (s.regs.sp + 2#16))))) ∧
    (∀ d, flagNt s.flags = true → selTi (s.read16 s.tr.base) = false →
      s.readDesc (s.read16 s.tr.base) = some d → d.isBusyTss = false →
      exec .iret s = .fault (.tssNotBusy (s.read16 s.tr.base))) ∧
    (∀ retIp retCs f, flagNt s.flags = false → s.frameReadable = true →
      retIp = s.read16 (s.ss.phys s.regs.sp) → retCs = s.read16 (s.ss.phys (s.regs.sp + 2#16)) → selRpl retCs = s.cpl →
      firstFailed (s.returnCodeTests retCs s.cpl ++ [(decide (retIp ≤ (s.descOf retCs).limit), .ipBeyondLimit)]) = some f →
      exec .iret s = .fault f) ∧
    (∀ retIp retCs retSs f, flagNt s.flags = false → s.frameReadable = true →
      retIp = s.read16 (s.ss.phys s.regs.sp) → retCs = s.read16 (s.ss.phys (s.regs.sp + 2#16)) →
      retSs = s.read16 (s.ss.phys (s.regs.sp + 8#16)) → s.cpl < selRpl retCs →
      firstFailed ([(segReadOk s.ss (s.regs.sp + 6#16) 2, .stackLimit), (segReadOk s.ss (s.regs.sp + 8#16) 2, .stackLimit)] ++
        s.returnCodeTests retCs (selRpl retCs) ++ s.returnStackTests retSs (selRpl retCs) ++
        [(decide (retIp ≤ (s.descOf retCs).limit), .ipBeyondLimit)]) = some f →
      exec .iret s = .fault f) ∧
    (∀ link, flagNt s.flags = true → link = s.read16 s.tr.base →
      (selNull link = true → exec .iret s = .fault (.selectorBeyondTable link)) ∧
      (∀ f, firstFailed (s.taskTests link .iret) = some f → exec .iret s = .fault f) ∧
      (∀ d u img g, s.taskAt link true d = true → u = s.leaveTask link d .iret (s.ip + 1#16) → img = u.readTss d.base →
        (u.loadTask .iret img).loadTaskSegments img = .error g → exec .iret s = .fault g.reason))

/-- R114, R115: what becomes of a failed check. With `DELIVER_FAULTS` off it is the fault. With it on (log 9, PRESUMED),
any failed check is delivered as the exception of R115's row, with its error code and the IP of the state the failure
left; a failure of that delivery as exception 8 with error code 0; and a failure of that one is the shutdown. The
vector and the error code are those of the two columns as log 9 reads them, `e` being the EXT bit: a TSS selector
beyond its table is 10, and P = 0 as the only defect of an incoming selector is 11, or 12 for SS. So a software
interrupt through a gate of smaller DPL than CPL is exception 13 with error code 8v + 2 at the faulting
instruction. -/
def Obligations.FailedChecksAreDeliveredOnRequest : Prop :=
  (∀ (s : State) (i : Instr) (v : Byte) (retIp : Word),
    softwareEvent s i = some (v, retIp) → s.params.deliverFaults = true →
    8 * v.toNat + 7 ≤ s.idtr.limit.toNat → (s.idtEntry v).isIdtGate = true → arDpl (s.idtEntry v).ar < s.cpl →
    (∀ t, s.deliver 13#8 .exception s.ip (some (v.setWidth 16 * 8#16 + 2#16)) = .ok t → exec i s = .next t) ∧
    (∀ f t, s.deliver 13#8 .exception s.ip (some (v.setWidth 16 * 8#16 + 2#16)) = .error f →
      f.left.deliver 8#8 .exception f.left.ip (some 0x0000#16) = .ok t → exec i s = .next t) ∧
    (∀ f g, s.deliver 13#8 .exception s.ip (some (v.setWidth 16 * 8#16 + 2#16)) = .error f →
      f.left.deliver 8#8 .exception f.left.ip (some 0x0000#16) = .error g → exec i s = .fault .shutdown)) ∧
  (∀ (f : Failure) (ext : Bool),
    (f.left.params.deliverFaults = false → settle ext (.error f) = .fault f.reason) ∧
    (f.left.params.deliverFaults = true →
      (∀ t, f.left.deliver f.vector .exception f.left.ip (f.errorCode ext) = .ok t → settle ext (.error f) = .next t) ∧
      (∀ g t, f.left.deliver f.vector .exception f.left.ip (f.errorCode ext) = .error g →
        g.left.deliver 8#8 .exception g.left.ip (some 0x0000#16) = .ok t → settle ext (.error f) = .next t) ∧
      (∀ g h, f.left.deliver f.vector .exception f.left.ip (f.errorCode ext) = .error g →
        g.left.deliver 8#8 .exception g.left.ip (some 0x0000#16) = .error h → settle ext (.error f) = .fault .shutdown))) ∧
  (∀ (f : Failure) (ext : Bool), f.reason ≠ .shutdown →
    let e : Word := if ext then 0x0001#16 else 0x0000#16
    (f.vector, f.errorCode ext) = (match f.reason with
      | .vectorBeyondIdtLimit v => (13#8, some (v.setWidth 16 * 8#16 + 2#16 + e))
      | .idtEntryNotGate v => (13#8, some (v.setWidth 16 * 8#16 + 2#16 + e))
      | .gateDplBelowCpl v => (13#8, some (v.setWidth 16 * 8#16 + 2#16))
      | .gateNotPresent v => (11#8, some (v.setWidth 16 * 8#16 + 2#16 + e))
      | .nullSelector => (13#8, some e)
      | .selectorBeyondTable sel => (if f.alt then 10#8 else 13#8, some ((sel &&& 0xFFFC#16) + e))
      | .notCodeSegment sel => (13#8, some ((sel &&& 0xFFFC#16) + e))
      | .segmentNotPresent sel => (11#8, some ((sel &&& 0xFFFC#16) + e))
      | .targetDplAboveCpl sel => (13#8, some ((sel &&& 0xFFFC#16) + e))
      | .tssTooSmall sel => (10#8, some ((sel &&& 0xFFFC#16) + e))
      | .innerStackNull => (10#8, some e)
      | .innerStackBeyondTable sel => (10#8, some ((sel &&& 0xFFFC#16) + e))
      | .innerStackRplMismatch sel => (10#8, some ((sel &&& 0xFFFC#16) + e))
      | .innerStackDplMismatch sel => (10#8, some ((sel &&& 0xFFFC#16) + e))
      | .innerStackNotWritable sel => (10#8, some ((sel &&& 0xFFFC#16) + e))
      | .innerStackNotPresent sel => (12#8, some ((sel &&& 0xFFFC#16) + e))
      | .stackLimit => (12#8, some e)
      | .ipBeyondLimit => (13#8, some 0x0000#16)
      | .tssSelectorNotGlobal sel => (10#8, some ((sel &&& 0xFFFC#16) + e))
      | .tssNotAvailable sel => (10#8, some ((sel &&& 0xFFFC#16) + e))
      | .tssNotBusy sel => (10#8, some (sel &&& 0xFFFC#16))
      | .tssNotPresent sel => (11#8, some ((sel &&& 0xFFFC#16) + e))
      | .incomingLdtInvalid sel => (if f.alt then 11#8 else 10#8, some ((sel &&& 0xFFFC#16) + e))
      | .incomingCsInvalid sel => (if f.alt then 11#8 else 10#8, some ((sel &&& 0xFFFC#16) + e))
      | .incomingSsInvalid sel => (if f.alt then 12#8 else 10#8, some ((sel &&& 0xFFFC#16) + e))
      | .incomingDataSegInvalid sel => (if f.alt then 11#8 else 10#8, some ((sel &&& 0xFFFC#16) + e))
      | .returnToInnerLevel sel => (13#8, some (sel &&& 0xFFFC#16))
      | .returnDplMismatch sel => (13#8, some (sel &&& 0xFFFC#16))
      | .stackSelectorRplMismatch sel => (13#8, some (sel &&& 0xFFFC#16))
      | .notWritableData sel => (13#8, some (sel &&& 0xFFFC#16))
      | .stackDplMismatch sel => (13#8, some (sel &&& 0xFFFC#16))
      | .stackNotPresent sel => (11#8, some (sel &&& 0xFFFC#16))
      | .segmentLimit => (13#8, some 0x0000#16)
      | .fetchBeyondLimit _ => (13#8, some 0x0000#16)
      | .privilegedInstruction => (13#8, some 0x0000#16)
      | .ioPrivilege => (13#8, some 0x0000#16)
      | .invalidOpcode => (6#8, none)
      | .shutdown => (8#8, none)))

/-! ### Memory, segments and flags -/

/-- R38, R8: a word stands low byte first; reading it back gives it, its bytes can be read alone, and no other
byte changes. -/
def Obligations.WordsAreLittleEndian : Prop :=
  ∀ (s : State) (a : Addr) (v : Word),
    (s.write16 a v).read16 a = v ∧ (s.write16 a v).read8 a = v.extractLsb' 0 8 ∧
    (s.write16 a v).read8 (a + 1#24) = v.extractLsb' 8 8 ∧
    (∀ b, b ≠ a → b ≠ a + 1#24 → (s.write16 a v).read8 b = s.read8 b)

/-- R53: a word at offset FFFFH is never allowed, whatever the segment; in an expand-up segment a word is allowed
up to the limit, in an expand-down segment only above it; and nothing is allowed through a null selector. R104: the fit test of a frame runs word by word with the wrap of a push, so that with limit FFFFH
three words fit below SP = 0004H and not below SP = 0005H. -/
def Obligations.SegmentLimitTest : Prop :=
  ∀ (g : SegReg) (off : Word),
    (rangeOk g 0xFFFF#16 2 = false) ∧
    (arExpandDown g.ar = false → (rangeOk g off 2 = true ↔ off.toNat + 1 ≤ g.limit.toNat)) ∧
    (arExpandDown g.ar = true → (rangeOk g off 2 = true ↔ g.limit < off ∧ off ≠ 0xFFFF#16)) ∧
    (segWriteOk g off 2 = true → arWritable g.ar = true ∧ selNull g.sel = false ∧ rangeOk g off 2 = true) ∧
    (segReadOk g off 2 = true → selNull g.sel = false ∧ (arIsCode g.ar = true → g.ar.getLsbD 1 = true)) ∧
    (selNull g.sel = false → arWritable g.ar = true → arExpandDown g.ar = false → g.limit = 0xFFFF#16 →
      frameFits g 0x0004#16 3 = true ∧ frameFits g 0x0005#16 3 = false)

/-- R42, R25: how a selector names a descriptor: through the GDT or the LDT by its TI bit, if all eight bytes lie
inside the table; a null selector, or TI = 1 with a null LDTR, names none. -/
def Obligations.SelectorsNameDescriptors : Prop :=
  ∀ (s : State) (sel : Word),
    (sel.toNat < 4 → s.readDesc sel = none) ∧
    (sel.getLsbD 2 = true → s.ldtr.sel.toNat < 4 → s.readDesc sel = none) ∧
    (4 ≤ sel.toNat → sel.getLsbD 2 = false →
      (s.gdtr.limit.toNat < sel.toNat / 8 * 8 + 7 → s.readDesc sel = none) ∧
      (sel.toNat / 8 * 8 + 7 ≤ s.gdtr.limit.toNat →
        s.readDesc sel = some (s.descAt (s.gdtr.base + BitVec.ofNat 24 (sel.toNat / 8 * 8))))) ∧
    (4 ≤ s.ldtr.sel.toNat → sel.getLsbD 2 = true →
      (s.ldtr.limit.toNat < sel.toNat / 8 * 8 + 7 → s.readDesc sel = none) ∧
      (sel.toNat / 8 * 8 + 7 ≤ s.ldtr.limit.toNat →
        s.readDesc sel = some (s.descAt (s.ldtr.base + BitVec.ofNat 24 (sel.toNat / 8 * 8))))) ∧
    (∀ a : Addr, (s.descAt a).b0 = s.read8 a ∧ (s.descAt a).b1 = s.read8 (a + 1#24) ∧
      (s.descAt a).b2 = s.read8 (a + 2#24) ∧ (s.descAt a).b3 = s.read8 (a + 3#24) ∧
      (s.descAt a).b4 = s.read8 (a + 4#24) ∧ (s.descAt a).b5 = s.read8 (a + 5#24) ∧
      (s.descAt a).b6 = s.read8 (a + 6#24) ∧ (s.descAt a).b7 = s.read8 (a + 7#24) ∧ (s.descAt a).addr = a)

/-- R55: loading a segment register copies selector, base, limit and access byte with bit 0 set, sets the
accessed bit in memory if it was 0, and touches no other register and no other byte: no general register, IP, flag
word, level, other segment register, TR, LDTR, MSW, IDTR, GDTR, NMI bit nor any part of the 8259. -/
def Obligations.LoadSegCachesTheDescriptor : Prop :=
  ∀ (s : State) (n : SegName) (sel : Word) (a : Addr) (d : Desc), d = s.descAt a →
    ((s.loadSeg n sel d).seg n).sel = sel ∧
    ((s.loadSeg n sel d).seg n).limit = s.read8 (a + 1#24) ++ s.read8 a ∧
    ((s.loadSeg n sel d).seg n).base = s.read8 (a + 4#24) ++ (s.read8 (a + 3#24) ++ s.read8 (a + 2#24)) ∧
    ((s.loadSeg n sel d).seg n).ar = s.read8 (a + 5#24) ||| 0x01#8 ∧
    (s.loadSeg n sel d).read8 (a + 5#24) = s.read8 (a + 5#24) ||| 0x01#8 ∧
    (∀ b, b ≠ a + 5#24 → (s.loadSeg n sel d).read8 b = s.read8 b) ∧
    (∀ m, m ≠ n → (s.loadSeg n sel d).seg m = s.seg m) ∧
    (s.loadSeg n sel d).regs = s.regs ∧ (s.loadSeg n sel d).flags = s.flags ∧ (s.loadSeg n sel d).cpl = s.cpl ∧
    (s.loadSeg n sel d).ip = s.ip ∧ keepsTask s (s.loadSeg n sel d) ∧ keepsSystem s (s.loadSeg n sel d) ∧
    (s.loadSeg n sel d).nmiInService = s.nmiInService

/-- R106: entry through a gate clears TF and NT, clears IF if it is an interrupt gate, and leaves every other bit
of the flag word. -/
def Obligations.GateEntryClearsTheseFlags : Prop :=
  ∀ (clear : Bool) (v : Word) (j : Nat),
    (handlerFlags clear v).getLsbD j =
      (v.getLsbD j && decide (j ≠ 8) && decide (j ≠ 14) && !(clear && decide (j = 9)))

/-- R79, R18: which bits of the image IRET loads: bits 1, 3, 5 and 15 at their fixed values; with the filter on
IOPL only at CPL 0 and IF only at a CPL not above the old IOPL; every other bit from the image. -/
def Obligations.IretFilterBits : Prop :=
  ∀ (filter : Bool) (cpl : Level) (old img : Word) (j : Nat), j < 16 →
    (filterFlags filter cpl old img).getLsbD j =
      (if j = 1 then true
      else if j = 3 ∨ j = 5 ∨ j = 15 then false
      else if (j = 12 ∨ j = 13) ∧ filter = true ∧ cpl ≠ 0#2 then old.getLsbD j
      else if j = 9 ∧ filter = true ∧ flagIopl old < cpl then old.getLsbD j
      else img.getLsbD j)

/-! ### The 8259 and the 8205 -/

/-- R117, R118: a request sets edge flip-flops only; the first INTA pulse for IRn clears its edge flip-flop, sets
its IRR and ISR bits, and leaves the other inputs and ICW2. -/
def Obligations.FirstIntaFreezesTheRequest : Prop :=
  ∀ (p : Pic) (n m : Fin 8) (lines : BitVec 8),
    ((p.request lines).edge.getLsbD m.val = (p.edge.getLsbD m.val || lines.getLsbD m.val)) ∧
    (p.request lines).irr = p.irr ∧ (p.request lines).isr = p.isr ∧ (p.request lines).icw2 = p.icw2 ∧
    ((p.firstInta n).edge.getLsbD m.val = (p.edge.getLsbD m.val && decide (m ≠ n))) ∧
    ((p.firstInta n).irr.getLsbD m.val = (p.irr.getLsbD m.val || decide (m = n))) ∧
    ((p.firstInta n).isr.getLsbD m.val = (p.isr.getLsbD m.val || decide (m = n))) ∧
    (p.firstInta n).icw2 = p.icw2

/-- R119, R120: the vector byte has bits 7:3 of ICW2 and the number of the input in bits 2:0. -/
def Obligations.VectorByteCarriesTheInput : Prop :=
  ∀ (p : Pic) (n : Fin 8),
    (p.vector n).extractLsb' 3 5 = p.icw2.extractLsb' 3 5 ∧ ((p.vector n).extractLsb' 0 3).toNat = n.val

/-- R123: the decoder is enabled iff BHE is high, A10 and A0 are low, and its output is the number A4 A3 A2. -/
def Obligations.ChipSelectDecodesA4A3A2 : Prop :=
  ∀ (bheHigh : Bool) (a : Addr) (o : BitVec 3),
    decoder8205 bheHigh a = some o ↔
      bheHigh = true ∧ a.getLsbD 10 = false ∧ a.getLsbD 0 = false ∧ a.toNat / 4 % 8 = o.toNat

/-! ### The incoming task -/

/-- R110 steps 8 to 10, R25, R55: loading the segments of any incoming task. If LDT, CS, SS, DS, ES and IP pass their
tests, LDTR is null or caches the LDT's descriptor, CPL is the RPL of CS, each segment register caches its descriptor
or is null, and nothing else changes but accessed bits. Otherwise the first test that fails, in the order of the steps
(DS before ES: log 21, DEDUCED), is the failure, in the incoming task: TR, MSW, IP, the flag word and the general
registers are the new task's. -/
def Obligations.IncomingTaskSegmentsLoadInOrder : Prop :=
  ∀ (s : State) (img : TssImage) (g : TaskStages), g = s.taskStages img →
    (firstFailed (g.tests img s.ip) = none →
      ∃ t, s.loadTaskSegments img = .ok t ∧ t.cpl = selRpl img.cs ∧
        t.ldtr.sel = img.ldt ∧ (selNull img.ldt = false → t.ldtr = (s.descOf img.ldt).toSysSegReg img.ldt) ∧
        t.cs = (g.atCs.descOf img.cs).toSegReg img.cs ∧ t.ss = (g.atSs.descOf img.ss).toSegReg img.ss ∧
        t.ds.sel = img.ds ∧ (selNull img.ds = false → t.ds = (g.atDs.descOf img.ds).toSegReg img.ds) ∧
        t.es.sel = img.es ∧ (selNull img.es = false → t.es = (g.atEs.descOf img.es).toSegReg img.es) ∧
        t.regs = s.regs ∧ t.flags = s.flags ∧ t.ip = s.ip ∧ t.tr = s.tr ∧ t.msw = s.msw ∧
        t.nmiInService = s.nmiInService ∧ keepsSystem s t ∧ marksOnly s t img) ∧
    (∀ f alt, firstFailed (g.tests img s.ip) = some (f, alt) →
      ∃ h, s.loadTaskSegments img = .error h ∧ h.reason = f ∧ h.alt = alt ∧ h.left.tr = s.tr ∧ h.left.msw = s.msw ∧
        h.left.ip = s.ip ∧ h.left.flags = s.flags ∧ h.left.regs = s.regs ∧ keepsSystem s h.left)
end

