-- ==== Sys2Proof/Laws/State.lean ====
section
/-! SUPPORT. One lemma per field per update of State, true by rfl, so that no later proof unfolds a record
update; and the shape of the updates built from them. -/

namespace Sys2Proof.Machine

variable (s : State)

/-! ### `write8` -/

@[simp] theorem State.write8_regs (a : Addr) (v : Byte) : (s.write8 a v).regs = s.regs := rfl
@[simp] theorem State.write8_ip (a : Addr) (v : Byte) : (s.write8 a v).ip = s.ip := rfl
@[simp] theorem State.write8_flags (a : Addr) (v : Byte) : (s.write8 a v).flags = s.flags := rfl
@[simp] theorem State.write8_cpl (a : Addr) (v : Byte) : (s.write8 a v).cpl = s.cpl := rfl
@[simp] theorem State.write8_es (a : Addr) (v : Byte) : (s.write8 a v).es = s.es := rfl
@[simp] theorem State.write8_cs (a : Addr) (v : Byte) : (s.write8 a v).cs = s.cs := rfl
@[simp] theorem State.write8_ss (a : Addr) (v : Byte) : (s.write8 a v).ss = s.ss := rfl
@[simp] theorem State.write8_ds (a : Addr) (v : Byte) : (s.write8 a v).ds = s.ds := rfl
@[simp] theorem State.write8_idtr (a : Addr) (v : Byte) : (s.write8 a v).idtr = s.idtr := rfl
@[simp] theorem State.write8_gdtr (a : Addr) (v : Byte) : (s.write8 a v).gdtr = s.gdtr := rfl
@[simp] theorem State.write8_ldtr (a : Addr) (v : Byte) : (s.write8 a v).ldtr = s.ldtr := rfl
@[simp] theorem State.write8_tr (a : Addr) (v : Byte) : (s.write8 a v).tr = s.tr := rfl
@[simp] theorem State.write8_msw (a : Addr) (v : Byte) : (s.write8 a v).msw = s.msw := rfl
@[simp] theorem State.write8_nmiInService (a : Addr) (v : Byte) : (s.write8 a v).nmiInService = s.nmiInService := rfl
@[simp] theorem State.write8_nmiPending (a : Addr) (v : Byte) : (s.write8 a v).nmiPending = s.nmiPending := rfl
@[simp] theorem State.write8_pic (a : Addr) (v : Byte) : (s.write8 a v).pic = s.pic := rfl
@[simp] theorem State.write8_params (a : Addr) (v : Byte) : (s.write8 a v).params = s.params := rfl
@[simp] theorem State.write8_inputs (a : Addr) (v : Byte) : (s.write8 a v).inputs = s.inputs := rfl
@[simp] theorem State.write8_freeUsed (a : Addr) (v : Byte) : (s.write8 a v).freeUsed = s.freeUsed := rfl
@[simp] theorem State.write8_launched (a : Addr) (v : Byte) : (s.write8 a v).launched = s.launched := rfl

@[simp] theorem State.write8_mem (a : Addr) (v : Byte) : (s.write8 a v).mem = s.mem.write a v := rfl

/-! ### `write16` -/

@[simp] theorem State.write16_regs (a : Addr) (v : Word) : (s.write16 a v).regs = s.regs := rfl
@[simp] theorem State.write16_ip (a : Addr) (v : Word) : (s.write16 a v).ip = s.ip := rfl
@[simp] theorem State.write16_flags (a : Addr) (v : Word) : (s.write16 a v).flags = s.flags := rfl
@[simp] theorem State.write16_cpl (a : Addr) (v : Word) : (s.write16 a v).cpl = s.cpl := rfl
@[simp] theorem State.write16_es (a : Addr) (v : Word) : (s.write16 a v).es = s.es := rfl
@[simp] theorem State.write16_cs (a : Addr) (v : Word) : (s.write16 a v).cs = s.cs := rfl
@[simp] theorem State.write16_ss (a : Addr) (v : Word) : (s.write16 a v).ss = s.ss := rfl
@[simp] theorem State.write16_ds (a : Addr) (v : Word) : (s.write16 a v).ds = s.ds := rfl
@[simp] theorem State.write16_idtr (a : Addr) (v : Word) : (s.write16 a v).idtr = s.idtr := rfl
@[simp] theorem State.write16_gdtr (a : Addr) (v : Word) : (s.write16 a v).gdtr = s.gdtr := rfl
@[simp] theorem State.write16_ldtr (a : Addr) (v : Word) : (s.write16 a v).ldtr = s.ldtr := rfl
@[simp] theorem State.write16_tr (a : Addr) (v : Word) : (s.write16 a v).tr = s.tr := rfl
@[simp] theorem State.write16_msw (a : Addr) (v : Word) : (s.write16 a v).msw = s.msw := rfl
@[simp] theorem State.write16_nmiInService (a : Addr) (v : Word) : (s.write16 a v).nmiInService = s.nmiInService := rfl
@[simp] theorem State.write16_nmiPending (a : Addr) (v : Word) : (s.write16 a v).nmiPending = s.nmiPending := rfl
@[simp] theorem State.write16_pic (a : Addr) (v : Word) : (s.write16 a v).pic = s.pic := rfl
@[simp] theorem State.write16_params (a : Addr) (v : Word) : (s.write16 a v).params = s.params := rfl
@[simp] theorem State.write16_inputs (a : Addr) (v : Word) : (s.write16 a v).inputs = s.inputs := rfl
@[simp] theorem State.write16_freeUsed (a : Addr) (v : Word) : (s.write16 a v).freeUsed = s.freeUsed := rfl
@[simp] theorem State.write16_launched (a : Addr) (v : Word) : (s.write16 a v).launched = s.launched := rfl

/-! ### `setSp` -/

@[simp] theorem State.setSp_ip (v : Word) : (s.setSp v).ip = s.ip := rfl
@[simp] theorem State.setSp_flags (v : Word) : (s.setSp v).flags = s.flags := rfl
@[simp] theorem State.setSp_cpl (v : Word) : (s.setSp v).cpl = s.cpl := rfl
@[simp] theorem State.setSp_es (v : Word) : (s.setSp v).es = s.es := rfl
@[simp] theorem State.setSp_cs (v : Word) : (s.setSp v).cs = s.cs := rfl
@[simp] theorem State.setSp_ss (v : Word) : (s.setSp v).ss = s.ss := rfl
@[simp] theorem State.setSp_ds (v : Word) : (s.setSp v).ds = s.ds := rfl
@[simp] theorem State.setSp_idtr (v : Word) : (s.setSp v).idtr = s.idtr := rfl
@[simp] theorem State.setSp_gdtr (v : Word) : (s.setSp v).gdtr = s.gdtr := rfl
@[simp] theorem State.setSp_ldtr (v : Word) : (s.setSp v).ldtr = s.ldtr := rfl
@[simp] theorem State.setSp_tr (v : Word) : (s.setSp v).tr = s.tr := rfl
@[simp] theorem State.setSp_msw (v : Word) : (s.setSp v).msw = s.msw := rfl
@[simp] theorem State.setSp_nmiInService (v : Word) : (s.setSp v).nmiInService = s.nmiInService := rfl
@[simp] theorem State.setSp_nmiPending (v : Word) : (s.setSp v).nmiPending = s.nmiPending := rfl
@[simp] theorem State.setSp_pic (v : Word) : (s.setSp v).pic = s.pic := rfl
@[simp] theorem State.setSp_mem (v : Word) : (s.setSp v).mem = s.mem := rfl
@[simp] theorem State.setSp_params (v : Word) : (s.setSp v).params = s.params := rfl
@[simp] theorem State.setSp_inputs (v : Word) : (s.setSp v).inputs = s.inputs := rfl
@[simp] theorem State.setSp_freeUsed (v : Word) : (s.setSp v).freeUsed = s.freeUsed := rfl
@[simp] theorem State.setSp_launched (v : Word) : (s.setSp v).launched = s.launched := rfl

@[simp] theorem State.setSp_regs (v : Word) : (s.setSp v).regs = { s.regs with sp := v } := rfl

/-! ### `setIp` -/

@[simp] theorem State.setIp_regs (v : Word) : (s.setIp v).regs = s.regs := rfl
@[simp] theorem State.setIp_flags (v : Word) : (s.setIp v).flags = s.flags := rfl
@[simp] theorem State.setIp_cpl (v : Word) : (s.setIp v).cpl = s.cpl := rfl
@[simp] theorem State.setIp_es (v : Word) : (s.setIp v).es = s.es := rfl
@[simp] theorem State.setIp_cs (v : Word) : (s.setIp v).cs = s.cs := rfl
@[simp] theorem State.setIp_ss (v : Word) : (s.setIp v).ss = s.ss := rfl
@[simp] theorem State.setIp_ds (v : Word) : (s.setIp v).ds = s.ds := rfl
@[simp] theorem State.setIp_idtr (v : Word) : (s.setIp v).idtr = s.idtr := rfl
@[simp] theorem State.setIp_gdtr (v : Word) : (s.setIp v).gdtr = s.gdtr := rfl
@[simp] theorem State.setIp_ldtr (v : Word) : (s.setIp v).ldtr = s.ldtr := rfl
@[simp] theorem State.setIp_tr (v : Word) : (s.setIp v).tr = s.tr := rfl
@[simp] theorem State.setIp_msw (v : Word) : (s.setIp v).msw = s.msw := rfl
@[simp] theorem State.setIp_nmiInService (v : Word) : (s.setIp v).nmiInService = s.nmiInService := rfl
@[simp] theorem State.setIp_nmiPending (v : Word) : (s.setIp v).nmiPending = s.nmiPending := rfl
@[simp] theorem State.setIp_pic (v : Word) : (s.setIp v).pic = s.pic := rfl
@[simp] theorem State.setIp_mem (v : Word) : (s.setIp v).mem = s.mem := rfl
@[simp] theorem State.setIp_params (v : Word) : (s.setIp v).params = s.params := rfl
@[simp] theorem State.setIp_inputs (v : Word) : (s.setIp v).inputs = s.inputs := rfl
@[simp] theorem State.setIp_freeUsed (v : Word) : (s.setIp v).freeUsed = s.freeUsed := rfl
@[simp] theorem State.setIp_launched (v : Word) : (s.setIp v).launched = s.launched := rfl

@[simp] theorem State.setIp_ip (v : Word) : (s.setIp v).ip = v := rfl

/-! ### `setFlags` -/

@[simp] theorem State.setFlags_regs (v : Word) : (s.setFlags v).regs = s.regs := rfl
@[simp] theorem State.setFlags_ip (v : Word) : (s.setFlags v).ip = s.ip := rfl
@[simp] theorem State.setFlags_cpl (v : Word) : (s.setFlags v).cpl = s.cpl := rfl
@[simp] theorem State.setFlags_es (v : Word) : (s.setFlags v).es = s.es := rfl
@[simp] theorem State.setFlags_cs (v : Word) : (s.setFlags v).cs = s.cs := rfl
@[simp] theorem State.setFlags_ss (v : Word) : (s.setFlags v).ss = s.ss := rfl
@[simp] theorem State.setFlags_ds (v : Word) : (s.setFlags v).ds = s.ds := rfl
@[simp] theorem State.setFlags_idtr (v : Word) : (s.setFlags v).idtr = s.idtr := rfl
@[simp] theorem State.setFlags_gdtr (v : Word) : (s.setFlags v).gdtr = s.gdtr := rfl
@[simp] theorem State.setFlags_ldtr (v : Word) : (s.setFlags v).ldtr = s.ldtr := rfl
@[simp] theorem State.setFlags_tr (v : Word) : (s.setFlags v).tr = s.tr := rfl
@[simp] theorem State.setFlags_msw (v : Word) : (s.setFlags v).msw = s.msw := rfl
@[simp] theorem State.setFlags_nmiInService (v : Word) : (s.setFlags v).nmiInService = s.nmiInService := rfl
@[simp] theorem State.setFlags_nmiPending (v : Word) : (s.setFlags v).nmiPending = s.nmiPending := rfl
@[simp] theorem State.setFlags_pic (v : Word) : (s.setFlags v).pic = s.pic := rfl
@[simp] theorem State.setFlags_mem (v : Word) : (s.setFlags v).mem = s.mem := rfl
@[simp] theorem State.setFlags_params (v : Word) : (s.setFlags v).params = s.params := rfl
@[simp] theorem State.setFlags_inputs (v : Word) : (s.setFlags v).inputs = s.inputs := rfl
@[simp] theorem State.setFlags_freeUsed (v : Word) : (s.setFlags v).freeUsed = s.freeUsed := rfl
@[simp] theorem State.setFlags_launched (v : Word) : (s.setFlags v).launched = s.launched := rfl

@[simp] theorem State.setFlags_flags (v : Word) : (s.setFlags v).flags = v := rfl

/-! ### `setCpl` -/

@[simp] theorem State.setCpl_regs (v : Level) : (s.setCpl v).regs = s.regs := rfl
@[simp] theorem State.setCpl_ip (v : Level) : (s.setCpl v).ip = s.ip := rfl
@[simp] theorem State.setCpl_flags (v : Level) : (s.setCpl v).flags = s.flags := rfl
@[simp] theorem State.setCpl_es (v : Level) : (s.setCpl v).es = s.es := rfl
@[simp] theorem State.setCpl_cs (v : Level) : (s.setCpl v).cs = s.cs := rfl
@[simp] theorem State.setCpl_ss (v : Level) : (s.setCpl v).ss = s.ss := rfl
@[simp] theorem State.setCpl_ds (v : Level) : (s.setCpl v).ds = s.ds := rfl
@[simp] theorem State.setCpl_idtr (v : Level) : (s.setCpl v).idtr = s.idtr := rfl
@[simp] theorem State.setCpl_gdtr (v : Level) : (s.setCpl v).gdtr = s.gdtr := rfl
@[simp] theorem State.setCpl_ldtr (v : Level) : (s.setCpl v).ldtr = s.ldtr := rfl
@[simp] theorem State.setCpl_tr (v : Level) : (s.setCpl v).tr = s.tr := rfl
@[simp] theorem State.setCpl_msw (v : Level) : (s.setCpl v).msw = s.msw := rfl
@[simp] theorem State.setCpl_nmiInService (v : Level) : (s.setCpl v).nmiInService = s.nmiInService := rfl
@[simp] theorem State.setCpl_nmiPending (v : Level) : (s.setCpl v).nmiPending = s.nmiPending := rfl
@[simp] theorem State.setCpl_pic (v : Level) : (s.setCpl v).pic = s.pic := rfl
@[simp] theorem State.setCpl_mem (v : Level) : (s.setCpl v).mem = s.mem := rfl
@[simp] theorem State.setCpl_params (v : Level) : (s.setCpl v).params = s.params := rfl
@[simp] theorem State.setCpl_inputs (v : Level) : (s.setCpl v).inputs = s.inputs := rfl
@[simp] theorem State.setCpl_freeUsed (v : Level) : (s.setCpl v).freeUsed = s.freeUsed := rfl
@[simp] theorem State.setCpl_launched (v : Level) : (s.setCpl v).launched = s.launched := rfl

@[simp] theorem State.setCpl_cpl (v : Level) : (s.setCpl v).cpl = v := rfl

/-! ### `endNmiService` -/

@[simp] theorem State.endNmiService_regs  : (s.endNmiService).regs = s.regs := rfl
@[simp] theorem State.endNmiService_ip  : (s.endNmiService).ip = s.ip := rfl
@[simp] theorem State.endNmiService_flags  : (s.endNmiService).flags = s.flags := rfl
@[simp] theorem State.endNmiService_cpl  : (s.endNmiService).cpl = s.cpl := rfl
@[simp] theorem State.endNmiService_es  : (s.endNmiService).es = s.es := rfl
@[simp] theorem State.endNmiService_cs  : (s.endNmiService).cs = s.cs := rfl
@[simp] theorem State.endNmiService_ss  : (s.endNmiService).ss = s.ss := rfl
@[simp] theorem State.endNmiService_ds  : (s.endNmiService).ds = s.ds := rfl
@[simp] theorem State.endNmiService_idtr  : (s.endNmiService).idtr = s.idtr := rfl
@[simp] theorem State.endNmiService_gdtr  : (s.endNmiService).gdtr = s.gdtr := rfl
@[simp] theorem State.endNmiService_ldtr  : (s.endNmiService).ldtr = s.ldtr := rfl
@[simp] theorem State.endNmiService_tr  : (s.endNmiService).tr = s.tr := rfl
@[simp] theorem State.endNmiService_msw  : (s.endNmiService).msw = s.msw := rfl
@[simp] theorem State.endNmiService_nmiPending  : (s.endNmiService).nmiPending = s.nmiPending := rfl
@[simp] theorem State.endNmiService_pic  : (s.endNmiService).pic = s.pic := rfl
@[simp] theorem State.endNmiService_mem  : (s.endNmiService).mem = s.mem := rfl
@[simp] theorem State.endNmiService_params  : (s.endNmiService).params = s.params := rfl
@[simp] theorem State.endNmiService_inputs  : (s.endNmiService).inputs = s.inputs := rfl
@[simp] theorem State.endNmiService_freeUsed  : (s.endNmiService).freeUsed = s.freeUsed := rfl
@[simp] theorem State.endNmiService_launched  : (s.endNmiService).launched = s.launched := rfl

@[simp] theorem State.endNmiService_nmiInService : s.endNmiService.nmiInService = false := rfl

/-! ### `pushWord` -/

@[simp] theorem State.pushWord_ip (v : Word) : (s.pushWord v).ip = s.ip := rfl
@[simp] theorem State.pushWord_flags (v : Word) : (s.pushWord v).flags = s.flags := rfl
@[simp] theorem State.pushWord_cpl (v : Word) : (s.pushWord v).cpl = s.cpl := rfl
@[simp] theorem State.pushWord_es (v : Word) : (s.pushWord v).es = s.es := rfl
@[simp] theorem State.pushWord_cs (v : Word) : (s.pushWord v).cs = s.cs := rfl
@[simp] theorem State.pushWord_ss (v : Word) : (s.pushWord v).ss = s.ss := rfl
@[simp] theorem State.pushWord_ds (v : Word) : (s.pushWord v).ds = s.ds := rfl
@[simp] theorem State.pushWord_idtr (v : Word) : (s.pushWord v).idtr = s.idtr := rfl
@[simp] theorem State.pushWord_gdtr (v : Word) : (s.pushWord v).gdtr = s.gdtr := rfl
@[simp] theorem State.pushWord_ldtr (v : Word) : (s.pushWord v).ldtr = s.ldtr := rfl
@[simp] theorem State.pushWord_tr (v : Word) : (s.pushWord v).tr = s.tr := rfl
@[simp] theorem State.pushWord_msw (v : Word) : (s.pushWord v).msw = s.msw := rfl
@[simp] theorem State.pushWord_nmiInService (v : Word) : (s.pushWord v).nmiInService = s.nmiInService := rfl
@[simp] theorem State.pushWord_nmiPending (v : Word) : (s.pushWord v).nmiPending = s.nmiPending := rfl
@[simp] theorem State.pushWord_pic (v : Word) : (s.pushWord v).pic = s.pic := rfl
@[simp] theorem State.pushWord_params (v : Word) : (s.pushWord v).params = s.params := rfl
@[simp] theorem State.pushWord_inputs (v : Word) : (s.pushWord v).inputs = s.inputs := rfl
@[simp] theorem State.pushWord_freeUsed (v : Word) : (s.pushWord v).freeUsed = s.freeUsed := rfl
@[simp] theorem State.pushWord_launched (v : Word) : (s.pushWord v).launched = s.launched := rfl

@[simp] theorem State.pushWord_regs (v : Word) : (s.pushWord v).regs = { s.regs with sp := s.regs.sp - 2#16 } := rfl
theorem State.pushWord_mem (v : Word) : (s.pushWord v).mem = (s.write16 (s.ss.phys (s.regs.sp - 2#16)) v).mem := rfl

/-! ### `setSeg .es` -/

@[simp] theorem State.setSeg_es_regs (g : SegReg) : (s.setSeg .es g).regs = s.regs := rfl
@[simp] theorem State.setSeg_es_ip (g : SegReg) : (s.setSeg .es g).ip = s.ip := rfl
@[simp] theorem State.setSeg_es_flags (g : SegReg) : (s.setSeg .es g).flags = s.flags := rfl
@[simp] theorem State.setSeg_es_cpl (g : SegReg) : (s.setSeg .es g).cpl = s.cpl := rfl
@[simp] theorem State.setSeg_es_es (g : SegReg) : (s.setSeg .es g).es = g := rfl
@[simp] theorem State.setSeg_es_cs (g : SegReg) : (s.setSeg .es g).cs = s.cs := rfl
@[simp] theorem State.setSeg_es_ss (g : SegReg) : (s.setSeg .es g).ss = s.ss := rfl
@[simp] theorem State.setSeg_es_ds (g : SegReg) : (s.setSeg .es g).ds = s.ds := rfl
@[simp] theorem State.setSeg_es_idtr (g : SegReg) : (s.setSeg .es g).idtr = s.idtr := rfl
@[simp] theorem State.setSeg_es_gdtr (g : SegReg) : (s.setSeg .es g).gdtr = s.gdtr := rfl
@[simp] theorem State.setSeg_es_ldtr (g : SegReg) : (s.setSeg .es g).ldtr = s.ldtr := rfl
@[simp] theorem State.setSeg_es_tr (g : SegReg) : (s.setSeg .es g).tr = s.tr := rfl
@[simp] theorem State.setSeg_es_msw (g : SegReg) : (s.setSeg .es g).msw = s.msw := rfl
@[simp] theorem State.setSeg_es_nmiInService (g : SegReg) : (s.setSeg .es g).nmiInService = s.nmiInService := rfl
@[simp] theorem State.setSeg_es_nmiPending (g : SegReg) : (s.setSeg .es g).nmiPending = s.nmiPending := rfl
@[simp] theorem State.setSeg_es_pic (g : SegReg) : (s.setSeg .es g).pic = s.pic := rfl
@[simp] theorem State.setSeg_es_mem (g : SegReg) : (s.setSeg .es g).mem = s.mem := rfl
@[simp] theorem State.setSeg_es_params (g : SegReg) : (s.setSeg .es g).params = s.params := rfl
@[simp] theorem State.setSeg_es_inputs (g : SegReg) : (s.setSeg .es g).inputs = s.inputs := rfl
@[simp] theorem State.setSeg_es_freeUsed (g : SegReg) : (s.setSeg .es g).freeUsed = s.freeUsed := rfl
@[simp] theorem State.setSeg_es_launched (g : SegReg) : (s.setSeg .es g).launched = s.launched := rfl

/-! ### `setSeg .cs` -/

@[simp] theorem State.setSeg_cs_regs (g : SegReg) : (s.setSeg .cs g).regs = s.regs := rfl
@[simp] theorem State.setSeg_cs_ip (g : SegReg) : (s.setSeg .cs g).ip = s.ip := rfl
@[simp] theorem State.setSeg_cs_flags (g : SegReg) : (s.setSeg .cs g).flags = s.flags := rfl
@[simp] theorem State.setSeg_cs_cpl (g : SegReg) : (s.setSeg .cs g).cpl = s.cpl := rfl
@[simp] theorem State.setSeg_cs_es (g : SegReg) : (s.setSeg .cs g).es = s.es := rfl
@[simp] theorem State.setSeg_cs_cs (g : SegReg) : (s.setSeg .cs g).cs = g := rfl
@[simp] theorem State.setSeg_cs_ss (g : SegReg) : (s.setSeg .cs g).ss = s.ss := rfl
@[simp] theorem State.setSeg_cs_ds (g : SegReg) : (s.setSeg .cs g).ds = s.ds := rfl
@[simp] theorem State.setSeg_cs_idtr (g : SegReg) : (s.setSeg .cs g).idtr = s.idtr := rfl
@[simp] theorem State.setSeg_cs_gdtr (g : SegReg) : (s.setSeg .cs g).gdtr = s.gdtr := rfl
@[simp] theorem State.setSeg_cs_ldtr (g : SegReg) : (s.setSeg .cs g).ldtr = s.ldtr := rfl
@[simp] theorem State.setSeg_cs_tr (g : SegReg) : (s.setSeg .cs g).tr = s.tr := rfl
@[simp] theorem State.setSeg_cs_msw (g : SegReg) : (s.setSeg .cs g).msw = s.msw := rfl
@[simp] theorem State.setSeg_cs_nmiInService (g : SegReg) : (s.setSeg .cs g).nmiInService = s.nmiInService := rfl
@[simp] theorem State.setSeg_cs_nmiPending (g : SegReg) : (s.setSeg .cs g).nmiPending = s.nmiPending := rfl
@[simp] theorem State.setSeg_cs_pic (g : SegReg) : (s.setSeg .cs g).pic = s.pic := rfl
@[simp] theorem State.setSeg_cs_mem (g : SegReg) : (s.setSeg .cs g).mem = s.mem := rfl
@[simp] theorem State.setSeg_cs_params (g : SegReg) : (s.setSeg .cs g).params = s.params := rfl
@[simp] theorem State.setSeg_cs_inputs (g : SegReg) : (s.setSeg .cs g).inputs = s.inputs := rfl
@[simp] theorem State.setSeg_cs_freeUsed (g : SegReg) : (s.setSeg .cs g).freeUsed = s.freeUsed := rfl
@[simp] theorem State.setSeg_cs_launched (g : SegReg) : (s.setSeg .cs g).launched = s.launched := rfl

/-! ### `setSeg .ss` -/

@[simp] theorem State.setSeg_ss_regs (g : SegReg) : (s.setSeg .ss g).regs = s.regs := rfl
@[simp] theorem State.setSeg_ss_ip (g : SegReg) : (s.setSeg .ss g).ip = s.ip := rfl
@[simp] theorem State.setSeg_ss_flags (g : SegReg) : (s.setSeg .ss g).flags = s.flags := rfl
@[simp] theorem State.setSeg_ss_cpl (g : SegReg) : (s.setSeg .ss g).cpl = s.cpl := rfl
@[simp] theorem State.setSeg_ss_es (g : SegReg) : (s.setSeg .ss g).es = s.es := rfl
@[simp] theorem State.setSeg_ss_cs (g : SegReg) : (s.setSeg .ss g).cs = s.cs := rfl
@[simp] theorem State.setSeg_ss_ss (g : SegReg) : (s.setSeg .ss g).ss = g := rfl
@[simp] theorem State.setSeg_ss_ds (g : SegReg) : (s.setSeg .ss g).ds = s.ds := rfl
@[simp] theorem State.setSeg_ss_idtr (g : SegReg) : (s.setSeg .ss g).idtr = s.idtr := rfl
@[simp] theorem State.setSeg_ss_gdtr (g : SegReg) : (s.setSeg .ss g).gdtr = s.gdtr := rfl
@[simp] theorem State.setSeg_ss_ldtr (g : SegReg) : (s.setSeg .ss g).ldtr = s.ldtr := rfl
@[simp] theorem State.setSeg_ss_tr (g : SegReg) : (s.setSeg .ss g).tr = s.tr := rfl
@[simp] theorem State.setSeg_ss_msw (g : SegReg) : (s.setSeg .ss g).msw = s.msw := rfl
@[simp] theorem State.setSeg_ss_nmiInService (g : SegReg) : (s.setSeg .ss g).nmiInService = s.nmiInService := rfl
@[simp] theorem State.setSeg_ss_nmiPending (g : SegReg) : (s.setSeg .ss g).nmiPending = s.nmiPending := rfl
@[simp] theorem State.setSeg_ss_pic (g : SegReg) : (s.setSeg .ss g).pic = s.pic := rfl
@[simp] theorem State.setSeg_ss_mem (g : SegReg) : (s.setSeg .ss g).mem = s.mem := rfl
@[simp] theorem State.setSeg_ss_params (g : SegReg) : (s.setSeg .ss g).params = s.params := rfl
@[simp] theorem State.setSeg_ss_inputs (g : SegReg) : (s.setSeg .ss g).inputs = s.inputs := rfl
@[simp] theorem State.setSeg_ss_freeUsed (g : SegReg) : (s.setSeg .ss g).freeUsed = s.freeUsed := rfl
@[simp] theorem State.setSeg_ss_launched (g : SegReg) : (s.setSeg .ss g).launched = s.launched := rfl

/-! ### `setSeg .ds` -/

@[simp] theorem State.setSeg_ds_regs (g : SegReg) : (s.setSeg .ds g).regs = s.regs := rfl
@[simp] theorem State.setSeg_ds_ip (g : SegReg) : (s.setSeg .ds g).ip = s.ip := rfl
@[simp] theorem State.setSeg_ds_flags (g : SegReg) : (s.setSeg .ds g).flags = s.flags := rfl
@[simp] theorem State.setSeg_ds_cpl (g : SegReg) : (s.setSeg .ds g).cpl = s.cpl := rfl
@[simp] theorem State.setSeg_ds_es (g : SegReg) : (s.setSeg .ds g).es = s.es := rfl
@[simp] theorem State.setSeg_ds_cs (g : SegReg) : (s.setSeg .ds g).cs = s.cs := rfl
@[simp] theorem State.setSeg_ds_ss (g : SegReg) : (s.setSeg .ds g).ss = s.ss := rfl
@[simp] theorem State.setSeg_ds_ds (g : SegReg) : (s.setSeg .ds g).ds = g := rfl
@[simp] theorem State.setSeg_ds_idtr (g : SegReg) : (s.setSeg .ds g).idtr = s.idtr := rfl
@[simp] theorem State.setSeg_ds_gdtr (g : SegReg) : (s.setSeg .ds g).gdtr = s.gdtr := rfl
@[simp] theorem State.setSeg_ds_ldtr (g : SegReg) : (s.setSeg .ds g).ldtr = s.ldtr := rfl
@[simp] theorem State.setSeg_ds_tr (g : SegReg) : (s.setSeg .ds g).tr = s.tr := rfl
@[simp] theorem State.setSeg_ds_msw (g : SegReg) : (s.setSeg .ds g).msw = s.msw := rfl
@[simp] theorem State.setSeg_ds_nmiInService (g : SegReg) : (s.setSeg .ds g).nmiInService = s.nmiInService := rfl
@[simp] theorem State.setSeg_ds_nmiPending (g : SegReg) : (s.setSeg .ds g).nmiPending = s.nmiPending := rfl
@[simp] theorem State.setSeg_ds_pic (g : SegReg) : (s.setSeg .ds g).pic = s.pic := rfl
@[simp] theorem State.setSeg_ds_mem (g : SegReg) : (s.setSeg .ds g).mem = s.mem := rfl
@[simp] theorem State.setSeg_ds_params (g : SegReg) : (s.setSeg .ds g).params = s.params := rfl
@[simp] theorem State.setSeg_ds_inputs (g : SegReg) : (s.setSeg .ds g).inputs = s.inputs := rfl
@[simp] theorem State.setSeg_ds_freeUsed (g : SegReg) : (s.setSeg .ds g).freeUsed = s.freeUsed := rfl
@[simp] theorem State.setSeg_ds_launched (g : SegReg) : (s.setSeg .ds g).launched = s.launched := rfl

/-! ### `markAccessed` -/

@[simp] theorem State.markAccessed_regs (d : Desc) : (s.markAccessed d).regs = s.regs := by unfold State.markAccessed; split <;> rfl
@[simp] theorem State.markAccessed_ip (d : Desc) : (s.markAccessed d).ip = s.ip := by unfold State.markAccessed; split <;> rfl
@[simp] theorem State.markAccessed_flags (d : Desc) : (s.markAccessed d).flags = s.flags := by unfold State.markAccessed; split <;> rfl
@[simp] theorem State.markAccessed_cpl (d : Desc) : (s.markAccessed d).cpl = s.cpl := by unfold State.markAccessed; split <;> rfl
@[simp] theorem State.markAccessed_es (d : Desc) : (s.markAccessed d).es = s.es := by unfold State.markAccessed; split <;> rfl
@[simp] theorem State.markAccessed_cs (d : Desc) : (s.markAccessed d).cs = s.cs := by unfold State.markAccessed; split <;> rfl
@[simp] theorem State.markAccessed_ss (d : Desc) : (s.markAccessed d).ss = s.ss := by unfold State.markAccessed; split <;> rfl
@[simp] theorem State.markAccessed_ds (d : Desc) : (s.markAccessed d).ds = s.ds := by unfold State.markAccessed; split <;> rfl
@[simp] theorem State.markAccessed_idtr (d : Desc) : (s.markAccessed d).idtr = s.idtr := by unfold State.markAccessed; split <;> rfl
@[simp] theorem State.markAccessed_gdtr (d : Desc) : (s.markAccessed d).gdtr = s.gdtr := by unfold State.markAccessed; split <;> rfl
@[simp] theorem State.markAccessed_ldtr (d : Desc) : (s.markAccessed d).ldtr = s.ldtr := by unfold State.markAccessed; split <;> rfl
@[simp] theorem State.markAccessed_tr (d : Desc) : (s.markAccessed d).tr = s.tr := by unfold State.markAccessed; split <;> rfl
@[simp] theorem State.markAccessed_msw (d : Desc) : (s.markAccessed d).msw = s.msw := by unfold State.markAccessed; split <;> rfl
@[simp] theorem State.markAccessed_nmiInService (d : Desc) : (s.markAccessed d).nmiInService = s.nmiInService := by unfold State.markAccessed; split <;> rfl
@[simp] theorem State.markAccessed_nmiPending (d : Desc) : (s.markAccessed d).nmiPending = s.nmiPending := by unfold State.markAccessed; split <;> rfl
@[simp] theorem State.markAccessed_pic (d : Desc) : (s.markAccessed d).pic = s.pic := by unfold State.markAccessed; split <;> rfl
@[simp] theorem State.markAccessed_params (d : Desc) : (s.markAccessed d).params = s.params := by unfold State.markAccessed; split <;> rfl
@[simp] theorem State.markAccessed_inputs (d : Desc) : (s.markAccessed d).inputs = s.inputs := by unfold State.markAccessed; split <;> rfl
@[simp] theorem State.markAccessed_freeUsed (d : Desc) : (s.markAccessed d).freeUsed = s.freeUsed := by unfold State.markAccessed; split <;> rfl
@[simp] theorem State.markAccessed_launched (d : Desc) : (s.markAccessed d).launched = s.launched := by unfold State.markAccessed; split <;> rfl

/-! ### `loadSeg .es` -/

@[simp] theorem State.loadSeg_es_regs (sel : Word) (d : Desc) : (s.loadSeg .es sel d).regs = s.regs := by simp [State.loadSeg]
@[simp] theorem State.loadSeg_es_ip (sel : Word) (d : Desc) : (s.loadSeg .es sel d).ip = s.ip := by simp [State.loadSeg]
@[simp] theorem State.loadSeg_es_flags (sel : Word) (d : Desc) : (s.loadSeg .es sel d).flags = s.flags := by simp [State.loadSeg]
@[simp] theorem State.loadSeg_es_cpl (sel : Word) (d : Desc) : (s.loadSeg .es sel d).cpl = s.cpl := by simp [State.loadSeg]
@[simp] theorem State.loadSeg_es_es (sel : Word) (d : Desc) : (s.loadSeg .es sel d).es = d.toSegReg sel := by
  simp [State.loadSeg]
@[simp] theorem State.loadSeg_es_cs (sel : Word) (d : Desc) : (s.loadSeg .es sel d).cs = s.cs := by simp [State.loadSeg]
@[simp] theorem State.loadSeg_es_ss (sel : Word) (d : Desc) : (s.loadSeg .es sel d).ss = s.ss := by simp [State.loadSeg]
@[simp] theorem State.loadSeg_es_ds (sel : Word) (d : Desc) : (s.loadSeg .es sel d).ds = s.ds := by simp [State.loadSeg]
@[simp] theorem State.loadSeg_es_idtr (sel : Word) (d : Desc) : (s.loadSeg .es sel d).idtr = s.idtr := by simp [State.loadSeg]
@[simp] theorem State.loadSeg_es_gdtr (sel : Word) (d : Desc) : (s.loadSeg .es sel d).gdtr = s.gdtr := by simp [State.loadSeg]
@[simp] theorem State.loadSeg_es_ldtr (sel : Word) (d : Desc) : (s.loadSeg .es sel d).ldtr = s.ldtr := by simp [State.loadSeg]
@[simp] theorem State.loadSeg_es_tr (sel : Word) (d : Desc) : (s.loadSeg .es sel d).tr = s.tr := by simp [State.loadSeg]
@[simp] theorem State.loadSeg_es_msw (sel : Word) (d : Desc) : (s.loadSeg .es sel d).msw = s.msw := by simp [State.loadSeg]
@[simp] theorem State.loadSeg_es_nmiInService (sel : Word) (d : Desc) : (s.loadSeg .es sel d).nmiInService = s.nmiInService := by simp [State.loadSeg]
@[simp] theorem State.loadSeg_es_nmiPending (sel : Word) (d : Desc) : (s.loadSeg .es sel d).nmiPending = s.nmiPending := by simp [State.loadSeg]
@[simp] theorem State.loadSeg_es_pic (sel : Word) (d : Desc) : (s.loadSeg .es sel d).pic = s.pic := by simp [State.loadSeg]
@[simp] theorem State.loadSeg_es_params (sel : Word) (d : Desc) : (s.loadSeg .es sel d).params = s.params := by simp [State.loadSeg]
@[simp] theorem State.loadSeg_es_inputs (sel : Word) (d : Desc) : (s.loadSeg .es sel d).inputs = s.inputs := by simp [State.loadSeg]
@[simp] theorem State.loadSeg_es_freeUsed (sel : Word) (d : Desc) : (s.loadSeg .es sel d).freeUsed = s.freeUsed := by simp [State.loadSeg]
@[simp] theorem State.loadSeg_es_launched (sel : Word) (d : Desc) : (s.loadSeg .es sel d).launched = s.launched := by simp [State.loadSeg]

/-! ### `loadSeg .cs` -/

@[simp] theorem State.loadSeg_cs_regs (sel : Word) (d : Desc) : (s.loadSeg .cs sel d).regs = s.regs := by simp [State.loadSeg]
@[simp] theorem State.loadSeg_cs_ip (sel : Word) (d : Desc) : (s.loadSeg .cs sel d).ip = s.ip := by simp [State.loadSeg]
@[simp] theorem State.loadSeg_cs_flags (sel : Word) (d : Desc) : (s.loadSeg .cs sel d).flags = s.flags := by simp [State.loadSeg]
@[simp] theorem State.loadSeg_cs_cpl (sel : Word) (d : Desc) : (s.loadSeg .cs sel d).cpl = s.cpl := by simp [State.loadSeg]
@[simp] theorem State.loadSeg_cs_es (sel : Word) (d : Desc) : (s.loadSeg .cs sel d).es = s.es := by simp [State.loadSeg]
@[simp] theorem State.loadSeg_cs_cs (sel : Word) (d : Desc) : (s.loadSeg .cs sel d).cs = d.toSegReg sel := by
  simp [State.loadSeg]
@[simp] theorem State.loadSeg_cs_ss (sel : Word) (d : Desc) : (s.loadSeg .cs sel d).ss = s.ss := by simp [State.loadSeg]
@[simp] theorem State.loadSeg_cs_ds (sel : Word) (d : Desc) : (s.loadSeg .cs sel d).ds = s.ds := by simp [State.loadSeg]
@[simp] theorem State.loadSeg_cs_idtr (sel : Word) (d : Desc) : (s.loadSeg .cs sel d).idtr = s.idtr := by simp [State.loadSeg]
@[simp] theorem State.loadSeg_cs_gdtr (sel : Word) (d : Desc) : (s.loadSeg .cs sel d).gdtr = s.gdtr := by simp [State.loadSeg]
@[simp] theorem State.loadSeg_cs_ldtr (sel : Word) (d : Desc) : (s.loadSeg .cs sel d).ldtr = s.ldtr := by simp [State.loadSeg]
@[simp] theorem State.loadSeg_cs_tr (sel : Word) (d : Desc) : (s.loadSeg .cs sel d).tr = s.tr := by simp [State.loadSeg]
@[simp] theorem State.loadSeg_cs_msw (sel : Word) (d : Desc) : (s.loadSeg .cs sel d).msw = s.msw := by simp [State.loadSeg]
@[simp] theorem State.loadSeg_cs_nmiInService (sel : Word) (d : Desc) : (s.loadSeg .cs sel d).nmiInService = s.nmiInService := by simp [State.loadSeg]
@[simp] theorem State.loadSeg_cs_nmiPending (sel : Word) (d : Desc) : (s.loadSeg .cs sel d).nmiPending = s.nmiPending := by simp [State.loadSeg]
@[simp] theorem State.loadSeg_cs_pic (sel : Word) (d : Desc) : (s.loadSeg .cs sel d).pic = s.pic := by simp [State.loadSeg]
@[simp] theorem State.loadSeg_cs_params (sel : Word) (d : Desc) : (s.loadSeg .cs sel d).params = s.params := by simp [State.loadSeg]
@[simp] theorem State.loadSeg_cs_inputs (sel : Word) (d : Desc) : (s.loadSeg .cs sel d).inputs = s.inputs := by simp [State.loadSeg]
@[simp] theorem State.loadSeg_cs_freeUsed (sel : Word) (d : Desc) : (s.loadSeg .cs sel d).freeUsed = s.freeUsed := by simp [State.loadSeg]
@[simp] theorem State.loadSeg_cs_launched (sel : Word) (d : Desc) : (s.loadSeg .cs sel d).launched = s.launched := by simp [State.loadSeg]

/-! ### `loadSeg .ss` -/

@[simp] theorem State.loadSeg_ss_regs (sel : Word) (d : Desc) : (s.loadSeg .ss sel d).regs = s.regs := by simp [State.loadSeg]
@[simp] theorem State.loadSeg_ss_ip (sel : Word) (d : Desc) : (s.loadSeg .ss sel d).ip = s.ip := by simp [State.loadSeg]
@[simp] theorem State.loadSeg_ss_flags (sel : Word) (d : Desc) : (s.loadSeg .ss sel d).flags = s.flags := by simp [State.loadSeg]
@[simp] theorem State.loadSeg_ss_cpl (sel : Word) (d : Desc) : (s.loadSeg .ss sel d).cpl = s.cpl := by simp [State.loadSeg]
@[simp] theorem State.loadSeg_ss_es (sel : Word) (d : Desc) : (s.loadSeg .ss sel d).es = s.es := by simp [State.loadSeg]
@[simp] theorem State.loadSeg_ss_cs (sel : Word) (d : Desc) : (s.loadSeg .ss sel d).cs = s.cs := by simp [State.loadSeg]
@[simp] theorem State.loadSeg_ss_ss (sel : Word) (d : Desc) : (s.loadSeg .ss sel d).ss = d.toSegReg sel := by
  simp [State.loadSeg]
@[simp] theorem State.loadSeg_ss_ds (sel : Word) (d : Desc) : (s.loadSeg .ss sel d).ds = s.ds := by simp [State.loadSeg]
@[simp] theorem State.loadSeg_ss_idtr (sel : Word) (d : Desc) : (s.loadSeg .ss sel d).idtr = s.idtr := by simp [State.loadSeg]
@[simp] theorem State.loadSeg_ss_gdtr (sel : Word) (d : Desc) : (s.loadSeg .ss sel d).gdtr = s.gdtr := by simp [State.loadSeg]
@[simp] theorem State.loadSeg_ss_ldtr (sel : Word) (d : Desc) : (s.loadSeg .ss sel d).ldtr = s.ldtr := by simp [State.loadSeg]
@[simp] theorem State.loadSeg_ss_tr (sel : Word) (d : Desc) : (s.loadSeg .ss sel d).tr = s.tr := by simp [State.loadSeg]
@[simp] theorem State.loadSeg_ss_msw (sel : Word) (d : Desc) : (s.loadSeg .ss sel d).msw = s.msw := by simp [State.loadSeg]
@[simp] theorem State.loadSeg_ss_nmiInService (sel : Word) (d : Desc) : (s.loadSeg .ss sel d).nmiInService = s.nmiInService := by simp [State.loadSeg]
@[simp] theorem State.loadSeg_ss_nmiPending (sel : Word) (d : Desc) : (s.loadSeg .ss sel d).nmiPending = s.nmiPending := by simp [State.loadSeg]
@[simp] theorem State.loadSeg_ss_pic (sel : Word) (d : Desc) : (s.loadSeg .ss sel d).pic = s.pic := by simp [State.loadSeg]
@[simp] theorem State.loadSeg_ss_params (sel : Word) (d : Desc) : (s.loadSeg .ss sel d).params = s.params := by simp [State.loadSeg]
@[simp] theorem State.loadSeg_ss_inputs (sel : Word) (d : Desc) : (s.loadSeg .ss sel d).inputs = s.inputs := by simp [State.loadSeg]
@[simp] theorem State.loadSeg_ss_freeUsed (sel : Word) (d : Desc) : (s.loadSeg .ss sel d).freeUsed = s.freeUsed := by simp [State.loadSeg]
@[simp] theorem State.loadSeg_ss_launched (sel : Word) (d : Desc) : (s.loadSeg .ss sel d).launched = s.launched := by simp [State.loadSeg]

/-! ### `loadSeg .ds` -/

@[simp] theorem State.loadSeg_ds_regs (sel : Word) (d : Desc) : (s.loadSeg .ds sel d).regs = s.regs := by simp [State.loadSeg]
@[simp] theorem State.loadSeg_ds_ip (sel : Word) (d : Desc) : (s.loadSeg .ds sel d).ip = s.ip := by simp [State.loadSeg]
@[simp] theorem State.loadSeg_ds_flags (sel : Word) (d : Desc) : (s.loadSeg .ds sel d).flags = s.flags := by simp [State.loadSeg]
@[simp] theorem State.loadSeg_ds_cpl (sel : Word) (d : Desc) : (s.loadSeg .ds sel d).cpl = s.cpl := by simp [State.loadSeg]
@[simp] theorem State.loadSeg_ds_es (sel : Word) (d : Desc) : (s.loadSeg .ds sel d).es = s.es := by simp [State.loadSeg]
@[simp] theorem State.loadSeg_ds_cs (sel : Word) (d : Desc) : (s.loadSeg .ds sel d).cs = s.cs := by simp [State.loadSeg]
@[simp] theorem State.loadSeg_ds_ss (sel : Word) (d : Desc) : (s.loadSeg .ds sel d).ss = s.ss := by simp [State.loadSeg]
@[simp] theorem State.loadSeg_ds_ds (sel : Word) (d : Desc) : (s.loadSeg .ds sel d).ds = d.toSegReg sel := by
  simp [State.loadSeg]
@[simp] theorem State.loadSeg_ds_idtr (sel : Word) (d : Desc) : (s.loadSeg .ds sel d).idtr = s.idtr := by simp [State.loadSeg]
@[simp] theorem State.loadSeg_ds_gdtr (sel : Word) (d : Desc) : (s.loadSeg .ds sel d).gdtr = s.gdtr := by simp [State.loadSeg]
@[simp] theorem State.loadSeg_ds_ldtr (sel : Word) (d : Desc) : (s.loadSeg .ds sel d).ldtr = s.ldtr := by simp [State.loadSeg]
@[simp] theorem State.loadSeg_ds_tr (sel : Word) (d : Desc) : (s.loadSeg .ds sel d).tr = s.tr := by simp [State.loadSeg]
@[simp] theorem State.loadSeg_ds_msw (sel : Word) (d : Desc) : (s.loadSeg .ds sel d).msw = s.msw := by simp [State.loadSeg]
@[simp] theorem State.loadSeg_ds_nmiInService (sel : Word) (d : Desc) : (s.loadSeg .ds sel d).nmiInService = s.nmiInService := by simp [State.loadSeg]
@[simp] theorem State.loadSeg_ds_nmiPending (sel : Word) (d : Desc) : (s.loadSeg .ds sel d).nmiPending = s.nmiPending := by simp [State.loadSeg]
@[simp] theorem State.loadSeg_ds_pic (sel : Word) (d : Desc) : (s.loadSeg .ds sel d).pic = s.pic := by simp [State.loadSeg]
@[simp] theorem State.loadSeg_ds_params (sel : Word) (d : Desc) : (s.loadSeg .ds sel d).params = s.params := by simp [State.loadSeg]
@[simp] theorem State.loadSeg_ds_inputs (sel : Word) (d : Desc) : (s.loadSeg .ds sel d).inputs = s.inputs := by simp [State.loadSeg]
@[simp] theorem State.loadSeg_ds_freeUsed (sel : Word) (d : Desc) : (s.loadSeg .ds sel d).freeUsed = s.freeUsed := by simp [State.loadSeg]
@[simp] theorem State.loadSeg_ds_launched (sel : Word) (d : Desc) : (s.loadSeg .ds sel d).launched = s.launched := by simp [State.loadSeg]

theorem State.setSeg_mem (n : SegName) (g : SegReg) : (s.setSeg n g).mem = s.mem := by cases n <;> rfl
theorem State.loadSeg_mem (n : SegName) (sel : Word) (d : Desc) : (s.loadSeg n sel d).mem = (s.markAccessed d).mem := by
  cases n <;> (unfold State.loadSeg State.markAccessed; split <;> rfl)

/-! ### `writeWords` -/

@[simp] theorem State.writeWords_regs (a : Addr) (ws : List Word) : (s.writeWords a ws).regs = s.regs := by
  induction ws generalizing s a with
  | nil => rfl
  | cons w ws ih => simp [State.writeWords, ih]
@[simp] theorem State.writeWords_ip (a : Addr) (ws : List Word) : (s.writeWords a ws).ip = s.ip := by
  induction ws generalizing s a with
  | nil => rfl
  | cons w ws ih => simp [State.writeWords, ih]
@[simp] theorem State.writeWords_flags (a : Addr) (ws : List Word) : (s.writeWords a ws).flags = s.flags := by
  induction ws generalizing s a with
  | nil => rfl
  | cons w ws ih => simp [State.writeWords, ih]
@[simp] theorem State.writeWords_cpl (a : Addr) (ws : List Word) : (s.writeWords a ws).cpl = s.cpl := by
  induction ws generalizing s a with
  | nil => rfl
  | cons w ws ih => simp [State.writeWords, ih]
@[simp] theorem State.writeWords_es (a : Addr) (ws : List Word) : (s.writeWords a ws).es = s.es := by
  induction ws generalizing s a with
  | nil => rfl
  | cons w ws ih => simp [State.writeWords, ih]
@[simp] theorem State.writeWords_cs (a : Addr) (ws : List Word) : (s.writeWords a ws).cs = s.cs := by
  induction ws generalizing s a with
  | nil => rfl
  | cons w ws ih => simp [State.writeWords, ih]
@[simp] theorem State.writeWords_ss (a : Addr) (ws : List Word) : (s.writeWords a ws).ss = s.ss := by
  induction ws generalizing s a with
  | nil => rfl
  | cons w ws ih => simp [State.writeWords, ih]
@[simp] theorem State.writeWords_ds (a : Addr) (ws : List Word) : (s.writeWords a ws).ds = s.ds := by
  induction ws generalizing s a with
  | nil => rfl
  | cons w ws ih => simp [State.writeWords, ih]
@[simp] theorem State.writeWords_idtr (a : Addr) (ws : List Word) : (s.writeWords a ws).idtr = s.idtr := by
  induction ws generalizing s a with
  | nil => rfl
  | cons w ws ih => simp [State.writeWords, ih]
@[simp] theorem State.writeWords_gdtr (a : Addr) (ws : List Word) : (s.writeWords a ws).gdtr = s.gdtr := by
  induction ws generalizing s a with
  | nil => rfl
  | cons w ws ih => simp [State.writeWords, ih]
@[simp] theorem State.writeWords_ldtr (a : Addr) (ws : List Word) : (s.writeWords a ws).ldtr = s.ldtr := by
  induction ws generalizing s a with
  | nil => rfl
  | cons w ws ih => simp [State.writeWords, ih]
@[simp] theorem State.writeWords_tr (a : Addr) (ws : List Word) : (s.writeWords a ws).tr = s.tr := by
  induction ws generalizing s a with
  | nil => rfl
  | cons w ws ih => simp [State.writeWords, ih]
@[simp] theorem State.writeWords_msw (a : Addr) (ws : List Word) : (s.writeWords a ws).msw = s.msw := by
  induction ws generalizing s a with
  | nil => rfl
  | cons w ws ih => simp [State.writeWords, ih]
@[simp] theorem State.writeWords_nmiInService (a : Addr) (ws : List Word) : (s.writeWords a ws).nmiInService = s.nmiInService := by
  induction ws generalizing s a with
  | nil => rfl
  | cons w ws ih => simp [State.writeWords, ih]
@[simp] theorem State.writeWords_nmiPending (a : Addr) (ws : List Word) : (s.writeWords a ws).nmiPending = s.nmiPending := by
  induction ws generalizing s a with
  | nil => rfl
  | cons w ws ih => simp [State.writeWords, ih]
@[simp] theorem State.writeWords_pic (a : Addr) (ws : List Word) : (s.writeWords a ws).pic = s.pic := by
  induction ws generalizing s a with
  | nil => rfl
  | cons w ws ih => simp [State.writeWords, ih]
@[simp] theorem State.writeWords_params (a : Addr) (ws : List Word) : (s.writeWords a ws).params = s.params := by
  induction ws generalizing s a with
  | nil => rfl
  | cons w ws ih => simp [State.writeWords, ih]
@[simp] theorem State.writeWords_inputs (a : Addr) (ws : List Word) : (s.writeWords a ws).inputs = s.inputs := by
  induction ws generalizing s a with
  | nil => rfl
  | cons w ws ih => simp [State.writeWords, ih]
@[simp] theorem State.writeWords_freeUsed (a : Addr) (ws : List Word) : (s.writeWords a ws).freeUsed = s.freeUsed := by
  induction ws generalizing s a with
  | nil => rfl
  | cons w ws ih => simp [State.writeWords, ih]
@[simp] theorem State.writeWords_launched (a : Addr) (ws : List Word) : (s.writeWords a ws).launched = s.launched := by
  induction ws generalizing s a with
  | nil => rfl
  | cons w ws ih => simp [State.writeWords, ih]

/-! ### `pushWords` -/

@[simp] theorem State.pushWords_ip (ws : List Word) : (s.pushWords ws).ip = s.ip := by
  induction ws generalizing s with
  | nil => rfl
  | cons w ws ih => simp [State.pushWords, ih]
@[simp] theorem State.pushWords_flags (ws : List Word) : (s.pushWords ws).flags = s.flags := by
  induction ws generalizing s with
  | nil => rfl
  | cons w ws ih => simp [State.pushWords, ih]
@[simp] theorem State.pushWords_cpl (ws : List Word) : (s.pushWords ws).cpl = s.cpl := by
  induction ws generalizing s with
  | nil => rfl
  | cons w ws ih => simp [State.pushWords, ih]
@[simp] theorem State.pushWords_es (ws : List Word) : (s.pushWords ws).es = s.es := by
  induction ws generalizing s with
  | nil => rfl
  | cons w ws ih => simp [State.pushWords, ih]
@[simp] theorem State.pushWords_cs (ws : List Word) : (s.pushWords ws).cs = s.cs := by
  induction ws generalizing s with
  | nil => rfl
  | cons w ws ih => simp [State.pushWords, ih]
@[simp] theorem State.pushWords_ss (ws : List Word) : (s.pushWords ws).ss = s.ss := by
  induction ws generalizing s with
  | nil => rfl
  | cons w ws ih => simp [State.pushWords, ih]
@[simp] theorem State.pushWords_ds (ws : List Word) : (s.pushWords ws).ds = s.ds := by
  induction ws generalizing s with
  | nil => rfl
  | cons w ws ih => simp [State.pushWords, ih]
@[simp] theorem State.pushWords_idtr (ws : List Word) : (s.pushWords ws).idtr = s.idtr := by
  induction ws generalizing s with
  | nil => rfl
  | cons w ws ih => simp [State.pushWords, ih]
@[simp] theorem State.pushWords_gdtr (ws : List Word) : (s.pushWords ws).gdtr = s.gdtr := by
  induction ws generalizing s with
  | nil => rfl
  | cons w ws ih => simp [State.pushWords, ih]
@[simp] theorem State.pushWords_ldtr (ws : List Word) : (s.pushWords ws).ldtr = s.ldtr := by
  induction ws generalizing s with
  | nil => rfl
  | cons w ws ih => simp [State.pushWords, ih]
@[simp] theorem State.pushWords_tr (ws : List Word) : (s.pushWords ws).tr = s.tr := by
  induction ws generalizing s with
  | nil => rfl
  | cons w ws ih => simp [State.pushWords, ih]
@[simp] theorem State.pushWords_msw (ws : List Word) : (s.pushWords ws).msw = s.msw := by
  induction ws generalizing s with
  | nil => rfl
  | cons w ws ih => simp [State.pushWords, ih]
@[simp] theorem State.pushWords_nmiInService (ws : List Word) : (s.pushWords ws).nmiInService = s.nmiInService := by
  induction ws generalizing s with
  | nil => rfl
  | cons w ws ih => simp [State.pushWords, ih]
@[simp] theorem State.pushWords_nmiPending (ws : List Word) : (s.pushWords ws).nmiPending = s.nmiPending := by
  induction ws generalizing s with
  | nil => rfl
  | cons w ws ih => simp [State.pushWords, ih]
@[simp] theorem State.pushWords_pic (ws : List Word) : (s.pushWords ws).pic = s.pic := by
  induction ws generalizing s with
  | nil => rfl
  | cons w ws ih => simp [State.pushWords, ih]
@[simp] theorem State.pushWords_params (ws : List Word) : (s.pushWords ws).params = s.params := by
  induction ws generalizing s with
  | nil => rfl
  | cons w ws ih => simp [State.pushWords, ih]
@[simp] theorem State.pushWords_inputs (ws : List Word) : (s.pushWords ws).inputs = s.inputs := by
  induction ws generalizing s with
  | nil => rfl
  | cons w ws ih => simp [State.pushWords, ih]
@[simp] theorem State.pushWords_freeUsed (ws : List Word) : (s.pushWords ws).freeUsed = s.freeUsed := by
  induction ws generalizing s with
  | nil => rfl
  | cons w ws ih => simp [State.pushWords, ih]
@[simp] theorem State.pushWords_launched (ws : List Word) : (s.pushWords ws).launched = s.launched := by
  induction ws generalizing s with
  | nil => rfl
  | cons w ws ih => simp [State.pushWords, ih]

/-! ### `enterTask` -/

@[simp] theorem State.enterTask_regs (new : Word) (d : Desc) : (s.enterTask new d).regs = s.regs := rfl
@[simp] theorem State.enterTask_ip (new : Word) (d : Desc) : (s.enterTask new d).ip = s.ip := rfl
@[simp] theorem State.enterTask_flags (new : Word) (d : Desc) : (s.enterTask new d).flags = s.flags := rfl
@[simp] theorem State.enterTask_cpl (new : Word) (d : Desc) : (s.enterTask new d).cpl = s.cpl := rfl
@[simp] theorem State.enterTask_es (new : Word) (d : Desc) : (s.enterTask new d).es = s.es := rfl
@[simp] theorem State.enterTask_cs (new : Word) (d : Desc) : (s.enterTask new d).cs = s.cs := rfl
@[simp] theorem State.enterTask_ss (new : Word) (d : Desc) : (s.enterTask new d).ss = s.ss := rfl
@[simp] theorem State.enterTask_ds (new : Word) (d : Desc) : (s.enterTask new d).ds = s.ds := rfl
@[simp] theorem State.enterTask_idtr (new : Word) (d : Desc) : (s.enterTask new d).idtr = s.idtr := rfl
@[simp] theorem State.enterTask_gdtr (new : Word) (d : Desc) : (s.enterTask new d).gdtr = s.gdtr := rfl
@[simp] theorem State.enterTask_ldtr (new : Word) (d : Desc) : (s.enterTask new d).ldtr = s.ldtr := rfl
@[simp] theorem State.enterTask_nmiInService (new : Word) (d : Desc) : (s.enterTask new d).nmiInService = s.nmiInService := rfl
@[simp] theorem State.enterTask_nmiPending (new : Word) (d : Desc) : (s.enterTask new d).nmiPending = s.nmiPending := rfl
@[simp] theorem State.enterTask_pic (new : Word) (d : Desc) : (s.enterTask new d).pic = s.pic := rfl
@[simp] theorem State.enterTask_mem (new : Word) (d : Desc) : (s.enterTask new d).mem = s.mem := rfl
@[simp] theorem State.enterTask_params (new : Word) (d : Desc) : (s.enterTask new d).params = s.params := rfl
@[simp] theorem State.enterTask_inputs (new : Word) (d : Desc) : (s.enterTask new d).inputs = s.inputs := rfl
@[simp] theorem State.enterTask_freeUsed (new : Word) (d : Desc) : (s.enterTask new d).freeUsed = s.freeUsed := rfl
@[simp] theorem State.enterTask_launched (new : Word) (d : Desc) : (s.enterTask new d).launched = s.launched := rfl

@[simp] theorem State.enterTask_tr (new : Word) (d : Desc) : (s.enterTask new d).tr = d.toSysSegReg new := rfl
@[simp] theorem State.enterTask_msw (new : Word) (d : Desc) : (s.enterTask new d).msw = s.msw ||| 0x0008#16 := rfl

/-! ### `loadTask` -/

@[simp] theorem State.loadTask_cpl (c : SwitchCause) (t : TssImage) : (s.loadTask c t).cpl = s.cpl := rfl
@[simp] theorem State.loadTask_es (c : SwitchCause) (t : TssImage) : (s.loadTask c t).es = s.es := rfl
@[simp] theorem State.loadTask_cs (c : SwitchCause) (t : TssImage) : (s.loadTask c t).cs = s.cs := rfl
@[simp] theorem State.loadTask_ss (c : SwitchCause) (t : TssImage) : (s.loadTask c t).ss = s.ss := rfl
@[simp] theorem State.loadTask_ds (c : SwitchCause) (t : TssImage) : (s.loadTask c t).ds = s.ds := rfl
@[simp] theorem State.loadTask_idtr (c : SwitchCause) (t : TssImage) : (s.loadTask c t).idtr = s.idtr := rfl
@[simp] theorem State.loadTask_gdtr (c : SwitchCause) (t : TssImage) : (s.loadTask c t).gdtr = s.gdtr := rfl
@[simp] theorem State.loadTask_ldtr (c : SwitchCause) (t : TssImage) : (s.loadTask c t).ldtr = s.ldtr := rfl
@[simp] theorem State.loadTask_tr (c : SwitchCause) (t : TssImage) : (s.loadTask c t).tr = s.tr := rfl
@[simp] theorem State.loadTask_msw (c : SwitchCause) (t : TssImage) : (s.loadTask c t).msw = s.msw := rfl
@[simp] theorem State.loadTask_nmiInService (c : SwitchCause) (t : TssImage) : (s.loadTask c t).nmiInService = s.nmiInService := rfl
@[simp] theorem State.loadTask_nmiPending (c : SwitchCause) (t : TssImage) : (s.loadTask c t).nmiPending = s.nmiPending := rfl
@[simp] theorem State.loadTask_pic (c : SwitchCause) (t : TssImage) : (s.loadTask c t).pic = s.pic := rfl
@[simp] theorem State.loadTask_mem (c : SwitchCause) (t : TssImage) : (s.loadTask c t).mem = s.mem := rfl
@[simp] theorem State.loadTask_params (c : SwitchCause) (t : TssImage) : (s.loadTask c t).params = s.params := rfl
@[simp] theorem State.loadTask_inputs (c : SwitchCause) (t : TssImage) : (s.loadTask c t).inputs = s.inputs := rfl
@[simp] theorem State.loadTask_freeUsed (c : SwitchCause) (t : TssImage) : (s.loadTask c t).freeUsed = s.freeUsed := rfl
@[simp] theorem State.loadTask_launched (c : SwitchCause) (t : TssImage) : (s.loadTask c t).launched = s.launched := rfl

@[simp] theorem State.loadTask_ip (c : SwitchCause) (t : TssImage) : (s.loadTask c t).ip = t.ip := rfl
@[simp] theorem State.loadTask_regs (c : SwitchCause) (t : TssImage) : (s.loadTask c t).regs = t.regs := rfl

/-! ### `launch` -/

@[simp] theorem State.launch_regs  : (s.launch).regs = s.regs := rfl
@[simp] theorem State.launch_ip  : (s.launch).ip = s.ip := rfl
@[simp] theorem State.launch_flags  : (s.launch).flags = s.flags := rfl
@[simp] theorem State.launch_cpl  : (s.launch).cpl = s.cpl := rfl
@[simp] theorem State.launch_es  : (s.launch).es = s.es := rfl
@[simp] theorem State.launch_cs  : (s.launch).cs = s.cs := rfl
@[simp] theorem State.launch_ss  : (s.launch).ss = s.ss := rfl
@[simp] theorem State.launch_ds  : (s.launch).ds = s.ds := rfl
@[simp] theorem State.launch_idtr  : (s.launch).idtr = s.idtr := rfl
@[simp] theorem State.launch_gdtr  : (s.launch).gdtr = s.gdtr := rfl
@[simp] theorem State.launch_ldtr  : (s.launch).ldtr = s.ldtr := rfl
@[simp] theorem State.launch_tr  : (s.launch).tr = s.tr := rfl
@[simp] theorem State.launch_msw  : (s.launch).msw = s.msw := rfl
@[simp] theorem State.launch_nmiInService  : (s.launch).nmiInService = s.nmiInService := rfl
@[simp] theorem State.launch_nmiPending  : (s.launch).nmiPending = s.nmiPending := rfl
@[simp] theorem State.launch_pic  : (s.launch).pic = s.pic := rfl
@[simp] theorem State.launch_mem  : (s.launch).mem = s.mem := rfl
@[simp] theorem State.launch_params  : (s.launch).params = s.params := rfl
@[simp] theorem State.launch_inputs  : (s.launch).inputs = s.inputs := rfl
@[simp] theorem State.launch_freeUsed  : (s.launch).freeUsed = s.freeUsed := rfl

@[simp] theorem State.launch_launched : s.launch.launched = true := rfl

/-! ### `beginNmiService` -/

@[simp] theorem State.beginNmiService_regs  : (s.beginNmiService).regs = s.regs := rfl
@[simp] theorem State.beginNmiService_ip  : (s.beginNmiService).ip = s.ip := rfl
@[simp] theorem State.beginNmiService_flags  : (s.beginNmiService).flags = s.flags := rfl
@[simp] theorem State.beginNmiService_cpl  : (s.beginNmiService).cpl = s.cpl := rfl
@[simp] theorem State.beginNmiService_es  : (s.beginNmiService).es = s.es := rfl
@[simp] theorem State.beginNmiService_cs  : (s.beginNmiService).cs = s.cs := rfl
@[simp] theorem State.beginNmiService_ss  : (s.beginNmiService).ss = s.ss := rfl
@[simp] theorem State.beginNmiService_ds  : (s.beginNmiService).ds = s.ds := rfl
@[simp] theorem State.beginNmiService_idtr  : (s.beginNmiService).idtr = s.idtr := rfl
@[simp] theorem State.beginNmiService_gdtr  : (s.beginNmiService).gdtr = s.gdtr := rfl
@[simp] theorem State.beginNmiService_ldtr  : (s.beginNmiService).ldtr = s.ldtr := rfl
@[simp] theorem State.beginNmiService_tr  : (s.beginNmiService).tr = s.tr := rfl
@[simp] theorem State.beginNmiService_msw  : (s.beginNmiService).msw = s.msw := rfl
@[simp] theorem State.beginNmiService_pic  : (s.beginNmiService).pic = s.pic := rfl
@[simp] theorem State.beginNmiService_mem  : (s.beginNmiService).mem = s.mem := rfl
@[simp] theorem State.beginNmiService_params  : (s.beginNmiService).params = s.params := rfl
@[simp] theorem State.beginNmiService_inputs  : (s.beginNmiService).inputs = s.inputs := rfl
@[simp] theorem State.beginNmiService_freeUsed  : (s.beginNmiService).freeUsed = s.freeUsed := rfl
@[simp] theorem State.beginNmiService_launched  : (s.beginNmiService).launched = s.launched := rfl

@[simp] theorem State.beginNmiService_nmiPending : s.beginNmiService.nmiPending = false := rfl
@[simp] theorem State.beginNmiService_nmiInService : s.beginNmiService.nmiInService = true := rfl

/-! ### `arrive` -/

@[simp] theorem State.arrive_regs  : (s.arrive).regs = s.regs := rfl
@[simp] theorem State.arrive_ip  : (s.arrive).ip = s.ip := rfl
@[simp] theorem State.arrive_flags  : (s.arrive).flags = s.flags := rfl
@[simp] theorem State.arrive_cpl  : (s.arrive).cpl = s.cpl := rfl
@[simp] theorem State.arrive_es  : (s.arrive).es = s.es := rfl
@[simp] theorem State.arrive_cs  : (s.arrive).cs = s.cs := rfl
@[simp] theorem State.arrive_ss  : (s.arrive).ss = s.ss := rfl
@[simp] theorem State.arrive_ds  : (s.arrive).ds = s.ds := rfl
@[simp] theorem State.arrive_idtr  : (s.arrive).idtr = s.idtr := rfl
@[simp] theorem State.arrive_gdtr  : (s.arrive).gdtr = s.gdtr := rfl
@[simp] theorem State.arrive_ldtr  : (s.arrive).ldtr = s.ldtr := rfl
@[simp] theorem State.arrive_tr  : (s.arrive).tr = s.tr := rfl
@[simp] theorem State.arrive_msw  : (s.arrive).msw = s.msw := rfl
@[simp] theorem State.arrive_nmiInService  : (s.arrive).nmiInService = s.nmiInService := rfl
@[simp] theorem State.arrive_mem  : (s.arrive).mem = s.mem := rfl
@[simp] theorem State.arrive_params  : (s.arrive).params = s.params := rfl
@[simp] theorem State.arrive_freeUsed  : (s.arrive).freeUsed = s.freeUsed := rfl
@[simp] theorem State.arrive_launched  : (s.arrive).launched = s.launched := rfl

/-! ### `storeBytes` -/

@[simp] theorem State.storeBytes_regs (a : Addr) (bs : List Byte) : (s.storeBytes a bs).regs = s.regs := by
  induction bs generalizing s a with
  | nil => rfl
  | cons b bs ih => simp [State.storeBytes, ih]
@[simp] theorem State.storeBytes_ip (a : Addr) (bs : List Byte) : (s.storeBytes a bs).ip = s.ip := by
  induction bs generalizing s a with
  | nil => rfl
  | cons b bs ih => simp [State.storeBytes, ih]
@[simp] theorem State.storeBytes_flags (a : Addr) (bs : List Byte) : (s.storeBytes a bs).flags = s.flags := by
  induction bs generalizing s a with
  | nil => rfl
  | cons b bs ih => simp [State.storeBytes, ih]
@[simp] theorem State.storeBytes_cpl (a : Addr) (bs : List Byte) : (s.storeBytes a bs).cpl = s.cpl := by
  induction bs generalizing s a with
  | nil => rfl
  | cons b bs ih => simp [State.storeBytes, ih]
@[simp] theorem State.storeBytes_es (a : Addr) (bs : List Byte) : (s.storeBytes a bs).es = s.es := by
  induction bs generalizing s a with
  | nil => rfl
  | cons b bs ih => simp [State.storeBytes, ih]
@[simp] theorem State.storeBytes_cs (a : Addr) (bs : List Byte) : (s.storeBytes a bs).cs = s.cs := by
  induction bs generalizing s a with
  | nil => rfl
  | cons b bs ih => simp [State.storeBytes, ih]
@[simp] theorem State.storeBytes_ss (a : Addr) (bs : List Byte) : (s.storeBytes a bs).ss = s.ss := by
  induction bs generalizing s a with
  | nil => rfl
  | cons b bs ih => simp [State.storeBytes, ih]
@[simp] theorem State.storeBytes_ds (a : Addr) (bs : List Byte) : (s.storeBytes a bs).ds = s.ds := by
  induction bs generalizing s a with
  | nil => rfl
  | cons b bs ih => simp [State.storeBytes, ih]
@[simp] theorem State.storeBytes_idtr (a : Addr) (bs : List Byte) : (s.storeBytes a bs).idtr = s.idtr := by
  induction bs generalizing s a with
  | nil => rfl
  | cons b bs ih => simp [State.storeBytes, ih]
@[simp] theorem State.storeBytes_gdtr (a : Addr) (bs : List Byte) : (s.storeBytes a bs).gdtr = s.gdtr := by
  induction bs generalizing s a with
  | nil => rfl
  | cons b bs ih => simp [State.storeBytes, ih]
@[simp] theorem State.storeBytes_ldtr (a : Addr) (bs : List Byte) : (s.storeBytes a bs).ldtr = s.ldtr := by
  induction bs generalizing s a with
  | nil => rfl
  | cons b bs ih => simp [State.storeBytes, ih]
@[simp] theorem State.storeBytes_tr (a : Addr) (bs : List Byte) : (s.storeBytes a bs).tr = s.tr := by
  induction bs generalizing s a with
  | nil => rfl
  | cons b bs ih => simp [State.storeBytes, ih]
@[simp] theorem State.storeBytes_msw (a : Addr) (bs : List Byte) : (s.storeBytes a bs).msw = s.msw := by
  induction bs generalizing s a with
  | nil => rfl
  | cons b bs ih => simp [State.storeBytes, ih]
@[simp] theorem State.storeBytes_nmiInService (a : Addr) (bs : List Byte) : (s.storeBytes a bs).nmiInService = s.nmiInService := by
  induction bs generalizing s a with
  | nil => rfl
  | cons b bs ih => simp [State.storeBytes, ih]
@[simp] theorem State.storeBytes_nmiPending (a : Addr) (bs : List Byte) : (s.storeBytes a bs).nmiPending = s.nmiPending := by
  induction bs generalizing s a with
  | nil => rfl
  | cons b bs ih => simp [State.storeBytes, ih]
@[simp] theorem State.storeBytes_pic (a : Addr) (bs : List Byte) : (s.storeBytes a bs).pic = s.pic := by
  induction bs generalizing s a with
  | nil => rfl
  | cons b bs ih => simp [State.storeBytes, ih]
@[simp] theorem State.storeBytes_params (a : Addr) (bs : List Byte) : (s.storeBytes a bs).params = s.params := by
  induction bs generalizing s a with
  | nil => rfl
  | cons b bs ih => simp [State.storeBytes, ih]
@[simp] theorem State.storeBytes_inputs (a : Addr) (bs : List Byte) : (s.storeBytes a bs).inputs = s.inputs := by
  induction bs generalizing s a with
  | nil => rfl
  | cons b bs ih => simp [State.storeBytes, ih]
@[simp] theorem State.storeBytes_freeUsed (a : Addr) (bs : List Byte) : (s.storeBytes a bs).freeUsed = s.freeUsed := by
  induction bs generalizing s a with
  | nil => rfl
  | cons b bs ih => simp [State.storeBytes, ih]
@[simp] theorem State.storeBytes_launched (a : Addr) (bs : List Byte) : (s.storeBytes a bs).launched = s.launched := by
  induction bs generalizing s a with
  | nil => rfl
  | cons b bs ih => simp [State.storeBytes, ih]

end Sys2Proof.Machine
end

