-- ==== Sys2Proof/Laws/Memory.lean ====
section
/-! SUPPORT. Main memory: a read after a write to the same address gives the value written, a write leaves
every other address alone, and every operation keeps the canonical form. -/

namespace Sys2Proof.Machine

/-! ### Lists of cells -/

theorem readCells_removeCells_same (l : List Host.Cell) (a : Nat) : readCells (removeCells l a) a = Config.blankByte := by
  induction l with
  | nil => rfl
  | cons c l ih =>
    obtain ⟨b, v⟩ := c
    by_cases h : b = a <;> simp [removeCells, readCells, h, ih]

theorem readCells_removeCells_other (l : List Host.Cell) (a c : Nat) (h : c ≠ a) :
    readCells (removeCells l a) c = readCells l c := by
  induction l with
  | nil => rfl
  | cons x l ih =>
    obtain ⟨b, v⟩ := x
    by_cases hb : b = a
    · simp [removeCells, readCells, hb, ih, Ne.symm h]
    · by_cases hc : b = c
      · subst hc; simp [removeCells, readCells, hb]
      · simp [removeCells, readCells, hb, hc, ih]

theorem readCells_insertCell_other (l : List Host.Cell) (a c : Nat) (v : Byte) (h : c ≠ a) :
    readCells (insertCell l a v) c = readCells l c := by
  induction l with
  | nil => simp [insertCell, readCells, Ne.symm h]
  | cons x l ih =>
    obtain ⟨b, w⟩ := x
    by_cases hb : a < b
    · simp [insertCell, readCells, hb, Ne.symm h]
    · by_cases hc : b = c
      · subst hc; simp [insertCell, readCells, hb]
      · simp [insertCell, readCells, hb, hc, ih]

theorem readCells_insertCell_removeCells (l : List Host.Cell) (a : Nat) (v : Byte) :
    readCells (insertCell (removeCells l a) a v) a = v := by
  induction l with
  | nil => simp [removeCells, insertCell, readCells]
  | cons x l ih =>
    obtain ⟨b, w⟩ := x
    by_cases hb : b = a
    · simpa [removeCells, hb] using ih
    · by_cases hl : a < b <;> simp [removeCells, insertCell, readCells, hb, hl, ih]

theorem cellsRiseFrom_weaken {lo lo' : Nat} (h : lo' ≤ lo) {l : List Host.Cell} (hl : cellsRiseFrom lo l = true) :
    cellsRiseFrom lo' l = true := by
  cases l with
  | nil => rfl
  | cons c l =>
    obtain ⟨a, v⟩ := c
    simp only [cellsRiseFrom, Bool.and_eq_true, decide_eq_true_eq] at hl ⊢
    exact ⟨⟨⟨by omega, hl.1.1.2⟩, hl.1.2⟩, hl.2⟩

theorem cellsRiseFrom_removeCells (l : List Host.Cell) (lo a : Nat) (hl : cellsRiseFrom lo l = true) :
    cellsRiseFrom lo (removeCells l a) = true := by
  induction l generalizing lo with
  | nil => rfl
  | cons c l ih =>
    obtain ⟨b, v⟩ := c
    simp only [cellsRiseFrom, Bool.and_eq_true, decide_eq_true_eq] at hl
    by_cases h : b = a
    · simpa [removeCells, h] using cellsRiseFrom_weaken (by omega : lo ≤ a + 1) (h ▸ ih (b + 1) hl.2)
    · simp only [removeCells, h, if_false, cellsRiseFrom, Bool.and_eq_true, decide_eq_true_eq]
      exact ⟨hl.1, ih (b + 1) hl.2⟩

theorem cellsRiseFrom_insertCell (l : List Host.Cell) (lo a : Nat) (v : Byte) (hl : cellsRiseFrom lo l = true)
    (hlo : lo ≤ a) (ha : a < 2 ^ 24) (hv : v ≠ Config.blankByte) (hfree : removeCells l a = l) :
    cellsRiseFrom lo (insertCell l a v) = true := by
  induction l generalizing lo with
  | nil => simp [insertCell, cellsRiseFrom, hlo, hv]; omega
  | cons c l ih =>
    obtain ⟨b, w⟩ := c
    simp only [cellsRiseFrom, Bool.and_eq_true, decide_eq_true_eq] at hl
    have hb : b ≠ a := by
      rintro rfl
      have hlen := congrArg List.length hfree
      have : ∀ (m : List Host.Cell), (removeCells m b).length ≤ m.length := by
        intro m
        induction m with
        | nil => simp [removeCells]
        | cons x m ihm => obtain ⟨p, q⟩ := x; by_cases hp : p = b <;> simp [removeCells, hp] <;> omega
      have := this l
      simp [removeCells] at hlen
      omega
    have hrest : removeCells l a = l := by simpa [removeCells, hb] using hfree
    by_cases hlt : a < b
    · simp only [insertCell, hlt, if_true, cellsRiseFrom, Bool.and_eq_true, decide_eq_true_eq, bne_iff_ne]
      simp only [bne_iff_ne] at hl
      exact ⟨⟨⟨hlo, ha⟩, hv⟩, ⟨⟨⟨by omega, hl.1.1.2⟩, hl.1.2⟩, hl.2⟩⟩
    · simp only [insertCell, hlt, if_false, cellsRiseFrom, Bool.and_eq_true, decide_eq_true_eq]
      exact ⟨hl.1, ih (b + 1) hl.2 (by omega) hrest⟩

theorem removeCells_removeCells (l : List Host.Cell) (a : Nat) : removeCells (removeCells l a) a = removeCells l a := by
  induction l with
  | nil => rfl
  | cons c l ih =>
    obtain ⟨b, v⟩ := c
    by_cases h : b = a <;> simp [removeCells, h, ih]

/-! ### Memory -/

@[simp] theorem Memory.read_write_same (m : Memory) (a : Addr) (v : Byte) : (m.write a v).read a = v := by
  unfold Memory.write Memory.read
  split
  · rename_i h
    simp [readCells_removeCells_same, h]
  · exact readCells_insertCell_removeCells _ _ _

theorem Memory.read_write_other (m : Memory) (a c : Addr) (v : Byte) (h : c ≠ a) : (m.write a v).read c = m.read c := by
  have h' : c.toNat ≠ a.toNat := fun e => h (BitVec.eq_of_toNat_eq e)
  unfold Memory.write Memory.read
  split
  · exact readCells_removeCells_other _ _ _ h'
  · simp only
    rw [readCells_insertCell_other _ _ _ _ h', readCells_removeCells_other _ _ _ h']

/-- Every byte after a write: the written one at its address, the old one elsewhere. -/
theorem Memory.read_write (m : Memory) (a c : Addr) (v : Byte) :
    (m.write a v).read c = if c = a then v else m.read c := by
  split
  · rename_i h; subst h; exact m.read_write_same _ _
  · rename_i h; exact m.read_write_other _ _ _ h

/-- A write keeps the canonical form. -/
theorem Memory.write_wf (m : Memory) (a : Addr) (v : Byte) (h : m.wf = true) : (m.write a v).wf = true := by
  unfold Memory.write Memory.wf at *
  split
  · exact cellsRiseFrom_removeCells _ _ _ h
  · rename_i hv
    exact cellsRiseFrom_insertCell _ _ _ _ (cellsRiseFrom_removeCells _ _ _ h) (Nat.zero_le _) a.isLt hv
      (removeCells_removeCells _ _)

/-- The memory after reset is in canonical form. -/
theorem reset_mem_wf : State.reset.mem.wf = true := by decide

/-! ### The state's memory -/

theorem State.read8_write8 (s : State) (a c : Addr) (v : Byte) :
    (s.write8 a v).read8 c = if c = a then v else s.read8 c := s.mem.read_write a c v

theorem State.read8_write16 (s : State) (a c : Addr) (v : Word) :
    (s.write16 a v).read8 c = if c = a + 1#24 then highByte v else if c = a then lowByte v else s.read8 c := by
  unfold State.write16
  rw [State.read8_write8, State.read8_write8]

theorem State.write16_mem_wf (s : State) (a : Addr) (v : Word) (h : s.mem.wf = true) : (s.write16 a v).mem.wf = true :=
  Memory.write_wf _ _ _ (Memory.write_wf _ _ _ h)

theorem wordOf_high_low (w : Word) : wordOf (highByte w) (lowByte w) = w := by
  unfold wordOf highByte lowByte
  apply BitVec.eq_of_getLsbD_eq
  intro i hi
  rw [BitVec.getLsbD_append]
  split
  · simp [*]
  · rw [BitVec.getLsbD_extractLsb']
    have : 8 + (i - 8) = i := by omega
    simp [this]
    omega

@[simp] theorem lowByte_wordOf (h l : Byte) : lowByte (wordOf h l) = l := by
  unfold wordOf lowByte
  apply BitVec.eq_of_getLsbD_eq
  intro i hi
  rw [BitVec.getLsbD_extractLsb', BitVec.getLsbD_append]
  simp [hi]

@[simp] theorem highByte_wordOf (h l : Byte) : highByte (wordOf h l) = h := by
  unfold wordOf highByte
  apply BitVec.eq_of_getLsbD_eq
  intro i hi
  rw [BitVec.getLsbD_extractLsb', BitVec.getLsbD_append]
  simp [hi]

theorem State.read16_write16_same (s : State) (a : Addr) (v : Word) : (s.write16 a v).read16 a = v := by
  unfold State.read16
  rw [State.read8_write16, State.read8_write16]
  simp [wordOf_high_low]

/-- A word read at a distance of at least two bytes from a written word is unchanged. -/
theorem State.read16_write16_apart (s : State) (a c : Addr) (v : Word) (h1 : c ≠ a) (h2 : c ≠ a + 1#24) (h3 : c + 1#24 ≠ a) :
    (s.write16 a v).read16 c = s.read16 c := by
  have h4 : c + 1#24 ≠ a + 1#24 := fun e => h1 (by bv_omega)
  unfold State.read16
  simp [State.read8_write16, h1, h2, h3, h4]

/-- Reads depend on memory alone. -/
theorem State.read8_congr {s t : State} (h : t.mem = s.mem) (a : Addr) : t.read8 a = s.read8 a := by
  unfold State.read8; rw [h]

theorem State.read16_congr {s t : State} (h : t.mem = s.mem) (a : Addr) : t.read16 a = s.read16 a := by
  unfold State.read16; rw [State.read8_congr h, State.read8_congr h]

theorem State.descAt_congr {s t : State} (h : t.mem = s.mem) (a : Addr) : t.descAt a = s.descAt a := by
  unfold State.descAt; simp only [State.read8_congr h]

theorem State.readDesc_congr {s t : State} (hm : t.mem = s.mem) (hg : t.gdtr = s.gdtr) (hl : t.ldtr = s.ldtr)
    (sel : Word) : t.readDesc sel = s.readDesc sel := by
  unfold State.readDesc; simp only [State.descAt_congr hm, hg, hl]

end Sys2Proof.Machine
end

