-- ==== Sys2Proof/Laws/Moves.lean ====
section
/-! SUPPORT. What no procedure of the processor touches: the table registers IDTR and GDTR, the NMI bits, the
8259, the parameters and the model's own fields; and that each keeps MSW.PE and the canonical form of memory.
One lemma for each shared operation, whether it completes or fails. -/

namespace Sys2Proof.Machine

/-- The move from `s` to `t` touches nothing that delivery, the task switch and the segment loads leave
alone. -/
structure CpuMove (s t : State) : Prop where
  idtr : t.idtr = s.idtr
  gdtr : t.gdtr = s.gdtr
  nmiInService : t.nmiInService = s.nmiInService
  nmiPending : t.nmiPending = s.nmiPending
  pic : t.pic = s.pic
  params : t.params = s.params
  inputs : t.inputs = s.inputs
  freeUsed : t.freeUsed = s.freeUsed
  launched : t.launched = s.launched
  pe : t.msw.getLsbD 0 = s.msw.getLsbD 0
  mem : s.mem.wf = true → t.mem.wf = true

theorem CpuMove.refl (s : State) : CpuMove s s := ⟨rfl, rfl, rfl, rfl, rfl, rfl, rfl, rfl, rfl, rfl, id⟩

theorem CpuMove.trans {s t u : State} (h : CpuMove s t) (k : CpuMove t u) : CpuMove s u where
  idtr := k.idtr.trans h.idtr
  gdtr := k.gdtr.trans h.gdtr
  nmiInService := k.nmiInService.trans h.nmiInService
  nmiPending := k.nmiPending.trans h.nmiPending
  pic := k.pic.trans h.pic
  params := k.params.trans h.params
  inputs := k.inputs.trans h.inputs
  freeUsed := k.freeUsed.trans h.freeUsed
  launched := k.launched.trans h.launched
  pe := k.pe.trans h.pe
  mem := k.mem ∘ h.mem

/-- A property of the state an attempt answers or leaves. -/
def Attempt.all (P : State → Prop) : Attempt → Prop
  | .ok u => P u
  | .error f => P f.left

theorem Attempt.all_ok {P : State → Prop} {u : State} : Attempt.all P (.ok u) ↔ P u := Iff.rfl
theorem Attempt.all_error {P : State → Prop} {f : Failure} : Attempt.all P (.error f) ↔ P f.left := Iff.rfl

theorem Attempt.all_bind {P : State → Prop} {r : Attempt} {f : State → Attempt} (h : Attempt.all P r)
    (k : ∀ u, P u → Attempt.all P (f u)) : Attempt.all P (r >>= f) := by
  cases r with
  | ok u => exact k u h
  | error g => exact h

/-! ### Elementary updates -/

theorem move_write8 (s : State) (a : Addr) (v : Byte) : CpuMove s (s.write8 a v) :=
  ⟨rfl, rfl, rfl, rfl, rfl, rfl, rfl, rfl, rfl, rfl, Memory.write_wf _ _ _⟩

theorem move_write16 (s : State) (a : Addr) (v : Word) : CpuMove s (s.write16 a v) :=
  (move_write8 s _ _).trans (move_write8 _ _ _)

theorem move_setSp (s : State) (v : Word) : CpuMove s (s.setSp v) :=
  ⟨rfl, rfl, rfl, rfl, rfl, rfl, rfl, rfl, rfl, rfl, id⟩

theorem move_setSeg (s : State) (n : SegName) (g : SegReg) : CpuMove s (s.setSeg n g) := by
  cases n <;> exact ⟨rfl, rfl, rfl, rfl, rfl, rfl, rfl, rfl, rfl, rfl, id⟩

theorem move_setIp (s : State) (v : Word) : CpuMove s (s.setIp v) :=
  ⟨rfl, rfl, rfl, rfl, rfl, rfl, rfl, rfl, rfl, rfl, id⟩

theorem move_setFlags (s : State) (v : Word) : CpuMove s (s.setFlags v) :=
  ⟨rfl, rfl, rfl, rfl, rfl, rfl, rfl, rfl, rfl, rfl, id⟩

theorem move_setCpl (s : State) (k : Level) : CpuMove s (s.setCpl k) :=
  ⟨rfl, rfl, rfl, rfl, rfl, rfl, rfl, rfl, rfl, rfl, id⟩

theorem move_pushWord (s : State) (v : Word) : CpuMove s (s.pushWord v) :=
  (move_write16 s _ _).trans (move_setSp _ _)

theorem move_pushWords (s : State) (ws : List Word) : CpuMove s (s.pushWords ws) := by
  induction ws generalizing s with
  | nil => exact .refl s
  | cons w ws ih => exact (move_pushWord s w).trans (ih _)

theorem move_writeWords (s : State) (a : Addr) (ws : List Word) : CpuMove s (s.writeWords a ws) := by
  induction ws generalizing s a with
  | nil => exact .refl s
  | cons w ws ih => exact (move_write16 s a w).trans (ih _ _)

theorem move_markAccessed (s : State) (d : Desc) : CpuMove s (s.markAccessed d) := by
  unfold State.markAccessed
  split
  · exact .refl s
  · exact move_write8 _ _ _

theorem move_loadSeg (s : State) (n : SegName) (sel : Word) (d : Desc) : CpuMove s (s.loadSeg n sel d) :=
  (move_setSeg s n _).trans (move_markAccessed _ _)

theorem move_pushErr (s : State) (err : Option Word) : CpuMove s (s.pushErr err) := by
  cases err with
  | none => exact .refl s
  | some e => exact move_pushWord s e

/-! ### The task switch -/

theorem move_saveTask (s : State) (c : SwitchCause) (r : Word) : CpuMove s (s.saveTask c r) := move_writeWords _ _ _

theorem move_switchBusy (s : State) (c : SwitchCause) (d : Desc) : CpuMove s (s.switchBusy c d) := by
  cases c <;> exact move_write8 _ _ _

theorem move_linkBack (s : State) (c : SwitchCause) (d : Desc) : CpuMove s (s.linkBack c d) := by
  cases c
  · exact move_write16 _ _ _
  · exact .refl s

theorem move_enterTask (s : State) (new : Word) (d : Desc) : CpuMove s (s.enterTask new d) :=
  ⟨rfl, rfl, rfl, rfl, rfl, rfl, rfl, rfl, rfl, by simp [State.enterTask], id⟩

theorem move_leaveTask (s : State) (new : Word) (d : Desc) (c : SwitchCause) (r : Word) :
    CpuMove s (s.leaveTask new d c r) :=
  (((move_saveTask s c r).trans (move_switchBusy _ c d)).trans (move_linkBack _ c d)).trans (move_enterTask _ new d)

theorem move_loadTask (s : State) (c : SwitchCause) (t : TssImage) : CpuMove s (s.loadTask c t) :=
  ⟨rfl, rfl, rfl, rfl, rfl, rfl, rfl, rfl, rfl, rfl, id⟩

theorem move_loadLdt (s : State) (ldt : Word) : Attempt.all (CpuMove s) (s.loadLdt ldt) := by
  unfold State.loadLdt
  split
  · exact ⟨rfl, rfl, rfl, rfl, rfl, rfl, rfl, rfl, rfl, rfl, id⟩
  split
  · exact .refl s
  split
  · exact .refl s
  split
  · exact ⟨rfl, rfl, rfl, rfl, rfl, rfl, rfl, rfl, rfl, rfl, id⟩
  · exact .refl s

theorem move_loadTaskCs (s : State) (cs : Word) : Attempt.all (CpuMove s) (s.loadTaskCs cs) := by
  have h : CpuMove s (s.setCpl (selRpl cs)) := move_setCpl s _
  unfold State.loadTaskCs
  split
  · exact h
  split
  · split
    · exact h.trans (move_loadSeg _ _ _ _)
    · exact h
  · exact h

theorem move_loadTaskSs (s : State) (ss : Word) : Attempt.all (CpuMove s) (s.loadTaskSs ss) := by
  unfold State.loadTaskSs
  split
  · exact .refl s
  split
  · split
    · exact move_loadSeg _ _ _ _
    · exact .refl s
  · exact .refl s

theorem move_loadTaskData (s : State) (n : SegName) (sel : Word) : Attempt.all (CpuMove s) (s.loadTaskData n sel) := by
  unfold State.loadTaskData
  split
  · exact move_setSeg _ _ _
  split
  · exact .refl s
  split
  · split
    · exact move_loadSeg _ _ _ _
    · exact .refl s
  · exact .refl s

theorem move_checkTaskIp (s : State) : Attempt.all (CpuMove s) s.checkTaskIp := by
  unfold State.checkTaskIp
  split <;> exact .refl s

/-- Attempts compose: what `f` keeps from its own start, the composition keeps from `s`. -/
theorem move_bind {s : State} {r : Attempt} {f : State → Attempt} (h : Attempt.all (CpuMove s) r)
    (k : ∀ u, Attempt.all (CpuMove u) (f u)) : Attempt.all (CpuMove s) (r >>= f) := by
  refine Attempt.all_bind h fun u hu => ?_
  have := k u
  revert this
  cases f u with
  | ok v => exact fun hv => hu.trans hv
  | error g => exact fun hv => hu.trans hv

theorem move_loadTaskSegments (s : State) (t : TssImage) : Attempt.all (CpuMove s) (s.loadTaskSegments t) := by
  unfold State.loadTaskSegments
  exact move_bind (move_loadLdt _ _) fun _ => move_bind (move_loadTaskCs _ _) fun _ =>
    move_bind (move_loadTaskSs _ _) fun _ => move_bind (move_loadTaskData _ _ _) fun _ =>
    move_bind (move_loadTaskData _ _ _) fun _ => move_checkTaskIp _

theorem move_taskSwitch (s : State) (new : Word) (d : Desc) (c : SwitchCause) (r : Word) :
    Attempt.all (CpuMove s) (s.taskSwitch new d c r) := by
  unfold State.taskSwitch
  split
  · exact .refl s
  · have h := (move_leaveTask s new d c r).trans (move_loadTask _ c ((s.leaveTask new d c r).readTss d.base))
    have k := move_loadTaskSegments ((s.leaveTask new d c r).loadTask c ((s.leaveTask new d c r).readTss d.base))
      ((s.leaveTask new d c r).readTss d.base)
    revert k
    simp only
    generalize State.loadTaskSegments _ _ = res
    cases res with
    | ok v => exact fun hv => h.trans hv
    | error g => exact fun hv => h.trans hv

/-! ### Delivery -/

theorem move_enterHandler (s : State) (sel : Word) (d : Desc) (off : Word) (k : Level) (err : Option Word) (c : Bool) :
    CpuMove s (s.enterHandler sel d off k err c) := by
  unfold State.enterHandler
  exact ((((move_loadSeg s _ _ _).trans (move_setIp _ _)).trans (move_setCpl _ _)).trans (move_pushErr _ _)).trans
    (move_setFlags _ _)

theorem move_enterGate (s : State) (en : GateEntry) (r : Word) (err : Option Word) (c : Bool) :
    CpuMove s (s.enterGate en r err c) := by
  cases en with
  | same sel d off => exact (move_pushWords _ _).trans (move_enterHandler _ _ _ _ _ _ _)
  | inner sel d off newSs newSp e =>
    exact (((move_loadSeg s _ _ _).trans (move_setSp _ _)).trans (move_pushWords _ _)).trans
      (move_enterHandler _ _ _ _ _ _ _)

/-- A failed check of `IdtLookup` leaves the state as it was. -/
theorem idtLookup_left {s : State} {v : Byte} {k : EventKind} {f : Failure} (h : s.idtLookup v k = .error f) :
    f.left = s := by
  unfold State.idtLookup at h
  simp only at h
  split at h
  · cases h; rfl
  split at h
  · cases h; rfl
  split at h
  · cases h; rfl
  split at h
  · cases h; rfl
  · cases h

theorem checkSame_left {s : State} {sel : Word} {d : Desc} {off : Word} {err : Option Word} {f : Failure}
    (h : s.checkSame sel d off err = .error f) : f.left = s := by
  unfold State.checkSame at h
  split at h
  · cases h; rfl
  split at h
  · cases h; rfl
  · cases h

theorem checkInner_left {s : State} {sel : Word} {d : Desc} {off : Word} {err : Option Word} {f : Failure}
    (h : s.checkInner sel d off err = .error f) : f.left = s := by
  unfold State.checkInner at h
  simp only at h
  split at h
  · cases h; rfl
  split at h
  · cases h; rfl
  split at h
  · cases h; rfl
  iterate 6
    split at h
    · cases h; rfl
  cases h

/-- A failed check of `GatePath` leaves the state as it was. -/
theorem checkGate_left {s : State} {g : Desc} {err : Option Word} {f : Failure} (h : s.checkGate g err = .error f) :
    f.left = s := by
  unfold State.checkGate at h
  simp only at h
  split at h
  · cases h; rfl
  split at h
  · cases h; rfl
  split at h
  · cases h; rfl
  split at h
  · cases h; rfl
  split at h
  · exact checkInner_left h
  split at h
  · exact checkSame_left h
  · cases h; rfl

theorem move_gatePath (s : State) (g : Desc) (r : Word) (err : Option Word) (c : Bool) :
    Attempt.all (CpuMove s) (s.gatePath g r err c) := by
  unfold State.gatePath
  split
  · rename_i f h
    exact (checkGate_left h) ▸ CpuMove.refl s
  · exact move_enterGate _ _ _ _ _

theorem move_push16 (s : State) (v : Word) : Attempt.all (CpuMove s) (s.push16 v) := by
  unfold State.push16
  split
  · exact move_pushWord _ _
  · exact .refl s

theorem move_pushTaskErr (s : State) (err : Option Word) : Attempt.all (CpuMove s) (s.pushTaskErr err) := by
  cases err with
  | none => exact CpuMove.refl s
  | some e => exact move_push16 s e

theorem move_taskGatePath (s : State) (g : Desc) (r : Word) (err : Option Word) :
    Attempt.all (CpuMove s) (s.taskGatePath g r err) := by
  unfold State.taskGatePath
  simp only
  split
  · exact .refl s
  split
  · exact .refl s
  split
  · exact .refl s
  split
  · exact .refl s
  rename_i t _ _ _
  have h := move_taskSwitch s g.gateSelector t .nest r
  revert h
  cases s.taskSwitch g.gateSelector t .nest r with
  | error f => exact id
  | ok u =>
    intro h
    have k := move_pushTaskErr u err
    revert k
    simp only
    cases u.pushTaskErr err with
    | ok w => exact fun hw => h.trans hw
    | error f => exact fun hw => h.trans hw

/-- Everything a delivery keeps, whether it completes or fails (R98, R110). -/
theorem move_deliver (s : State) (v : Byte) (k : EventKind) (r : Word) (err : Option Word) :
    Attempt.all (CpuMove s) (s.deliver v k r err) := by
  unfold State.deliver
  split
  · rename_i f h
    exact (idtLookup_left h) ▸ CpuMove.refl s
  split
  · exact move_taskGatePath _ _ _ _
  · exact move_gatePath _ _ _ _ _

/-! ### Return -/

theorem checkReturnCs_left {s : State} {cs : Word} {k : Level} {f : Failure} (h : s.checkReturnCs cs k = .error f) :
    f.left = s := by
  unfold State.checkReturnCs at h
  split at h
  · cases h; rfl
  split at h
  · cases h; rfl
  iterate 3
    split at h
    · cases h; rfl
  cases h

theorem checkReturnSs_left {s : State} {ss : Word} {k : Level} {f : Failure} (h : s.checkReturnSs ss k = .error f) :
    f.left = s := by
  unfold State.checkReturnSs at h
  split at h
  · cases h; rfl
  split at h
  · cases h; rfl
  iterate 4
    split at h
    · cases h; rfl
  cases h

theorem move_returnSameLevel (s : State) (ip cs img : Word) : Attempt.all (CpuMove s) (s.returnSameLevel ip cs img) := by
  unfold State.returnSameLevel
  split
  · rename_i f h
    exact checkReturnCs_left h ▸ CpuMove.refl s
  split
  · exact .refl s
  exact (((move_loadSeg s _ _ _).trans (move_setIp _ _)).trans (move_setFlags _ _)).trans (move_setSp _ _)

theorem move_leaveLevel (s : State) (ip cs img sp ss : Word) (d e : Desc) :
    CpuMove s (s.leaveLevel ip cs img sp ss d e) := by
  unfold State.leaveLevel
  exact (((((move_loadSeg s _ _ _).trans (move_setIp _ _)).trans (move_setFlags _ _)).trans
    (move_loadSeg _ _ _ _)).trans (move_setSp _ _)).trans (move_setCpl _ _)

theorem move_cleanData (s : State) (k : Level) : CpuMove s (s.cleanData k) :=
  (move_setSeg s _ _).trans (move_setSeg _ _ _)

theorem move_returnOuterLevel (s : State) (ip cs img : Word) :
    Attempt.all (CpuMove s) (s.returnOuterLevel ip cs img) := by
  unfold State.returnOuterLevel
  split
  · exact .refl s
  split
  · rename_i f h
    exact checkReturnCs_left h ▸ CpuMove.refl s
  split
  · rename_i f h
    exact checkReturnSs_left h ▸ CpuMove.refl s
  split
  · exact .refl s
  exact (move_leaveLevel _ _ _ _ _ _ _ _).trans (move_cleanData _ _)

theorem move_taskReturn (s : State) : Attempt.all (CpuMove s) s.taskReturn := by
  unfold State.taskReturn
  simp only
  split
  · exact .refl s
  split
  · exact .refl s
  split
  · exact .refl s
  split
  · exact .refl s
  exact move_taskSwitch _ _ _ _ _

theorem move_stackReturn (s : State) : Attempt.all (CpuMove s) s.stackReturn := by
  unfold State.stackReturn
  split
  · exact .refl s
  simp only
  split
  · exact .refl s
  split
  · exact move_returnSameLevel _ _ _ _
  · exact move_returnOuterLevel _ _ _ _

end Sys2Proof.Machine
end

