-- ==== Sys2Proof/Laws/Ops.lean ====
section
/-! SUPPORT. What each shared operation does when it answers a state: one lemma for each, in both directions
where it has one outcome, so that no later proof unfolds its chain of tests. -/

namespace Sys2Proof.Machine

/-! ### Small facts about tests -/

theorem readDesc_some_not_null {s : State} {sel : Word} {d : Desc} (h : s.readDesc sel = some d) : selNull sel = false := by
  unfold State.readDesc at h
  split at h
  · cases h
  · simpa using ‹¬ selNull sel = true›

theorem word_not_lt {a b : Word} : ¬ a < b ↔ b ≤ a := BitVec.not_lt

/-! ### Checks of an entry -/

/-- `IdtLookup` answers the entry of the vector, and only if the entry may be used (R99). -/
theorem idtLookup_ok {s : State} {v : Byte} {k : EventKind} {g : Desc} :
    s.idtLookup v k = .ok g ↔ s.gateOpen v k = true ∧ g = s.idtEntry v := by
  unfold State.idtLookup State.gateOpen
  constructor
  · intro h
    simp only at h
    iterate 4
      split at h
      · cases h
    injection h with h
    refine ⟨?_, h.symm⟩
    clear h
    by_cases k = .software <;> simp_all
  · rintro ⟨h, rfl⟩
    simp only [Bool.and_eq_true, Bool.or_eq_true, decide_eq_true_eq] at h
    obtain ⟨⟨⟨h1, h2⟩, h3⟩, h4⟩ := h
    have h1' : ¬ s.idtr.limit.toNat < 8 * v.toNat + 7 := by omega
    have h3' : (decide (k = .software) && decide (arDpl (s.idtEntry v).ar < s.cpl)) = false := by
      rcases h3 with h3 | h3
      · simp [h3]
      · simp [BitVec.not_lt.mpr h3]
    simp [h1', h2, h3', h4]

theorem checkSame_ok {s : State} {sel : Word} {d : Desc} {off : Word} {err : Option Word} {en : GateEntry} :
    s.checkSame sel d off err = .ok en ↔
      frameFits s.ss s.regs.sp (frameWords 3 err) = true ∧ off ≤ d.limit ∧ en = .same sel d off := by
  unfold State.checkSame
  constructor
  · intro h
    split at h
    · cases h
    split at h
    · cases h
    cases h
    simp_all
  · rintro ⟨h1, h2, rfl⟩
    simp [h1, BitVec.not_lt.mpr h2]

theorem checkInner_ok {s : State} {sel : Word} {d : Desc} {off : Word} {err : Option Word} {en : GateEntry} :
    s.checkInner sel d off err = .ok en ↔
      ∃ newSs newSp e, s.innerStackAt (arDpl d.ar) newSs newSp e = true ∧
        frameFits (e.toSegReg newSs) newSp (frameWords 5 err) = true ∧ off ≤ d.limit ∧
        en = .inner sel d off newSs newSp e := by
  have ha : ∀ k : Level, s.tr.base + 4#24 + 4#24 * k.setWidth 24 = s.innerStackAddr k + 2#24 := by
    intro k; unfold State.innerStackAddr; bv_omega
  have hb : ∀ k : Level, s.tr.base + 2#24 + 4#24 * k.setWidth 24 = s.innerStackAddr k := fun _ => rfl
  unfold State.checkInner State.innerStackAt
  simp only [ha, hb]
  generalize s.read16 (s.innerStackAddr (arDpl d.ar)) = sp0
  generalize s.read16 (s.innerStackAddr (arDpl d.ar) + 2#24) = ss0
  constructor
  · intro h
    split at h
    · cases h
    split at h
    · cases h
    split at h
    · cases h
    rename_i e he
    iterate 6
      split at h
      · cases h
    cases h
    refine ⟨ss0, sp0, e, ?_, ?_, ?_, rfl⟩ <;> simp_all
  · rintro ⟨newSs, newSp, e, h, hf, ho, rfl⟩
    simp only [Bool.and_eq_true, beq_iff_eq, decide_eq_true_eq] at h
    obtain ⟨⟨⟨⟨⟨⟨⟨h1, rfl⟩, rfl⟩, h4⟩, h5⟩, h6⟩, h7⟩, h8⟩ := h
    have hn := readDesc_some_not_null h4
    have h1' : ¬ s.tr.limit.toNat < 4 + 4 * (arDpl d.ar).toNat + 1 := by omega
    simp [h1', hn, h4, h5, h6, h7, h8, hf, ho]

/-- The checks of `GatePath` answer an entry on the present stack or on an inner one (R101 to R105). -/
theorem checkGate_ok {s : State} {g : Desc} {err : Option Word} {en : GateEntry} :
    s.checkGate g err = .ok en ↔
      ∃ d, s.handlerAt g d = true ∧
        ((arConforming d.ar = false ∧ arDpl d.ar < s.cpl ∧
            ∃ newSs newSp e, s.innerStackAt (arDpl d.ar) newSs newSp e = true ∧
              frameFits (e.toSegReg newSs) newSp (frameWords 5 err) = true ∧
              en = .inner g.gateSelector d g.gateOffset newSs newSp e) ∨
          (arCodeFits d.ar s.cpl = true ∧ frameFits s.ss s.regs.sp (frameWords 3 err) = true ∧
            en = .same g.gateSelector d g.gateOffset)) := by
  unfold State.checkGate State.handlerAt
  constructor
  · intro h
    simp only at h
    split at h
    · cases h
    split at h
    · cases h
    rename_i d hd
    split at h
    · cases h
    split at h
    · cases h
    refine ⟨d, ?_⟩
    split at h
    · obtain ⟨a, b, e, h1, h2, h3, h4⟩ := checkInner_ok.mp h
      simp_all
    split at h
    · obtain ⟨h1, h2, h3⟩ := checkSame_ok.mp h
      simp_all
    · cases h
  · rintro ⟨d, hd, h⟩
    simp only [Bool.and_eq_true, beq_iff_eq, decide_eq_true_eq] at hd
    obtain ⟨⟨⟨h1, h2⟩, h3⟩, h4⟩ := hd
    have hn := readDesc_some_not_null h1
    rcases h with ⟨hc, hl, a, b, e, hi, hf, rfl⟩ | ⟨hc, hf, rfl⟩
    · have := (checkInner_ok (s := s) (sel := g.gateSelector) (d := d) (off := g.gateOffset) (err := err)).mpr
        ⟨a, b, e, hi, hf, h4, rfl⟩
      simpa [hn, h1, h2, h3, hc, hl] using this
    · have := (checkSame_ok (s := s) (sel := g.gateSelector) (d := d) (off := g.gateOffset) (err := err)).mpr
        ⟨hf, h4, rfl⟩
      have hx : (!arConforming d.ar && decide (arDpl d.ar < s.cpl)) = false := by
        unfold arCodeFits at hc
        split at hc
        · simp [*]
        · have : arDpl d.ar = s.cpl := by simpa using hc
          simp [this]
      simpa [hn, h1, h2, h3, hx, hc] using this

theorem gatePath_ok {s u : State} {g : Desc} {r : Word} {err : Option Word} {c : Bool} :
    s.gatePath g r err c = .ok u ↔ ∃ en, s.checkGate g err = .ok en ∧ u = s.enterGate en r err c := by
  unfold State.gatePath
  cases s.checkGate g err with
  | error f => simp
  | ok en => simp [eq_comm (a := u)]

theorem push16_ok {s u : State} {v : Word} :
    s.push16 v = .ok u ↔ segWriteOk s.ss (s.regs.sp - 2#16) 2 = true ∧ u = s.pushWord v := by
  unfold State.push16
  split <;> simp_all [eq_comm (a := u)]

theorem pushTaskErr_none (s : State) : s.pushTaskErr none = .ok s := rfl

/-- A task gate leads to a task switch, and the error code to the incoming task's stack (R109). -/
theorem taskGatePath_ok {s u : State} {g : Desc} {r : Word} {err : Option Word} :
    s.taskGatePath g r err = .ok u ↔
      selTi g.gateSelector = false ∧ ∃ d, s.readDesc g.gateSelector = some d ∧ d.isAvailableTss = true ∧
        arPresent d.ar = true ∧ ∃ w, s.taskSwitch g.gateSelector d .nest r = .ok w ∧ w.pushTaskErr err = .ok u := by
  unfold State.taskGatePath
  constructor
  · intro h
    simp only at h
    split at h
    · cases h
    split at h
    · cases h
    rename_i d hd
    split at h
    · cases h
    split at h
    · cases h
    split at h
    · cases h
    rename_i w hw
    simp_all
  · rintro ⟨h1, d, h2, h3, h4, w, h5, h6⟩
    simp [h1, h2, h3, h4, h5, h6]

/-- `TaskSwitch` answers the incoming task once its TSS is large enough and its segments load (R110). -/
theorem taskSwitch_ok {s t : State} {new : Word} {d : Desc} {c : SwitchCause} {r : Word} :
    s.taskSwitch new d c r = .ok t ↔
      tssMinLimit ≤ d.limit ∧
        ((s.leaveTask new d c r).loadTask c ((s.leaveTask new d c r).readTss d.base)).loadTaskSegments
          ((s.leaveTask new d c r).readTss d.base) = .ok t := by
  unfold State.taskSwitch
  split
  · simp_all
  · simp_all

theorem deliver_gate {s : State} {v : Byte} {k : EventKind} {r : Word} {err : Option Word} (h : s.gateOpen v k = true) :
    s.deliver v k r err =
      if (s.idtEntry v).isTaskGate then s.taskGatePath (s.idtEntry v) r err
      else s.gatePath (s.idtEntry v) r err (s.idtEntry v).isInterruptGate := by
  unfold State.deliver
  rw [idtLookup_ok.mpr ⟨h, rfl⟩]

/-- A delivery completes only through an open gate, by the gate's own path (R98). -/
theorem deliver_ok {s u : State} {v : Byte} {k : EventKind} {r : Word} {err : Option Word} :
    s.deliver v k r err = .ok u ↔
      s.gateOpen v k = true ∧
        (((s.idtEntry v).isTaskGate = true ∧ s.taskGatePath (s.idtEntry v) r err = .ok u) ∨
          ((s.idtEntry v).isTaskGate = false ∧
            s.gatePath (s.idtEntry v) r err (s.idtEntry v).isInterruptGate = .ok u)) := by
  constructor
  · intro h
    have hg : s.gateOpen v k = true := by
      unfold State.deliver at h
      split at h
      · cases h
      · rename_i g hg; exact (idtLookup_ok.mp hg).1
    refine ⟨hg, ?_⟩
    rw [deliver_gate hg] at h
    by_cases ht : (s.idtEntry v).isTaskGate = true <;> simp_all
  · rintro ⟨hg, ⟨ht, h⟩ | ⟨ht, h⟩⟩ <;> rw [deliver_gate hg] <;> simp [ht, h]

/-- An interrupt or trap gate is no task gate. -/
theorem procedureGate_not_task {s : State} {v : Byte} (h : s.procedureGate v = true) : (s.idtEntry v).isTaskGate = false := by
  unfold State.procedureGate Desc.isInterruptGate Desc.isTrapGate at h
  unfold Desc.isTaskGate
  simp only [Bool.or_eq_true, Bool.and_eq_true, beq_iff_eq] at h
  rcases h with ⟨_, h⟩ | ⟨_, h⟩ <;> simp [h]

/-- A software interrupt instruction is the delivery of its event (R71, R72, R73). -/
theorem exec_softwareEvent {s : State} {i : Instr} {v : Byte} {r : Word} (h : softwareEvent s i = some (v, r)) :
    exec i s = settle false (s.deliver v .software r none) := by
  cases i with
  | intN n => cases h; rfl
  | int3 => cases h; rfl
  | into =>
    simp only [softwareEvent] at h
    split at h
    · cases h
      simp [exec, execInto, *]
    · cases h
  | iret => cases h
  | lidt m => cases h
  | movR8Imm8 r v => cases h
  | movR16Imm16 r v => cases h
  | outDxAl => cases h

/-! ### Loading a task -/

theorem loadLdt_ok {s t : State} {ldt : Word} (h : s.loadLdt ldt = .ok t) :
    (selNull ldt = true ∧ t = { s with ldtr := { sel := ldt, base := 0#24, limit := 0#16 } }) ∨
    (selTi ldt = false ∧ ∃ d, s.readDesc ldt = some d ∧ d.isLdt = true ∧ arPresent d.ar = true ∧
      t = { s with ldtr := d.toSysSegReg ldt }) := by
  unfold State.loadLdt at h
  split at h
  · cases h; exact .inl ⟨‹_›, rfl⟩
  split at h
  · cases h
  split at h
  · cases h
  split at h
  · cases h; simp_all
  · cases h

theorem loadTaskCs_ok {s t : State} {cs : Word} :
    s.loadTaskCs cs = .ok t ↔ ∃ d, s.readDesc cs = some d ∧ arIsCode d.ar = true ∧ arCodeFits d.ar (selRpl cs) = true ∧
      arPresent d.ar = true ∧ t = (s.setCpl (selRpl cs)).loadSeg .cs cs d := by
  unfold State.loadTaskCs
  cases s.readDesc cs with
  | none => simp
  | some d =>
    by_cases h1 : arIsCode d.ar = true <;> by_cases h2 : arCodeFits d.ar (selRpl cs) = true <;>
      by_cases h3 : arPresent d.ar = true <;> simp [h1, h2, h3, eq_comm (a := t)]

theorem loadTaskSs_ok {s t : State} {ss : Word} :
    s.loadTaskSs ss = .ok t ↔ ∃ e, s.readDesc ss = some e ∧ selRpl ss = s.cpl ∧ arWritable e.ar = true ∧
      arDpl e.ar = s.cpl ∧ arPresent e.ar = true ∧ t = s.loadSeg .ss ss e := by
  unfold State.loadTaskSs
  cases s.readDesc ss with
  | none => simp
  | some d =>
    by_cases h1 : selRpl ss = s.cpl <;> by_cases h2 : arWritable d.ar = true <;> by_cases h4 : arDpl d.ar = s.cpl <;>
      by_cases h3 : arPresent d.ar = true <;> simp [h1, h2, h3, h4, eq_comm (a := t)]

theorem loadTaskData_ok {s t : State} {n : SegName} {sel : Word} :
    s.loadTaskData n sel = .ok t ↔
      (selNull sel = true ∧ t = s.setSeg n ((s.seg n).asNull sel)) ∨
      ∃ d, s.readDesc sel = some d ∧ dataSegFits d.ar s.cpl (selRpl sel) = true ∧ arPresent d.ar = true ∧
        t = s.loadSeg n sel d := by
  unfold State.loadTaskData
  by_cases h0 : selNull sel = true
  · have : s.readDesc sel = none := by unfold State.readDesc; simp [h0]
    simp [h0, this, eq_comm (a := t)]
  cases s.readDesc sel with
  | none => simp [h0]
  | some d =>
    by_cases h1 : dataSegFits d.ar s.cpl (selRpl sel) = true <;> by_cases h3 : arPresent d.ar = true <;>
      simp [h0, h1, h3, eq_comm (a := t)]

theorem checkTaskIp_ok {s t : State} : s.checkTaskIp = .ok t ↔ s.ip ≤ s.cs.limit ∧ t = s := by
  unfold State.checkTaskIp
  split <;> simp_all [eq_comm (a := t)]

/-- Steps 8 to 10 of R110 one after the other. -/
theorem loadTaskSegments_ok {s t : State} {img : TssImage} :
    s.loadTaskSegments img = .ok t ↔
      ∃ a b c d, s.loadLdt img.ldt = .ok a ∧ a.loadTaskCs img.cs = .ok b ∧ b.loadTaskSs img.ss = .ok c ∧
        c.loadTaskData .ds img.ds = .ok d ∧ d.loadTaskData .es img.es = .ok t ∧ t.ip ≤ t.cs.limit := by
  unfold State.loadTaskSegments
  cases h1 : s.loadLdt img.ldt with
  | error f => simp [bind, Except.bind]
  | ok a =>
    cases h2 : a.loadTaskCs img.cs with
    | error f => simp [bind, Except.bind, h2]
    | ok b =>
      cases h3 : b.loadTaskSs img.ss with
      | error f => simp [bind, Except.bind, h2, h3]
      | ok c =>
        cases h4 : c.loadTaskData .ds img.ds with
        | error f => simp [bind, Except.bind, h2, h3, h4]
        | ok d =>
          cases h5 : d.loadTaskData .es img.es with
          | error f => simp [bind, Except.bind, h2, h3, h4, h5]
          | ok e =>
            simp only [bind, Except.bind, h2, h3, h4, h5, checkTaskIp_ok]
            constructor
            · rintro ⟨h, rfl⟩; exact ⟨a, b, c, d, rfl, h2, h3, h4, h5, h⟩
            · rintro ⟨a', b', c', d', ha, hb, hc, hd, he, h⟩
              cases ha
              rw [h2] at hb; cases hb
              rw [h3] at hc; cases hc
              rw [h4] at hd; cases hd
              rw [h5] at he; cases he
              exact ⟨h, rfl⟩

/-! ### Returning -/

theorem checkReturnCs_ok {s : State} {cs : Word} {k : Level} {d : Desc} :
    s.checkReturnCs cs k = .ok d ↔
      s.readDesc cs = some d ∧ arIsCode d.ar = true ∧ arCodeFits d.ar k = true ∧ arPresent d.ar = true := by
  unfold State.checkReturnCs
  constructor
  · intro h
    split at h
    · cases h
    split at h
    · cases h
    iterate 3
      split at h
      · cases h
    cases h
    simp_all
  · rintro ⟨h1, h2, h3, h4⟩
    simp [readDesc_some_not_null h1, h1, h2, h3, h4]

theorem checkReturnSs_ok {s : State} {ss : Word} {k : Level} {e : Desc} :
    s.checkReturnSs ss k = .ok e ↔ s.returnStackAt ss k e = true := by
  unfold State.checkReturnSs State.returnStackAt
  constructor
  · intro h
    split at h
    · cases h
    split at h
    · cases h
    iterate 4
      split at h
      · cases h
    cases h
    simp_all
  · intro h
    simp only [Bool.and_eq_true, beq_iff_eq] at h
    obtain ⟨⟨⟨⟨h1, h2⟩, h3⟩, h4⟩, h5⟩ := h
    simp [readDesc_some_not_null h1, h1, h2, h3, h4, h5]

theorem returnCodeAt_iff {s : State} {cs ip : Word} {k : Level} {d : Desc} :
    s.returnCodeAt cs ip k d = true ↔ s.checkReturnCs cs k = .ok d ∧ ip ≤ d.limit := by
  rw [checkReturnCs_ok]
  unfold State.returnCodeAt
  simp only [Bool.and_eq_true, beq_iff_eq, decide_eq_true_eq]
  tauto

theorem returnSameLevel_ok {s t : State} {ip cs img : Word} :
    s.returnSameLevel ip cs img = .ok t ↔
      ∃ d, s.returnCodeAt cs ip s.cpl d = true ∧
        t = (((s.loadSeg .cs cs d).setIp ip).setFlags (s.returnFlags img)).setSp (s.regs.sp + 6#16) := by
  unfold State.returnSameLevel
  simp only [returnCodeAt_iff]
  constructor
  · intro h
    split at h
    · cases h
    rename_i d hd
    split at h
    · cases h
    cases h
    exact ⟨d, ⟨hd, BitVec.not_lt.mp ‹_›⟩, rfl⟩
  · rintro ⟨d, ⟨h1, h2⟩, rfl⟩
    simp [h1, BitVec.not_lt.mpr h2]

theorem returnOuterLevel_ok {s t : State} {ip cs img : Word} :
    s.returnOuterLevel ip cs img = .ok t ↔
      segReadOk s.ss (s.regs.sp + 6#16) 2 = true ∧ segReadOk s.ss (s.regs.sp + 8#16) 2 = true ∧
      ∃ d e, s.returnCodeAt cs ip (selRpl cs) d = true ∧
        s.returnStackAt (s.stackWord 8#16) (selRpl cs) e = true ∧
        t = (s.leaveLevel ip cs img (s.stackWord 6#16) (s.stackWord 8#16) d e).cleanData (selRpl cs) := by
  unfold State.returnOuterLevel
  simp only [returnCodeAt_iff, ← checkReturnSs_ok]
  constructor
  · intro h
    split at h
    · cases h
    rename_i h0
    split at h
    · cases h
    rename_i d hd
    split at h
    · cases h
    rename_i e he
    split at h
    · cases h
    cases h
    simp only [Bool.not_eq_true', Bool.not_eq_false, Bool.and_eq_true] at h0
    exact ⟨h0.1, h0.2, d, e, ⟨hd, BitVec.not_lt.mp ‹_›⟩, he, rfl⟩
  · rintro ⟨ha, hb, d, e, ⟨h1, h2⟩, h3, rfl⟩
    simp [ha, hb, h1, h3, BitVec.not_lt.mpr h2]

theorem taskReturn_ok {s t : State} :
    s.taskReturn = .ok t ↔
      selTi (s.read16 s.tr.base) = false ∧ ∃ d, s.readDesc (s.read16 s.tr.base) = some d ∧ d.isBusyTss = true ∧
        arPresent d.ar = true ∧ s.taskSwitch (s.read16 s.tr.base) d .iret (s.ip + 1#16) = .ok t := by
  unfold State.taskReturn
  generalize s.read16 s.tr.base = link
  by_cases h1 : selTi link = true
  · simp [h1]
  cases h2 : s.readDesc link with
  | none => simp [h1, h2]
  | some d => by_cases h3 : d.isBusyTss = true <;> by_cases h4 : arPresent d.ar = true <;> simp [h1, h2, h3, h4]

theorem stackReturn_ok {s t : State} :
    s.stackReturn = .ok t ↔
      s.frameReadable = true ∧
        ((selRpl (s.stackWord 2#16) = s.cpl ∧
            s.returnSameLevel (s.stackWord 0#16) (s.stackWord 2#16) (s.stackWord 4#16) = .ok t) ∨
          (s.cpl < selRpl (s.stackWord 2#16) ∧
            s.returnOuterLevel (s.stackWord 0#16) (s.stackWord 2#16) (s.stackWord 4#16) = .ok t)) := by
  unfold State.stackReturn State.frameReadable
  generalize s.stackWord 2#16 = cs
  by_cases h0 : (segReadOk s.ss s.regs.sp 2 && segReadOk s.ss (s.regs.sp + 2#16) 2 && segReadOk s.ss (s.regs.sp + 4#16) 2) = true
  · by_cases h1 : selRpl cs < s.cpl
    · have h2 : selRpl cs ≠ s.cpl := fun e => by simp [e] at h1
      have h3 : ¬ s.cpl < selRpl cs := by bv_omega
      simp [h0, h1, h2, h3]
    · by_cases h2 : selRpl cs = s.cpl
      · simp [h0, h2]
      · have h3 : s.cpl < selRpl cs := by bv_omega
        simp [h0, h1, h2, h3]
  · simp [h0]

/-- An IRET completes by the return that NT chooses, and re-opens the NMI input (R75, R81). -/
theorem returnFromInterrupt_ok {s t : State} :
    s.returnFromInterrupt = .ok t ↔
      ∃ u, (if flagNt s.flags then s.taskReturn else s.stackReturn) = .ok u ∧ t = u.endNmiService := by
  unfold State.returnFromInterrupt
  generalize (if flagNt s.flags then s.taskReturn else s.stackReturn) = r
  cases r with
  | error f => simp
  | ok u => simp [eq_comm (a := t)]

/-! ### The outcome -/

/-- A failed check delivered as an exception completes only by a delivery (R114). -/
theorem deliverException_next {f : Failure} {ext : Bool} {t : State} (h : f.deliverException ext = .next t) :
    ∃ (u : State) (v : Byte) (err : Option Word), u.deliver v .exception u.ip err = .ok t ∧
      (u = f.left ∨ ∃ g, f.left.deliver f.vector .exception f.left.ip (f.errorCode ext) = .error g ∧ u = g.left) := by
  unfold Failure.deliverException at h
  split at h
  · cases h
    exact ⟨f.left, _, _, ‹_›, .inl rfl⟩
  · rename_i g hg
    split at h
    · cases h
      exact ⟨g.left, _, _, ‹_›, .inr ⟨g, hg, rfl⟩⟩
    · cases h

/-- A machine that stops at failed checks completes only where nothing failed (R9, R114). -/
theorem settle_next {ext : Bool} {r : Attempt} {t : State} (h : settle ext r = .next t) :
    r = .ok t ∨ ∃ f, r = .error f ∧ f.left.params.deliverFaults = true ∧ f.deliverException ext = .next t := by
  unfold settle at h
  split at h
  · cases h; exact .inl rfl
  · split at h
    · exact .inr ⟨_, rfl, ‹_›, h⟩
    · cases h

end Sys2Proof.Machine
end

