-- ==== Sys2Proof/Laws/Frames.lean ====
section
/-! SUPPORT. What pushes and segment loads do to memory: the bytes outside a frame and the accessed bits stay, and a
frame that fits is read back as it was pushed. -/

namespace Sys2Proof.Machine

/-! ### Reads do not see registers -/

@[simp] theorem State.read8_setSp (s : State) (v : Word) (a : Addr) : (s.setSp v).read8 a = s.read8 a := rfl
@[simp] theorem State.read8_setIp (s : State) (v : Word) (a : Addr) : (s.setIp v).read8 a = s.read8 a := rfl
@[simp] theorem State.read8_setFlags (s : State) (v : Word) (a : Addr) : (s.setFlags v).read8 a = s.read8 a := rfl
@[simp] theorem State.read8_setCpl (s : State) (k : Level) (a : Addr) : (s.setCpl k).read8 a = s.read8 a := rfl
@[simp] theorem State.read8_endNmiService (s : State) (a : Addr) : s.endNmiService.read8 a = s.read8 a := rfl
@[simp] theorem State.read8_setSeg (s : State) (n : SegName) (g : SegReg) (a : Addr) :
    (s.setSeg n g).read8 a = s.read8 a := by cases n <;> rfl
@[simp] theorem State.read8_enterTask (s : State) (new : Word) (d : Desc) (a : Addr) :
    (s.enterTask new d).read8 a = s.read8 a := rfl
@[simp] theorem State.read8_loadTask (s : State) (c : SwitchCause) (t : TssImage) (a : Addr) :
    (s.loadTask c t).read8 a = s.read8 a := rfl
@[simp] theorem State.read8_arrive (s : State) (a : Addr) : s.arrive.read8 a = s.read8 a := rfl

/-! ### The accessed bit -/

theorem read8_markAccessed_other {s : State} {d : Desc} {a : Addr} (h : ¬ marksAt d a) :
    (s.markAccessed d).read8 a = s.read8 a := by
  unfold State.markAccessed
  split
  · rfl
  · rename_i hd
    rw [State.read8_write8, if_neg]
    exact fun e => h ⟨by simpa using hd, e⟩

theorem read8_markAccessed_same {s : State} {d : Desc} {a : Addr} (h : marksAt d a) :
    (s.markAccessed d).read8 a = arAccessed d.ar := by
  unfold State.markAccessed
  simp [h.1, h.2, State.read8_write8]

theorem read8_loadSeg (s : State) (n : SegName) (sel : Word) (d : Desc) (a : Addr) :
    (s.loadSeg n sel d).read8 a = (s.markAccessed d).read8 a := State.read8_congr (s.loadSeg_mem n sel d) a

theorem read8_loadSeg_other {s : State} {n : SegName} {sel : Word} {d : Desc} {a : Addr} (h : ¬ marksAt d a) :
    (s.loadSeg n sel d).read8 a = s.read8 a := by rw [read8_loadSeg, read8_markAccessed_other h]

theorem read8_loadSeg_same {s : State} {n : SegName} {sel : Word} {d : Desc} {a : Addr} (h : marksAt d a) :
    (s.loadSeg n sel d).read8 a = arAccessed d.ar := by rw [read8_loadSeg, read8_markAccessed_same h]

/-! ### Words -/

theorem within_two (a b : Addr) : within a 2 b ↔ b = a ∨ b = a + 1#24 := by
  unfold within
  constructor
  · intro h
    have : (b - a).toNat = 0 ∨ (b - a).toNat = 1 := by omega
    rcases this with h | h
    · left; bv_omega
    · right; bv_omega
  · rintro (rfl | rfl)
    · simp
    · bv_omega

theorem read8_write16_other {s : State} {a b : Addr} {v : Word} (h : ¬ within a 2 b) :
    (s.write16 a v).read8 b = s.read8 b := by
  rw [within_two, not_or] at h
  simp [State.read8_write16, h.1, h.2]

theorem read8_pushWord_other {s : State} {v : Word} {b : Addr} (h : ¬ within (s.ss.phys (s.regs.sp - 2#16)) 2 b) :
    (s.pushWord v).read8 b = s.read8 b := read8_write16_other h

/-- A word both of whose bytes read as before reads as before. -/
theorem read16_congr_within {s t : State} {a : Addr} (h : ∀ b, within a 2 b → t.read8 b = s.read8 b) :
    t.read16 a = s.read16 a := by
  unfold State.read16
  rw [h a ((within_two _ _).mpr (.inl rfl)), h (a + 1#24) ((within_two _ _).mpr (.inr rfl))]

/-! ### Frames -/

theorem pushWords_sp (s : State) (ws : List Word) :
    (s.pushWords ws).regs = { s.regs with sp := s.regs.sp - BitVec.ofNat 16 (2 * ws.length) } := by
  induction ws generalizing s with
  | nil => simp [State.pushWords]
  | cons w ws ih =>
    simp only [State.pushWords, ih, State.pushWord_regs, List.length_cons]
    congr 1
    rw [Nat.mul_add, BitVec.ofNat_add]
    bv_omega

/-- Pushes change no byte outside their frame. -/
theorem read8_pushWords_other {s : State} {ws : List Word} {a : Addr} (h : ¬ inFrame s.ss s.regs.sp ws.length a) :
    (s.pushWords ws).read8 a = s.read8 a := by
  induction ws generalizing s with
  | nil => rfl
  | cons w ws ih =>
    simp only [List.length_cons, inFrame, not_or] at h
    rw [State.pushWords, ih (s := s.pushWord w) h.2, read8_pushWord_other h.1]

theorem inFrame_index {g : SegReg} {sp : Word} {n : Nat} {a : Addr} (h : inFrame g sp n a) :
    ∃ j, 1 ≤ j ∧ j ≤ n ∧ within (g.phys (sp - BitVec.ofNat 16 (2 * j))) 2 a := by
  induction n generalizing sp with
  | zero => exact h.elim
  | succ n ih =>
    rcases h with h | h
    · exact ⟨1, by omega, by omega, h⟩
    · obtain ⟨j, h1, h2, h3⟩ := ih h
      refine ⟨j + 1, by omega, by omega, ?_⟩
      rw [Nat.mul_add, BitVec.ofNat_add, show sp - (BitVec.ofNat 16 (2 * j) + BitVec.ofNat 16 (2 * 1)) =
        sp - 2#16 - BitVec.ofNat 16 (2 * j) by bv_omega]
      exact h3

theorem segWriteOk_word {g : SegReg} {off : Word} (h : segWriteOk g off 2 = true) : off.toNat + 1 < 0x10000 := by
  unfold segWriteOk rangeOk at h
  simp only [Bool.and_eq_true] at h
  split at h
  · simp only [Bool.and_eq_true, decide_eq_true_eq] at h; omega
  · have := g.limit.isLt
    simp only [decide_eq_true_eq] at h; omega

theorem frameFits_index {g : SegReg} {sp : Word} {n : Nat} (h : frameFits g sp n = true) {j : Nat} (h1 : 1 ≤ j)
    (h2 : j ≤ n) : segWriteOk g (sp - BitVec.ofNat 16 (2 * j)) 2 = true := by
  induction n generalizing sp j with
  | zero => omega
  | succ n ih =>
    simp only [frameFits, Bool.and_eq_true] at h
    obtain rfl | h3 := Nat.eq_or_lt_of_le h1
    · exact h.1
    · have := ih h.2 (j := j - 1) (by omega) (by omega)
      rw [show j = (j - 1) + 1 by omega, Nat.mul_add, BitVec.ofNat_add,
        show sp - (BitVec.ofNat 16 (2 * (j - 1)) + BitVec.ofNat 16 (2 * 1)) =
          sp - 2#16 - BitVec.ofNat 16 (2 * (j - 1)) by bv_omega]
      exact this

/-- In a frame that fits, the first word pushed does not overlap the later ones. -/
theorem frame_apart {g : SegReg} {sp : Word} {n : Nat} (hn : n ≤ 16) (h : frameFits g sp (n + 1) = true) {a : Addr}
    (ha : within (g.phys (sp - 2#16)) 2 a) : ¬ inFrame g (sp - 2#16) n a := by
  intro hf
  obtain ⟨j, h1, h2, h3⟩ := inFrame_index hf
  have k1 := segWriteOk_word (frameFits_index h (j := 1) (by omega) (by omega))
  have k2 := segWriteOk_word (frameFits_index h (j := j + 1) (by omega) (by omega))
  unfold within SegReg.phys at ha h3
  have e : sp - BitVec.ofNat 16 (2 * (j + 1)) = sp - 2#16 - BitVec.ofNat 16 (2 * j) := by
    rw [Nat.mul_add, BitVec.ofNat_add]; bv_omega
  rw [e] at k2
  simp only [Nat.mul_one] at k1
  generalize hp : sp - 2#16 = p at *
  generalize hq : p - BitVec.ofNat 16 (2 * j) = q at *
  have : q.toNat = (p.toNat + 65536 - 2 * j) % 65536 := by
    subst hq
    rw [BitVec.toNat_sub, BitVec.toNat_ofNat]
    omega
  simp only [BitVec.toNat_sub, BitVec.toNat_add, BitVec.toNat_setWidth] at ha h3
  have := p.isLt; have := q.isLt; have := a.isLt; have := g.base.isLt
  omega

/-- A frame that fits is read back as it was pushed. -/
theorem frameHolds_pushWords {s : State} {ws : List Word} (hn : ws.length ≤ 16)
    (h : frameFits s.ss s.regs.sp ws.length = true) : frameHolds (s.pushWords ws) s.ss s.regs.sp ws := by
  induction ws generalizing s with
  | nil => trivial
  | cons w ws ih =>
    simp only [List.length_cons] at hn h
    refine ⟨?_, ?_⟩
    · rw [State.pushWords]
      have : ((s.pushWord w).pushWords ws).read16 (s.ss.phys (s.regs.sp - 2#16)) =
          (s.pushWord w).read16 (s.ss.phys (s.regs.sp - 2#16)) :=
        read16_congr_within fun b hb => read8_pushWords_other (s := s.pushWord w) (frame_apart (by omega) h hb)
      rw [this]
      exact s.read16_write16_same _ _
    · have h' : frameFits s.ss (s.regs.sp - 2#16) ws.length = true := by
        simp only [frameFits, Bool.and_eq_true] at h; exact h.2
      exact ih (s := s.pushWord w) (by omega) h'

/-- What holds in a frame still holds where the bytes of the frame read as before. -/
theorem frameHolds_congr {s t : State} {g : SegReg} {sp : Word} {ws : List Word} (h : frameHolds s g sp ws)
    (k : ∀ a, inFrame g sp ws.length a → t.read8 a = s.read8 a) : frameHolds t g sp ws := by
  induction ws generalizing sp with
  | nil => trivial
  | cons w ws ih =>
    refine ⟨?_, ih h.2 fun a ha => k a (.inr ha)⟩
    rw [read16_congr_within fun b hb => k b (.inl hb)]
    exact h.1

/-! ### Entering a handler -/

/-- What an entry on the present stack does, without an error code (R104, R106). -/
theorem enterGate_same_read8 {s : State} {sel : Word} {d : Desc} {off r : Word} {c : Bool} {a : Addr}
    (h : ¬ inFrame s.ss s.regs.sp 3 a) (h' : ¬ marksAt d a) :
    (s.enterGate (.same sel d off) r none c).read8 a = s.read8 a := by
  simp only [State.enterGate, State.enterHandler, State.pushErr, State.read8_setFlags, State.read8_setCpl,
    State.read8_setIp]
  rw [read8_loadSeg_other h', read8_pushWords_other (by simpa using h)]

/-- What an entry on an inner stack does, without an error code (R105, R106). -/
theorem enterGate_inner_read8 {s : State} {sel : Word} {d e : Desc} {off r newSs newSp : Word} {c : Bool} {a : Addr}
    (h : ¬ inFrame (e.toSegReg newSs) newSp 5 a) (h' : ¬ marksAt d a) (h'' : ¬ marksAt e a) :
    (s.enterGate (.inner sel d off newSs newSp e) r none c).read8 a = s.read8 a := by
  simp only [State.enterGate, State.enterHandler, State.pushErr, State.read8_setFlags, State.read8_setCpl,
    State.read8_setIp]
  rw [read8_loadSeg_other h', read8_pushWords_other (by simpa using h), State.read8_setSp, read8_loadSeg_other h'']

/-! ### The error code's word -/

theorem inFrame_succ {g : SegReg} {sp : Word} {n : Nat} {a : Addr} (h : inFrame g sp n a) : inFrame g sp (n + 1) a := by
  induction n generalizing sp with
  | zero => exact h.elim
  | succ n ih =>
    rcases h with h | h
    · exact .inl h
    · exact .inr (ih h)

theorem sub_words (sp : Word) (n : Nat) :
    sp - BitVec.ofNat 16 (2 * (n + 1)) = sp - 2#16 - BitVec.ofNat 16 (2 * n) := by
  rw [show 2 * (n + 1) = 2 + 2 * n by omega, BitVec.ofNat_add]
  bv_omega

/-- The last word of a frame lies in it. -/
theorem inFrame_last {g : SegReg} {sp : Word} {n : Nat} {a : Addr}
    (h : within (g.phys (sp - BitVec.ofNat 16 (2 * (n + 1)))) 2 a) : inFrame g sp (n + 1) a := by
  induction n generalizing sp with
  | zero => exact .inl (by simpa using h)
  | succ n ih => exact .inr (ih (by rwa [sub_words] at h))

theorem frameFits_pred {g : SegReg} {sp : Word} {n : Nat} (h : frameFits g sp (n + 1) = true) : frameFits g sp n = true := by
  induction n generalizing sp with
  | zero => rfl
  | succ n ih =>
    rw [frameFits, Bool.and_eq_true] at h ⊢
    exact ⟨h.1, ih h.2⟩

/-- In a frame that fits, the last word pushed does not overlap the earlier ones. -/
theorem frame_last_apart {g : SegReg} {sp : Word} {n : Nat} (hn : n ≤ 16) (h : frameFits g sp (n + 1) = true) {a : Addr}
    (ha : within (g.phys (sp - BitVec.ofNat 16 (2 * (n + 1)))) 2 a) : ¬ inFrame g sp n a := by
  induction n generalizing sp with
  | zero => exact id
  | succ n ih =>
    rw [sub_words] at ha
    rintro (h1 | h1)
    · exact frame_apart (by omega) h h1 (inFrame_last ha)
    · rw [frameFits, Bool.and_eq_true] at h
      exact ih (by omega) h.2 ha h1

theorem frameHolds_append {s : State} {g : SegReg} {sp : Word} {ws : List Word} {w : Word} (h : frameHolds s g sp ws)
    (hw : s.read16 (g.phys (sp - BitVec.ofNat 16 (2 * (ws.length + 1)))) = w) : frameHolds s g sp (ws ++ [w]) := by
  induction ws generalizing sp with
  | nil => exact ⟨by simpa using hw, trivial⟩
  | cons x xs ih => exact ⟨h.1, ih h.2 (by rwa [List.length_cons, sub_words] at hw)⟩

/-- What the first instruction of a handler finds where an error code was pushed: the words pushed before it, then the
error code at the lowest address, and no other byte changed but the accessed bit of its segment (R104, R105, R107). -/
theorem enterHandler_err {s : State} {ws : List Word} {sel : Word} {d : Desc} {off : Word} {k : Level} {err : Word}
    {c : Bool} (hn : ws.length ≤ 8) (hf : frameFits s.ss s.regs.sp (ws.length + 1) = true) :
    let t := (s.pushWords ws).enterHandler sel d off k (some err) c
    t.ip = off ∧ t.cpl = k ∧ t.ss = s.ss ∧
      t.regs = { s.regs with sp := s.regs.sp - BitVec.ofNat 16 (2 * (ws.length + 1)) } ∧
      ((∀ a, marksAt d a → ¬ inFrame s.ss s.regs.sp (ws.length + 1) a) →
        frameHolds t s.ss s.regs.sp (ws ++ [err]) ∧ ∀ a, marksAt d a → t.read8 a = arAccessed d.ar) ∧
      ∀ a, ¬ inFrame s.ss s.regs.sp (ws.length + 1) a → ¬ marksAt d a → t.read8 a = s.read8 a := by
  intro t
  let m := (((s.pushWords ws).loadSeg .cs (selWithRpl sel k) d).setIp off).setCpl k
  have ht : t = (m.pushWord err).setFlags (handlerFlags c (s.pushWords ws).flagWord) := rfl
  have hss : m.ss = s.ss := by simp [m]
  have hregs : m.regs = { s.regs with sp := s.regs.sp - BitVec.ofNat 16 (2 * ws.length) } := by simp [m, pushWords_sp]
  have hsp : m.regs.sp - 2#16 = s.regs.sp - BitVec.ofNat 16 (2 * (ws.length + 1)) := by
    rw [hregs, Nat.mul_add, BitVec.ofNat_add]
    bv_omega
  have hr : ∀ a, t.read8 a = (m.pushWord err).read8 a := fun a => by rw [ht, State.read8_setFlags]
  have other : ∀ a, ¬ within (s.ss.phys (s.regs.sp - BitVec.ofNat 16 (2 * (ws.length + 1)))) 2 a →
      t.read8 a = ((s.pushWords ws).loadSeg .cs (selWithRpl sel k) d).read8 a := by
    intro a ha
    rw [hr, read8_pushWord_other (by rwa [hss, hsp])]
    simp [m]
  refine ⟨rfl, rfl, by rw [ht]; simp [hss], ?_, ?_, ?_⟩
  · rw [ht, State.setFlags_regs, State.pushWord_regs, hsp, hregs]
  · intro hm
    refine ⟨frameHolds_append ?_ ?_, ?_⟩
    · refine frameHolds_congr (frameHolds_pushWords (by omega) (frameFits_pred hf)) fun a ha => ?_
      rw [other a fun h => frame_last_apart (by omega) hf h ha, read8_loadSeg_other fun h => hm a h (inFrame_succ ha)]
    · rw [read16_congr_within fun b _ => hr b, ← hsp, ← hss]
      exact m.read16_write16_same _ _
    · intro a ha
      rw [other a fun h => hm a ha (inFrame_last h), read8_loadSeg_same ha]
  · intro a ha hd
    rw [other a fun h => ha (inFrame_last h), read8_loadSeg_other hd, read8_pushWords_other fun h => ha (inFrame_succ h)]

end Sys2Proof.Machine
end

