-- ==== Sys2Proof/Laws/Tasks.lean ====
section
/-! SUPPORT. What a task switch leaves alone and what it loads: one lemma for leaving the outgoing task and one for
loading the incoming one. -/

namespace Sys2Proof.Machine

/-- What `ReadDesc` answers lies at the address that the selector names (R42). -/
theorem readDesc_addr {s : State} {sel : Word} {d : Desc} (h : s.readDesc sel = some d) : d.addr = s.descAddr sel := by
  unfold State.readDesc at h
  unfold State.descAddr
  split at h
  · cases h
  split at h
  · rename_i ht
    split at h
    · cases h
    · cases h; simp [ht, State.descAt]
  · rename_i ht
    split at h
    · cases h
    · cases h; simp [ht, State.descAt]

/-- A segment load changes no byte but the access byte of the descriptor its selector names. -/
theorem loadSeg_changes {s : State} {n : SegName} {sel : Word} {d : Desc} (h : s.readDesc sel = some d) {a : Addr}
    (ha : (s.loadSeg n sel d).read8 a ≠ s.read8 a) : a = s.descAddr sel + 5#24 := by
  by_contra hne
  exact ha (read8_loadSeg_other fun hm => hne (by rw [hm.2, readDesc_addr h]))

theorem descAddr_congr {s t : State} (hg : t.gdtr = s.gdtr) (hl : t.ldtr = s.ldtr) (sel : Word) :
    t.descAddr sel = s.descAddr sel := by
  unfold State.descAddr; rw [hg, hl]

theorem loadTaskData_changes {s t : State} {n : SegName} {sel : Word} (h : s.loadTaskData n sel = .ok t) {a : Addr}
    (ha : t.read8 a ≠ s.read8 a) : a = s.descAddr sel + 5#24 := by
  rcases loadTaskData_ok.mp h with ⟨_, rfl⟩ | ⟨d, h1, _, _, rfl⟩
  · simp at ha
  · exact loadSeg_changes h1 ha

/-- What loading the segments of an incoming task gives and keeps (R110, steps 8 to 10). -/
structure TaskLoad (w t : State) (img : TssImage) : Prop where
  ip : t.ip = w.ip
  regs : t.regs = w.regs
  flags : t.flags = w.flags
  tr : t.tr = w.tr
  msw : t.msw = w.msw
  nmiInService : t.nmiInService = w.nmiInService
  system : keepsSystem w t
  cpl : t.cpl = selRpl img.cs
  csSel : t.cs.sel = img.cs
  ssSel : t.ss.sel = img.ss
  dsSel : t.ds.sel = img.ds
  esSel : t.es.sel = img.es
  ldtSel : t.ldtr.sel = img.ldt
  ipFits : t.ip ≤ t.cs.limit
  marks : marksOnly w t img

theorem loadTaskSegments_loaded {w t : State} {img : TssImage} (h : w.loadTaskSegments img = .ok t) : TaskLoad w t img := by
  obtain ⟨a, b, c, d, h1, h2, h3, h4, h5, h6⟩ := loadTaskSegments_ok.mp h
  have ha : a.ip = w.ip ∧ a.regs = w.regs ∧ a.flags = w.flags ∧ a.tr = w.tr ∧ a.msw = w.msw ∧
      a.nmiInService = w.nmiInService ∧ keepsSystem w a ∧ a.ldtr.sel = img.ldt ∧ a.mem = w.mem := by
    rcases loadLdt_ok h1 with ⟨_, rfl⟩ | ⟨_, d, _, _, _, rfl⟩ <;> simp [keepsSystem, Desc.toSysSegReg]
  obtain ⟨a1, a2, a3, a4, a5, a6, a7, a8, a9⟩ := ha
  have hg : a.gdtr = w.gdtr := a7.2.1
  obtain ⟨dc, r2, _, _, _, rfl⟩ := loadTaskCs_ok.mp h2
  obtain ⟨ec, r3, _, _, _, _, rfl⟩ := loadTaskSs_ok.mp h3
  have m2 : ∀ x, _ := fun x => loadSeg_changes (s := a.setCpl (selRpl img.cs)) (n := .cs) (a := x)
    ((State.readDesc_congr (t := a.setCpl (selRpl img.cs)) (s := a) rfl rfl rfl img.cs).trans r2)
  have m3 : ∀ x, _ := fun x => loadSeg_changes (n := .ss) (a := x) r3
  have m4 : ∀ x, _ := fun x => loadTaskData_changes (a := x) h4
  have m5 : ∀ x, _ := fun x => loadTaskData_changes (a := x) h5
  have marks : marksOnly w t img := by
    intro x hx
    have hl : ∀ y : State, y.gdtr = t.gdtr → y.ldtr = t.ldtr → ∀ sel, y.descAddr sel = t.descAddr sel :=
      fun y e1 e2 sel => descAddr_congr e1 e2 sel
    have hd : d.gdtr = t.gdtr ∧ d.ldtr = t.ldtr := by
      rcases loadTaskData_ok.mp h5 with ⟨_, rfl⟩ | ⟨_, _, _, _, rfl⟩ <;> simp
    have hc : ((a.setCpl (selRpl img.cs)).loadSeg .cs img.cs dc |>.loadSeg .ss img.ss ec).gdtr = d.gdtr ∧
        ((a.setCpl (selRpl img.cs)).loadSeg .cs img.cs dc |>.loadSeg .ss img.ss ec).ldtr = d.ldtr := by
      rcases loadTaskData_ok.mp h4 with ⟨_, rfl⟩ | ⟨_, _, _, _, rfl⟩ <;> simp
    simp only [State.loadSeg_ss_gdtr, State.loadSeg_cs_gdtr, State.setCpl_gdtr, State.loadSeg_ss_ldtr,
      State.loadSeg_cs_ldtr, State.setCpl_ldtr] at hc
    have g1 : a.gdtr = t.gdtr := hc.1.trans hd.1
    have l1 : a.ldtr = t.ldtr := hc.2.trans hd.2
    by_cases e5 : t.read8 x = d.read8 x
    · by_cases e4 : d.read8 x = (((a.setCpl (selRpl img.cs)).loadSeg .cs img.cs dc).loadSeg .ss img.ss ec).read8 x
      · by_cases e3 : (((a.setCpl (selRpl img.cs)).loadSeg .cs img.cs dc).loadSeg .ss img.ss ec).read8 x =
            ((a.setCpl (selRpl img.cs)).loadSeg .cs img.cs dc).read8 x
        · have e2 : ((a.setCpl (selRpl img.cs)).loadSeg .cs img.cs dc).read8 x ≠ (a.setCpl (selRpl img.cs)).read8 x := by
            intro e2
            apply hx
            rw [e5, e4, e3, e2, State.read8_setCpl, State.read8_congr a9]
          exact ⟨img.cs, by simp, by rw [m2 x e2, hl _ (by simpa using g1) (by simpa using l1)]⟩
        · exact ⟨img.ss, by simp, by rw [m3 x e3, hl _ (by simpa using g1) (by simpa using l1)]⟩
      · exact ⟨img.ds, by simp, by rw [m4 x e4, hl _ (by simpa using g1) (by simpa using l1)]⟩
    · exact ⟨img.es, by simp, by rw [m5 x e5, hl _ hd.1 hd.2]⟩
  rcases loadTaskData_ok.mp h4 with ⟨n4, rfl⟩ | ⟨q4, r4, _, _, rfl⟩ <;>
    rcases loadTaskData_ok.mp h5 with ⟨n5, rfl⟩ | ⟨q5, r5, _, _, rfl⟩
  all_goals
    exact ⟨by simp [a1], by simp [a2], by simp [a3], by simp [a4], by simp [a5], by simp [a6],
      by simpa [keepsSystem] using a7, by simp, by simp [Desc.toSegReg], by simp [Desc.toSegReg],
      by simp [Desc.toSegReg, SegReg.asNull], by simp [Desc.toSegReg, SegReg.asNull], by simp [a8],
      by simpa using h6, marks⟩

/-- What leaving a task keeps besides memory, TR and MSW (R110, steps 2 to 6). -/
theorem leaveTask_fields (s : State) (new : Word) (d : Desc) (c : SwitchCause) (r : Word) :
    (s.leaveTask new d c r).regs = s.regs ∧ (s.leaveTask new d c r).ip = s.ip ∧ (s.leaveTask new d c r).flags = s.flags ∧
    (s.leaveTask new d c r).cpl = s.cpl ∧ (s.leaveTask new d c r).cs = s.cs ∧ (s.leaveTask new d c r).ss = s.ss ∧
    (s.leaveTask new d c r).ds = s.ds ∧ (s.leaveTask new d c r).es = s.es ∧ (s.leaveTask new d c r).ldtr = s.ldtr ∧
    (s.leaveTask new d c r).tr = d.toSysSegReg new ∧ (s.leaveTask new d c r).msw = s.msw ||| 0x0008#16 ∧
    (s.leaveTask new d c r).nmiInService = s.nmiInService := by
  cases c <;> simp [State.leaveTask, State.enterTask, State.linkBack, State.switchBusy, State.saveTask]

theorem keepsSystem.trans {s t u : State} (h : keepsSystem s t) (k : keepsSystem t u) : keepsSystem s u := by
  unfold Machine.keepsSystem at *
  obtain ⟨k1, k2, k3, k4, k5, k6, k7, k8⟩ := k
  rw [k1, k2, k3, k4, k5, k6, k7, k8]
  exact h

/-- What a task switch keeps: the registers that no task owns. -/
theorem CpuMove.keepsSystem {s t : State} (h : CpuMove s t) : keepsSystem s t :=
  ⟨h.idtr, h.gdtr, h.nmiPending, h.pic, h.params, h.inputs, h.freeUsed, h.launched⟩

end Sys2Proof.Machine
end

