-- ==== Sys2Proof/Laws/Failures.lean ====
section
/-! SUPPORT. Each operation that tests in order answers its first failing test: one equation for each, which says both
where it fails and what it answers otherwise. -/

namespace Sys2Proof.Machine

/-! ### Lists of tests -/

@[simp] theorem firstFailed_nil {α : Type} : firstFailed ([] : List (Bool × α)) = none := rfl

@[simp] theorem firstFailed_cons {α : Type} (b : Bool) (f : α) (l : List (Bool × α)) :
    firstFailed ((b, f) :: l) = if b then firstFailed l else some f := rfl

theorem firstFailed_append {α : Type} (l m : List (Bool × α)) :
    firstFailed (l ++ m) = (firstFailed l).or (firstFailed m) := by
  induction l with
  | nil => rfl
  | cons t l ih =>
    obtain ⟨b, f⟩ := t
    cases b <;> simp [ih]

/-! ### Descriptors -/

theorem State.readDesc_named {s : State} {sel : Word} (h : s.named sel = true) : s.readDesc sel = some (s.descOf sel) := by
  unfold State.named at h
  unfold State.descOf State.descAddr
  unfold State.readDesc at h ⊢
  by_cases h0 : selNull sel = true
  · simp [h0] at h
  by_cases h1 : selTi sel = true
  · simp only [h0, h1] at h ⊢
    split at h
    · simp at h
    · simp_all
  · simp only [h0, h1] at h ⊢
    split at h
    · simp at h
    · simp_all

theorem State.readDesc_unnamed {s : State} {sel : Word} (h : s.named sel = false) : s.readDesc sel = none := by
  simpa [State.named] using h

/-- `ReadDesc` answers the eight bytes at the place the selector names, if it names one (R42). -/
theorem State.readDesc_eq (s : State) (sel : Word) :
    s.readDesc sel = if s.named sel then some (s.descOf sel) else none := by
  cases h : s.named sel with
  | true => simp [State.readDesc_named h]
  | false => simp [State.readDesc_unnamed h]

theorem State.named_of_readDesc {s : State} {sel : Word} {d : Desc} (h : s.readDesc sel = some d) :
    s.named sel = true ∧ s.descOf sel = d := by
  have hn : s.named sel = true := by simp [State.named, h]
  exact ⟨hn, by simpa [h] using (State.readDesc_named hn).symm⟩

theorem State.not_null_of_named {s : State} {sel : Word} (h : s.named sel = true) : selNull sel = false :=
  readDesc_some_not_null (State.readDesc_named h)

theorem State.named_of_null {s : State} {sel : Word} (h : selNull sel = true) : s.named sel = false := by
  cases hn : s.named sel with
  | false => rfl
  | true => rw [State.not_null_of_named hn] at h; cases h

/-- A selector names the same descriptor where memory and the two tables are the same. -/
theorem State.named_congr {s t : State} (hm : t.mem = s.mem) (hg : t.gdtr = s.gdtr) (hl : t.ldtr = s.ldtr) (sel : Word) :
    t.named sel = s.named sel ∧ t.descOf sel = s.descOf sel :=
  ⟨by unfold State.named; rw [State.readDesc_congr hm hg hl],
    by unfold State.descOf; rw [State.descAt_congr hm, descAddr_congr hg hl]⟩

/-! ### Entries -/

/-- What a chain of tests answers: its value, or its first failing test on the state as it was. -/
def answered {α : Type} (s : State) (v : α) : Option Fault → Except Failure α
  | none => .ok v
  | some f => .error (failing s f)

theorem checkSame_tests (s : State) (sel : Word) (d : Desc) (off : Word) (err : Option Word) :
    s.checkSame sel d off err =
      answered s (.same sel d off) (firstFailed (s.sameEntryTests d off (frameWords 3 err))) := by
  unfold State.checkSame State.sameEntryTests
  cases frameFits s.ss s.regs.sp (frameWords 3 err) with
  | false => rfl
  | true =>
    by_cases h : off ≤ d.limit
    · simp [h, BitVec.not_lt.mpr h, answered]
    · simp [h, BitVec.not_le.mp h, answered]

theorem checkInner_tests (s : State) (sel : Word) (d : Desc) (off : Word) (err : Option Word) :
    ∃ newSs newSp e, s.checkInner sel d off err =
      answered s (.inner sel d off newSs newSp e) (firstFailed (s.innerEntryTests d off (frameWords 5 err))) := by
  have ha : ∀ k : Level, s.tr.base + 4#24 + 4#24 * k.setWidth 24 = s.innerStackAddr k + 2#24 := by
    intro k; unfold State.innerStackAddr; bv_omega
  have hb : ∀ k : Level, s.tr.base + 2#24 + 4#24 * k.setWidth 24 = s.innerStackAddr k := fun _ => rfl
  unfold State.checkInner State.innerEntryTests
  simp only [ha, hb]
  generalize s.read16 (s.innerStackAddr (arDpl d.ar)) = sp
  generalize s.read16 (s.innerStackAddr (arDpl d.ar) + 2#24) = ss
  refine ⟨ss, sp, s.descOf ss, ?_⟩
  by_cases h1 : s.tr.limit.toNat < 4 + 4 * (arDpl d.ar).toNat + 1
  · have : ¬ 4 + 4 * (arDpl d.ar).toNat + 1 ≤ s.tr.limit.toNat := by omega
    simp [h1, this, answered]
  have h1' : 4 + 4 * (arDpl d.ar).toNat + 1 ≤ s.tr.limit.toNat := by omega
  cases h2 : selNull ss with
  | true => simp [h1, h1', answered]
  | false =>
    cases h3 : s.named ss with
    | false => simp [h1, h1', State.readDesc_unnamed h3, answered]
    | true =>
      simp only [h1, h1', State.readDesc_named h3]
      by_cases h4 : selRpl ss = arDpl d.ar
      · by_cases h5 : arDpl (s.descOf ss).ar = arDpl d.ar
        · cases h6 : arWritable (s.descOf ss).ar with
          | false => simp [h4, h5, answered]
          | true =>
            cases h7 : arPresent (s.descOf ss).ar with
            | false => simp [h4, h5, answered]
            | true =>
              cases h8 : frameFits ((s.descOf ss).toSegReg ss) sp (frameWords 5 err) with
              | false => simp [h4, h5, answered]
              | true =>
                by_cases h9 : off ≤ d.limit
                · simp [h4, h5, h9, BitVec.not_lt.mpr h9, answered]
                · simp [h4, h5, h9, BitVec.not_le.mp h9, answered]
        · simp [h4, h5, answered]
      · simp [h4, answered]

/-! ### Returns -/

theorem checkReturnCs_tests (s : State) (cs : Word) (k : Level) :
    s.checkReturnCs cs k = answered s (s.descOf cs) (firstFailed (s.returnCodeTests cs k)) := by
  unfold State.checkReturnCs State.returnCodeTests
  cases h2 : selNull cs with
  | true => simp [answered]
  | false =>
    cases h3 : s.named cs with
    | false => simp [State.readDesc_unnamed h3, answered]
    | true =>
      simp only [State.readDesc_named h3]
      cases arIsCode (s.descOf cs).ar <;> cases arCodeFits (s.descOf cs).ar k <;> cases arPresent (s.descOf cs).ar <;>
        simp [answered]

theorem checkReturnSs_tests (s : State) (ss : Word) (k : Level) :
    s.checkReturnSs ss k = answered s (s.descOf ss) (firstFailed (s.returnStackTests ss k)) := by
  unfold State.checkReturnSs State.returnStackTests
  cases h2 : selNull ss with
  | true => simp [answered]
  | false =>
    cases h3 : s.named ss with
    | false => simp [State.readDesc_unnamed h3, answered]
    | true =>
      simp only [State.readDesc_named h3]
      by_cases h4 : selRpl ss = k <;> cases arWritable (s.descOf ss).ar <;> by_cases h5 : arDpl (s.descOf ss).ar = k <;>
        cases arPresent (s.descOf ss).ar <;> simp [h4, h5, answered]

/-! ### Task switches -/

theorem taskSwitch_small {s : State} {new : Word} {d : Desc} {c : SwitchCause} {r : Word} (h : ¬ 0x002B#16 ≤ d.limit) :
    s.taskSwitch new d c r = .error (failing s (.tssTooSmall new)) := by
  unfold State.taskSwitch
  exact if_pos (BitVec.not_le.mp h)

/-- A task that may be entered passes every test up to the point of no return. -/
theorem taskAt_tests {s : State} {sel : Word} {busy : Bool} {d : Desc} (h : s.taskAt sel busy d = true) :
    s.descOf sel = d ∧ firstFailed (s.taskTests sel (if busy then .iret else .nest)) = none := by
  simp only [State.taskAt, Bool.and_eq_true, beq_iff_eq, Bool.not_eq_true', tssMinLimit] at h
  obtain ⟨⟨⟨⟨h1, h2⟩, h3⟩, h4⟩, h5⟩ := h
  obtain ⟨n, e⟩ := State.named_of_readDesc h2
  have h6 := of_decide_eq_true h5
  refine ⟨e, ?_⟩
  cases busy <;> simp_all [State.taskTests]

/-- A task gate fails on its first failing test, and completes or fails otherwise as the task switch past the point of
no return does (R109, R110). -/
theorem taskGatePath_tests (s : State) (g : Desc) (r : Word) (err : Option Word) :
    s.taskGatePath g r err =
      match firstFailed (s.taskTests g.gateSelector .nest) with
      | some f => .error (failingAlt s f (decide (f = .selectorBeyondTable g.gateSelector)))
      | none =>
        match s.taskSwitch g.gateSelector (s.descOf g.gateSelector) .nest r with
        | .error f => .error f
        | .ok u => u.pushTaskErr err := by
  unfold State.taskGatePath State.taskTests
  generalize g.gateSelector = sel
  cases h1 : selTi sel with
  | true => simp [h1, failing, failingAlt]
  | false =>
    cases h2 : s.named sel with
    | false => simp [h1, State.readDesc_unnamed h2]
    | true =>
      simp only [State.readDesc_named h2]
      by_cases h3 : 0x002B#16 ≤ (s.descOf sel).limit
      · cases (s.descOf sel).isAvailableTss <;> cases arPresent (s.descOf sel).ar <;>
          cases s.taskSwitch sel (s.descOf sel) .nest r <;> simp [h1, h3, failing, failingAlt]
      · cases (s.descOf sel).isAvailableTss <;> cases arPresent (s.descOf sel).ar <;>
          simp [h1, h3, failing, failingAlt, taskSwitch_small h3]

theorem taskReturn_tests (s : State) :
    s.taskReturn =
      match firstFailed (s.taskTests (s.read16 s.tr.base) .iret) with
      | some f => .error (failingAlt s f (decide (f = .selectorBeyondTable (s.read16 s.tr.base))))
      | none => s.taskSwitch (s.read16 s.tr.base) (s.descOf (s.read16 s.tr.base)) .iret (s.ip + 1#16) := by
  unfold State.taskReturn State.taskTests
  generalize s.read16 s.tr.base = sel
  cases h1 : selTi sel with
  | true => simp [h1, failing, failingAlt]
  | false =>
    cases h2 : s.named sel with
    | false => simp [h1, State.readDesc_unnamed h2]
    | true =>
      simp only [State.readDesc_named h2]
      by_cases h3 : 0x002B#16 ≤ (s.descOf sel).limit
      · cases (s.descOf sel).isBusyTss <;> cases arPresent (s.descOf sel).ar <;>
          cases s.taskSwitch sel (s.descOf sel) .iret (s.ip + 1#16) <;> simp [h1, h3, failing, failingAlt]
      · cases (s.descOf sel).isBusyTss <;> cases arPresent (s.descOf sel).ar <;>
          simp [h1, h3, failing, failingAlt, taskSwitch_small h3]

/-! ### The segments of an incoming task -/

/-- What one step of loading a task answers: its state, or a failed check of the first failing test that leaves `u`. -/
def stepAnswer (u t : State) : Option (Fault × Bool) → Attempt
  | none => .ok t
  | some f => .error (failingAlt u f.1 f.2)

theorem loadLdt_tests (s : State) (ldt : Word) :
    s.loadLdt ldt = stepAnswer s
      { s with ldtr :=
          if selNull ldt then { sel := ldt, base := 0#24, limit := 0#16 } else (s.descOf ldt).toSysSegReg ldt }
      (firstFailed
        [(selNull ldt || (!selTi ldt && s.named ldt && (s.descOf ldt).isLdt), (.incomingLdtInvalid ldt, false)),
         (selNull ldt || arPresent (s.descOf ldt).ar, (.incomingLdtInvalid ldt, true))]) := by
  unfold State.loadLdt
  cases h0 : selNull ldt with
  | true => simp [stepAnswer]
  | false =>
    cases h1 : selTi ldt with
    | true => simp [stepAnswer, failing, failingAlt]
    | false =>
      cases h2 : s.named ldt with
      | false => simp [State.readDesc_unnamed h2, stepAnswer, failing, failingAlt]
      | true =>
        simp only [State.readDesc_named h2]
        cases h3 : (s.descOf ldt).isLdt <;> cases h4 : arPresent (s.descOf ldt).ar <;>
          simp [stepAnswer, failingAlt]

theorem loadTaskCs_tests (s : State) (cs : Word) :
    s.loadTaskCs cs = stepAnswer (s.setCpl (selRpl cs)) ((s.setCpl (selRpl cs)).loadSeg .cs cs (s.descOf cs))
      (firstFailed
        [(s.named cs && arIsCode (s.descOf cs).ar && arCodeFits (s.descOf cs).ar (selRpl cs), (.incomingCsInvalid cs, false)),
         (arPresent (s.descOf cs).ar, (.incomingCsInvalid cs, true))]) := by
  unfold State.loadTaskCs
  cases h2 : s.named cs with
  | false => simp [State.readDesc_unnamed h2, stepAnswer, failing, failingAlt]
  | true =>
    simp only [State.readDesc_named h2]
    cases arIsCode (s.descOf cs).ar <;> cases arCodeFits (s.descOf cs).ar (selRpl cs) <;>
      cases arPresent (s.descOf cs).ar <;> simp [stepAnswer, failing, failingAlt]

theorem loadTaskSs_tests (s : State) (ss : Word) :
    s.loadTaskSs ss = stepAnswer s (s.loadSeg .ss ss (s.descOf ss))
      (firstFailed
        [(s.named ss && selRpl ss == s.cpl && arWritable (s.descOf ss).ar && arDpl (s.descOf ss).ar == s.cpl,
          (.incomingSsInvalid ss, false)),
         (arPresent (s.descOf ss).ar, (.incomingSsInvalid ss, true))]) := by
  unfold State.loadTaskSs
  cases h2 : s.named ss with
  | false => simp [State.readDesc_unnamed h2, stepAnswer, failing, failingAlt]
  | true =>
    simp only [State.readDesc_named h2]
    by_cases h4 : selRpl ss = s.cpl <;> cases arWritable (s.descOf ss).ar <;>
      by_cases h5 : arDpl (s.descOf ss).ar = s.cpl <;> cases arPresent (s.descOf ss).ar <;>
      simp [h4, h5, stepAnswer, failing, failingAlt]

theorem levelMax_le (a b c : Level) : levelMax a b ≤ c ↔ a ≤ c ∧ b ≤ c := by
  unfold levelMax
  split <;> bv_omega

theorem loadTaskData_tests (s : State) (n : SegName) (sel : Word) :
    s.loadTaskData n sel = stepAnswer s
      (if selNull sel then s.setSeg n ((s.seg n).asNull sel) else s.loadSeg n sel (s.descOf sel))
      (firstFailed (s.taskDataTests sel s.cpl)) := by
  unfold State.loadTaskData State.taskDataTests
  cases h0 : selNull sel with
  | true => simp [stepAnswer]
  | false =>
    cases h2 : s.named sel with
    | false => simp [State.readDesc_unnamed h2, stepAnswer, failing, failingAlt]
    | true =>
      simp only [State.readDesc_named h2, dataSegFits, levelMax_le, Bool.decide_and]
      cases arReadable (s.descOf sel).ar <;>
        cases (arConforming (s.descOf sel).ar ||
          (decide (s.cpl ≤ arDpl (s.descOf sel).ar) && decide (selRpl sel ≤ arDpl (s.descOf sel).ar))) <;>
        cases arPresent (s.descOf sel).ar <;> simp [stepAnswer, failing, failingAlt]

theorem checkTaskIp_tests (s : State) :
    s.checkTaskIp = stepAnswer s s (firstFailed [(decide (s.ip ≤ s.cs.limit), (.ipBeyondLimit, false))]) := by
  unfold State.checkTaskIp
  by_cases h : s.ip ≤ s.cs.limit
  · simp [h, BitVec.not_lt.mpr h, stepAnswer]
  · simp [h, BitVec.not_le.mp h, stepAnswer, failing, failingAlt]

end Sys2Proof.Machine
end

