-- ==== Sys2Proof/Laws/Step.lean ====
section
/-! SUPPORT. What a step can do: which states are accepted, what a boundary recognises, and what every outcome of a
procedure that may fail keeps. -/

namespace Sys2Proof.Machine

/-! ### Admission and recognition -/

theorem accept_ok {s u : State} :
    s.accept = .ok u ↔
      (s.launched = true ∧ flagTf s.flags = false ∧ u = s) ∨
      (s.launched = false ∧ s.brokenCondition = none ∧ u = s.launch) := by
  unfold State.accept
  cases h : s.launched
  · cases hb : s.brokenCondition <;> simp [eq_comm (a := u)]
  · cases hf : flagTf s.flags <;> simp [eq_comm (a := u)]

/-- What a boundary recognises: NMI, else INTR, else the instruction (R93). -/
theorem recognise_cases (s : State) :
    (s.nmiDue = true ∧ s.recognise = .nmi s.arrive.beginNmiService) ∨
    (s.nmiDue = false ∧ s.intrDue = true ∧
      s.recognise = .intr (s.arrive.acknowledge s.boundaryInput).1 (s.arrive.acknowledge s.boundaryInput).2) ∨
    (s.nmiDue = false ∧ s.intrDue = false ∧ s.recognise = .run s.arrive) := by
  unfold State.recognise
  have h1 : (s.arrive.nmiPending && !s.arrive.nmiInService) = s.nmiDue := rfl
  have h2 : (intrLevel s.boundaryInput s.arrive.pic && flagIf s.arrive.flags) = s.intrDue := rfl
  simp only [h1, h2]
  cases s.nmiDue <;> cases s.intrDue <;> simp

/-- What a boundary that completes has done (R93). -/
theorem boundary_next {s t : State} (h : s.boundary = .next t) :
    (s.nmiDue = true ∧ s.arrive.beginNmiService.deliverExternal 2#8 = .next t) ∨
    (s.nmiDue = false ∧ s.intrDue = true ∧
      (s.arrive.acknowledge s.boundaryInput).2.deliverExternal (s.arrive.acknowledge s.boundaryInput).1 = .next t) ∨
    (s.nmiDue = false ∧ s.intrDue = false ∧ s.arrive.runInstruction = .next t) := by
  unfold State.boundary at h
  rcases recognise_cases s with ⟨h1, h2⟩ | ⟨h1, h2, h3⟩ | ⟨h1, h2, h3⟩
  · rw [h2] at h; exact .inl ⟨h1, h⟩
  · rw [h3] at h; exact .inr (.inl ⟨h1, h2, h⟩)
  · rw [h3] at h; exact .inr (.inr ⟨h1, h2, h⟩)

/-- A step that completes is a boundary of an accepted state (R93, R129). -/
theorem step_next {s t : State} (h : step s = .next t) : ∃ u, s.accept = .ok u ∧ u.boundary = .next t := by
  unfold step at h
  split at h
  · cases h
  · exact ⟨_, ‹_›, h⟩

/-- The bytes of the code segment depend on memory and CS alone. -/
theorem codeBytes_congr {s t : State} (hm : t.mem = s.mem) (hc : t.cs = s.cs) (n off : Nat) :
    t.codeBytes n off = s.codeBytes n off := by
  induction n generalizing off with
  | zero => rfl
  | succ n ih => simp only [State.codeBytes, hc, ih, State.read8_congr hm]

theorem codeBytes_arrive (s : State) (n off : Nat) : s.arrive.codeBytes n off = s.codeBytes n off :=
  codeBytes_congr s.arrive_mem s.arrive_cs n off

theorem codeBytes_launch (s : State) (n off : Nat) : s.launch.codeBytes n off = s.codeBytes n off :=
  codeBytes_congr s.launch_mem s.launch_cs n off

/-- What a state's instruction does, by what its bytes decode to (R15, R68). -/
theorem runInstruction_instr {s : State} {i : Instr} (h : decode (s.codeBytes maxLength s.ip.toNat) = .instr i) :
    s.runInstruction = exec i s := by
  unfold State.runInstruction State.fetch
  rw [h]

/-- An instruction that completes was decoded, or a failed fetch was delivered as an exception. -/
theorem runInstruction_next {s t : State} (h : s.runInstruction = .next t) :
    (∃ i, decode (s.codeBytes maxLength s.ip.toNat) = .instr i ∧ exec i s = .next t) ∨
    ∃ r, settle false (.error (failing s r)) = .next t := by
  unfold State.runInstruction State.fetch at h
  split at h
  · rename_i i hi; exact .inl ⟨i, hi, h⟩
  · unfold State.noInstruction at h
    split at h
    · cases h
    · exact .inr ⟨_, h⟩
    · cases h
    · exact .inr ⟨_, h⟩

/-! ### Outcomes -/

/-- What a procedure keeps, its outcome keeps, delivered exceptions included (R114). -/
theorem move_settle {s t : State} {ext : Bool} {r : Attempt} (h : Attempt.all (CpuMove s) r) (hn : settle ext r = .next t) :
    CpuMove s t := by
  rcases settle_next hn with rfl | ⟨f, rfl, _, hf⟩
  · exact h
  · have hf' : CpuMove s f.left := h
    obtain ⟨u, v, err, hd, hu⟩ := deliverException_next hf
    have k := move_deliver u v .exception u.ip err
    rw [hd] at k
    rcases hu with rfl | ⟨g, hg, rfl⟩
    · exact hf'.trans k
    · have k' := move_deliver f.left f.vector .exception f.left.ip (f.errorCode ext)
      rw [hg] at k'
      exact (hf'.trans k').trans k

theorem move_deliverExternal {s t : State} {v : Byte} (h : s.deliverExternal v = .next t) : CpuMove s t :=
  move_settle (move_deliver s v .external s.ip none) h

end Sys2Proof.Machine
end

