-- ==== Sys2Proof/Laws/Fields.lean ====
section
/-! SUPPORT. The accessed bit hides none of the fields of an access byte, a selector keeps its other fields when its
RPL is replaced, and the fixed bits of the flag word stay fixed. -/

namespace Sys2Proof.Machine

/-! ### Access bytes and selectors -/

@[simp] theorem arPresent_arAccessed (a : Byte) : arPresent (arAccessed a) = arPresent a := by simp [arPresent, arAccessed]

@[simp] theorem arIsSegment_arAccessed (a : Byte) : arIsSegment (arAccessed a) = arIsSegment a := by
  simp [arIsSegment, arAccessed]

@[simp] theorem arDpl_arAccessed (a : Byte) : arDpl (arAccessed a) = arDpl a := by
  apply BitVec.eq_of_getLsbD_eq
  intro j hj
  rw [arDpl, arDpl, BitVec.getLsbD_extractLsb', BitVec.getLsbD_extractLsb', arAccessed, BitVec.getLsbD_or]
  interval_cases j <;> simp

@[simp] theorem arIsCode_arAccessed (a : Byte) : arIsCode (arAccessed a) = arIsCode a := by
  unfold arIsCode; rw [arIsSegment_arAccessed]; simp [arAccessed]

@[simp] theorem arConforming_arAccessed (a : Byte) : arConforming (arAccessed a) = arConforming a := by
  unfold arConforming; rw [arIsCode_arAccessed]; simp [arAccessed]

@[simp] theorem arIsData_arAccessed (a : Byte) : arIsData (arAccessed a) = arIsData a := by
  unfold arIsData; rw [arIsSegment_arAccessed]; simp [arAccessed]

@[simp] theorem arWritable_arAccessed (a : Byte) : arWritable (arAccessed a) = arWritable a := by
  unfold arWritable; rw [arIsData_arAccessed]; simp [arAccessed]

@[simp] theorem arReadable_arAccessed (a : Byte) : arReadable (arAccessed a) = arReadable a := by
  unfold arReadable; rw [arIsData_arAccessed, arIsCode_arAccessed]; simp [arAccessed]

@[simp] theorem arExpandDown_arAccessed (a : Byte) : arExpandDown (arAccessed a) = arExpandDown a := by
  unfold arExpandDown; rw [arIsData_arAccessed]; simp [arAccessed]

@[simp] theorem arCodeFits_arAccessed (a : Byte) (k : Level) : arCodeFits (arAccessed a) k = arCodeFits a k := by
  simp [arCodeFits]

@[simp] theorem selRpl_selWithRpl (sel : Word) (k : Level) : selRpl (selWithRpl sel k) = k := by
  apply BitVec.eq_of_getLsbD_eq
  intro j hj
  rw [selRpl, selWithRpl, BitVec.getLsbD_extractLsb', BitVec.getLsbD_append]
  simp [hj]

@[simp] theorem selNull_selWithRpl (sel : Word) (k : Level) : selNull (selWithRpl sel k) = selNull sel := by
  have : (selWithRpl sel k).extractLsb' 2 14 = sel.extractLsb' 2 14 := by
    apply BitVec.eq_of_getLsbD_eq
    intro j hj
    rw [selWithRpl, BitVec.getLsbD_extractLsb', BitVec.getLsbD_append, BitVec.getLsbD_extractLsb']
    have : ¬ 2 + j < 2 := by omega
    simp [hj, this]
  simp [selNull, this]

/-! ### The flag word -/

@[simp] theorem fixFlags_fixFlags (v : Word) : fixFlags (fixFlags v) = fixFlags v := by
  apply BitVec.eq_of_getLsbD_eq
  intro j hj
  interval_cases j <;> simp [fixFlags]

@[simp] theorem fixFlags_setNt (v : Word) : fixFlags (setNt (fixFlags v)) = setNt (fixFlags v) := by
  apply BitVec.eq_of_getLsbD_eq
  intro j hj
  interval_cases j <;> simp [fixFlags, setNt]

@[simp] theorem fixFlags_handlerFlags (c : Bool) (v : Word) :
    fixFlags (handlerFlags c (fixFlags v)) = handlerFlags c (fixFlags v) := by
  apply BitVec.eq_of_getLsbD_eq
  intro j hj
  interval_cases j <;> cases c <;> simp [fixFlags, handlerFlags, clearNt, clearTf, clearIf]

@[simp] theorem fixFlags_filterFlags (f : Bool) (k : Level) (old img : Word) :
    fixFlags (filterFlags f k old img) = filterFlags f k old img := fixFlags_fixFlags _

/-! ### Data segments -/

/-- What a level may read, a more privileged one may. -/
theorem dataHeld_mono {g : SegReg} {k l : Level} (h : l ≤ k) (hg : dataHeld g k = true) : dataHeld g l = true := by
  unfold dataHeld at *
  simp only [Bool.or_eq_true, Bool.and_eq_true, decide_eq_true_eq] at *
  rcases hg with hg | ⟨a, hg | hg⟩
  · exact .inl hg
  · exact .inr ⟨a, .inl hg⟩
  · exact .inr ⟨a, .inr (BitVec.le_trans h hg)⟩

/-- Loading DS or ES of an incoming task touches no other register. -/
theorem loadTaskData_fields {s t : State} {n : SegName} {sel : Word} (h : s.loadTaskData n sel = .ok t) :
    t.cpl = s.cpl ∧ t.regs = s.regs ∧ t.ip = s.ip ∧ t.flags = s.flags ∧ ∀ m, m ≠ n → t.seg m = s.seg m := by
  rcases loadTaskData_ok.mp h with ⟨_, rfl⟩ | ⟨d, _, _, _, rfl⟩ <;> cases n <;>
    refine ⟨by simp, by simp, by simp, by simp, fun m hm => ?_⟩ <;> cases m <;> simp [State.seg] at hm ⊢

/-- What a task switch loads into DS or ES, the incoming level may read (R110 step 9). -/
theorem loadTaskData_held {s t : State} {n : SegName} {sel : Word} (h : s.loadTaskData n sel = .ok t) :
    dataHeld (t.seg n) t.cpl = true := by
  rcases loadTaskData_ok.mp h with ⟨hn, rfl⟩ | ⟨d, _, hf, hp, rfl⟩
  · cases n <;> simp [State.seg, dataHeld, SegReg.asNull, hn]
  · simp only [dataSegFits, Bool.and_eq_true, Bool.or_eq_true, decide_eq_true_eq] at hf
    obtain ⟨q1, q2⟩ := hf
    have : arConforming d.ar = true ∨ s.cpl ≤ arDpl d.ar := by
      rcases q2 with q2 | q2
      · exact .inl q2
      · right
        unfold levelMax at q2
        split at q2
        · exact BitVec.le_trans ‹_› q2
        · exact q2
    cases n <;> rcases this with q | q <;> simp [State.seg, dataHeld, Desc.toSegReg, hp, q1, q]

end Sys2Proof.Machine
end

