-- ==== Sys2Proof/Laws/PerInstr.lean ====
section
/-! SUPPORT. Statements about every instruction as syntax, one lemma per constructor. -/

namespace Sys2Proof.Laws

/-- The encoding of an instruction has the length R64 gives it, 1 to 5 bytes (R62). -/
def EncodeLength.Statement (i : Instr) : Prop :=
  (encode i).length = i.length ∧ 1 ≤ i.length ∧ i.length ≤ maxLength

theorem EncodeLength.intN (n : Byte) : EncodeLength.Statement (.intN n) := by simp [EncodeLength.Statement, encode, Instr.length, maxLength]

theorem EncodeLength.int3 : EncodeLength.Statement .int3 := by simp [EncodeLength.Statement, encode, Instr.length, maxLength]

theorem EncodeLength.into : EncodeLength.Statement .into := by simp [EncodeLength.Statement, encode, Instr.length, maxLength]

theorem EncodeLength.iret : EncodeLength.Statement .iret := by simp [EncodeLength.Statement, encode, Instr.length, maxLength]

theorem EncodeLength.lidt (m : MemOperand) : EncodeLength.Statement (.lidt m) := by
  unfold EncodeLength.Statement
  rcases m with ⟨b, _ | d | d⟩ | d <;>
    simp [encode, Instr.length, maxLength, MemOperand.dispBytes, MemOperand.dispSize, wordBytes]

theorem EncodeLength.movR8Imm8 (r : Reg8) (v : Byte) : EncodeLength.Statement (.movR8Imm8 r v) := by
  simp [EncodeLength.Statement, encode, Instr.length, maxLength]

theorem EncodeLength.movR16Imm16 (r : Reg16) (v : Word) : EncodeLength.Statement (.movR16Imm16 r v) := by
  simp [EncodeLength.Statement, encode, Instr.length, maxLength, wordBytes]

theorem EncodeLength.outDxAl : EncodeLength.Statement .outDxAl := by simp [EncodeLength.Statement, encode, Instr.length, maxLength]

end Sys2Proof.Laws
end

