-- ==== Sys2Proof/Tests/Slice0.lean ====
section
/-! SUPPORT. The model's own tests: the ill-formed term, encodings written out by hand (`30_encoding.md` R67), one
or two steps per instruction on the memory image of `95_test_vectors.md` section 1 (expected results from its
vectors), and for each statement with hypotheses a witness that meets them. -/

namespace Sys2Proof.Tests

open Sys2Proof Sys2Proof.Machine

/-! ### Well-formedness and decoding -/

/-- R66: mod = 00 with rm = 110 is the lone displacement, so BP without displacement has no encoding. -/
theorem test_wf_bp_alone_refused : (Instr.lidt (.based .bp .none)).wellFormed = false := by decide

theorem test_wf_bp_with_displacement : (Instr.lidt (.based .bp (.disp8 0x00#8))).wellFormed = true := by decide

/-- 1100_1101, n (R67). -/
theorem test_decode_int_n : decode [0b11001101#8, 0b01000000#8] = .instr (.intN 0x40#8) := by decide

/-- 1100_1100 (R67). -/
theorem test_decode_int3 : decode [0b11001100#8] = .instr .int3 := by decide

/-- 1100_1110 (R67). -/
theorem test_decode_into : decode [0b11001110#8] = .instr .into := by decide

/-- 1100_1111 (R67). -/
theorem test_decode_iret : decode [0b11001111#8] = .instr .iret := by decide

/-- 0FH, 01H, ModRM = 01_011_110: mod 01, reg 011, rm 110, so BP + disp8 (R63, R66). -/
theorem test_decode_lidt : decode [0x0F#8, 0x01#8, 0b01011110#8, 0xFE#8] = .instr (.lidt (.based .bp (.disp8 0xFE#8))) := by
  decide

/-- 1011_0_100, imm8: w = 0, register 4 = AH (R63, R14). -/
theorem test_decode_mov_r8 : decode [0b10110100#8, 0x28#8] = .instr (.movR8Imm8 .ah 0x28#8) := by decide

/-- 1011_1_010, low byte, high byte: w = 1, register 2 = DX (R63, R65). -/
theorem test_decode_mov_r16 : decode [0b10111010#8, 0x01#8, 0x04#8] = .instr (.movR16Imm16 .dx 0x0401#16) := by decide

/-- 1110_1110 (R67). -/
theorem test_decode_out : decode [0b11101110#8] = .instr .outDxAl := by decide

/-- The opcode table writes byte 0 leftmost: 0F 01 18 is LIDT [BX+SI] (R67). -/
theorem test_table_word_lidt : decodeTableWord 24 0x0F0118 = some (.lidt (.based .bxSi .none)) := by decide

/-! ### The image of `95_test_vectors.md` section 1 -/

/-- The cells of consecutive bytes, without the zeros that are not listed. -/
def cellsAt : Nat → List Byte → List Host.Cell
  | _, [] => []
  | a, b :: bs => if b = Config.blankByte then cellsAt (a + 1) bs else (a, b) :: cellsAt (a + 1) bs

/-- The GDT, from selector 0008 on. -/
def gdtCells : List Host.Cell :=
  cellsAt 0x1008 [0xFF, 0xFF, 0x00, 0x00, 0x01, 0x9B] ++ cellsAt 0x1010 [0xFF, 0xFF, 0x00, 0x00, 0x02, 0x93] ++
  cellsAt 0x1018 [0xFF, 0xFF, 0x00, 0x00, 0x03, 0xFB] ++ cellsAt 0x1020 [0xFF, 0xFF, 0x00, 0x00, 0x04, 0xF3] ++
  cellsAt 0x1028 [0x2B, 0x00, 0x00, 0x00, 0x05, 0x83] ++ cellsAt 0x1030 [0x2B, 0x00, 0x00, 0x00, 0x06, 0x81] ++
  cellsAt 0x1038 [0xFF, 0xFF, 0x00, 0x00, 0x07, 0xBF]

/-- The IDT entries 02, 03, 04, 40, 41, 42, 44, 45. -/
def idtCells : List Host.Cell :=
  cellsAt 0x2010 [0x00, 0x04, 0x08, 0x00, 0x00, 0x86] ++ cellsAt 0x2018 [0x00, 0x06, 0x08, 0x00, 0x00, 0xE7] ++
  cellsAt 0x2020 [0x00, 0x05, 0x08, 0x00, 0x00, 0xE7] ++ cellsAt 0x2170 [0x00, 0x02, 0x08, 0x00, 0x00, 0x06] ++
  cellsAt 0x2200 [0x00, 0x01, 0x08, 0x00, 0x00, 0xE7] ++ cellsAt 0x2208 [0x00, 0x00, 0x30, 0x00, 0x00, 0xE5] ++
  cellsAt 0x2210 [0x00, 0x02, 0x08, 0x00, 0x00, 0x86] ++ cellsAt 0x2220 [0x00, 0x00, 0x18, 0x00, 0x00, 0xE7] ++
  cellsAt 0x2228 [0xFF, 0xFF, 0x00, 0x00, 0x01, 0x9B]

/-- The main task's TSS and the interrupt task's. -/
def tssCells : List Host.Cell :=
  cellsAt 0x50002 [0x00, 0x10, 0x10, 0x00] ++ cellsAt 0x6000E [0x00, 0x03, 0x02, 0x00] ++ cellsAt 0x6001A [0x00, 0x20] ++
  cellsAt 0x60024 [0x08, 0x00, 0x10, 0x00, 0x10, 0x00]

/-- A segment register that caches one of the image's descriptors. -/
def segment (sel : Word) (base : Addr) (ar : Byte) : SegReg := { sel := sel, base := base, limit := 0xFFFF, ar := ar }

/-- A start state of section 1: code and stack, instruction pointer, stack pointer, flags, and more cells between
those of the IDT and those of the TSSs (the code) or after them (a stack at 02xxxx stands between too). -/
def machine (level : Level) (ip sp flags : Word) (code : List Host.Cell) : State :=
  { State.reset with
    mem := { cells := gdtCells ++ idtCells ++ code ++ tssCells }
    gdtr := { base := 0x1000, limit := 0x67 }
    idtr := { base := 0x2000, limit := 0x7FF }
    tr := { sel := 0x28, base := 0x50000, limit := 0x2B }
    msw := 0x0001
    cpl := level
    cs := if level = 0 then segment 0x08 0x10000 0x9B else segment 0x1B 0x30000 0xFB
    ss := if level = 0 then segment 0x10 0x20000 0x93 else segment 0x23 0x40000 0xF3
    ds := segment 0 0 0
    es := segment 0 0 0
    ip := ip
    flags := flags
    regs := { State.reset.regs with sp := sp }
    launched := true }

/-- The state of an outcome, if it is one. -/
def after : Machine.Outcome → Option State
  | .next t => some t
  | .fault _ => none
  | .refused _ => none

/-- The fault of an outcome, if it is one. -/
def faultOf : Machine.Outcome → Option Fault
  | .next _ => none
  | .fault f => some f
  | .refused _ => none

/-- The refusal of an outcome, if it is one. -/
def refusalOf : Machine.Outcome → Option Refusal
  | .next _ => none
  | .fault _ => none
  | .refused r => some r

/-- The image at 0008:0070, SS:SP = 0010:1000, FLAGS = 0202, with code there. -/
def inner (code : List Byte) : State := machine 0 0x70 0x1000 0x202 (cellsAt 0x10070 code)

/-- The image at 001B:0030, SS:SP = 0023:0800, FLAGS = 0202, with code there. -/
def outer (code : List Byte) : State := machine 3 0x30 0x800 0x202 (cellsAt 0x30030 code)

theorem test_image_is_canonical : (inner [0xCD, 0x40]).canonical = true := by decide

/-- The image is a launch state (R129). -/
theorem test_image_launches :
    ({ inner [0xCD, 0x40] with launched := false } : State).brokenCondition = none ∧
    ({ outer [0xCD, 0x40] with launched := false } : State).brokenCondition = none := by decide

/-! ### Steps -/

/-- Program P2: INT 40H at CPL 3 enters 0008:0100 at CPL 0 on the stack 0010:1000 of the TSS. -/
theorem test_int_n_inner_level :
    (after (step (outer [0xCD, 0x40]))).map (fun t => (t.cs.sel, t.ip, t.cpl, t.ss.sel, t.regs.sp)) =
      some (0x08, 0x100, 0, 0x10, 0xFF6) := by decide

/-- R72: the one-byte form saves the IP one byte on. -/
theorem test_int3_return_ip :
    (after (step (inner [0xCC]))).map (fun t => (t.ip, t.read16 0x20FFA, t.read16 0x20FFC, t.read16 0x20FFE)) =
      some (0x600, 0x71, 0x08, 0x202) := by decide

/-- R73: FLAGS = 0A02 has OF = 1. -/
theorem test_into_overflow :
    (after (step ({ inner [0xCE] with flags := 0xA02 } : State))).map (fun t => (t.ip, t.read16 0x20FFA, t.read16 0x20FFE)) =
      some (0x500, 0x71, 0xA02) := by decide

theorem test_into_no_overflow : (after (step (inner [0xCE]))).map (fun t => (t.ip, t.regs.sp)) = some (0x71, 0x1000) := by
  decide

/-- The example of R77: SS:SP = 0010:0FFA holding 0050, 0008, 0202. -/
theorem test_iret_same_level :
    (after (step ({ machine 0 0x70 0xFFA 0x02 (cellsAt 0x10070 [0xCF] ++ cellsAt 0x20FFA [0x50, 0x00, 0x08, 0x00, 0x02, 0x02])
        with nmiInService := true } : State))).map
      (fun t => (t.cs.sel, t.ip, t.flags, t.regs.sp, t.nmiInService)) = some (0x08, 0x50, 0x202, 0x1000, false) := by decide

/-- Program P2's return: the frame of an inner level at 0010:0FF6 leads back to 001B:0032, SS:SP = 0023:0800. -/
theorem test_iret_outer_level :
    (after (step (machine 0 0x70 0xFF6 0x02 (cellsAt 0x10070 [0xCF] ++
        cellsAt 0x20FF6 [0x32, 0x00, 0x1B, 0x00, 0x02, 0x02, 0x00, 0x08, 0x23, 0x00])))).map
      (fun t => (t.cs.sel, t.ip, t.cpl, t.ss.sel, t.regs.sp)) = some (0x1B, 0x32, 3, 0x23, 0x800) := by decide

/-- The example of R82, with the operand in the level-0 data segment at offset 0100. -/
theorem test_lidt_loads :
    (after (step ({ machine 0 0x70 0x1000 0x202 (cellsAt 0x10070 [0x0F, 0x01, 0x1F] ++
        cellsAt 0x20100 [0xFF, 0x07, 0x00, 0x20, 0x00, 0x00]) with
        ds := segment 0x10 0x20000 0x93
        regs := { State.reset.regs with bx := 0x100 } } : State))).map (fun t => (t.idtr.limit, t.idtr.base, t.ip)) =
      some (0x7FF, 0x002000, 0x73) := by decide

theorem test_lidt_needs_level_zero : faultOf (step (outer [0x0F, 0x01, 0x1F])) = some .privilegedInstruction := by decide

/-- R84: AH is loaded, AL stays. -/
theorem test_mov_r8_keeps_the_other_byte :
    (after (step ({ inner [0xB4, 0x28] with regs := { State.reset.regs with ax := 0x1234 } } : State))).map
      (fun t => (t.regs.ax, t.ip)) = some (0x2834, 0x72) := by decide

/-- R85: `MOV DX,0401H`. -/
theorem test_mov_r16 :
    (after (step (inner [0xBA, 0x01, 0x04]))).map (fun t => (t.regs.dx, t.ip)) = some (0x401, 0x73) := by decide

/-- R86: 28H to port 0401H becomes ICW2. -/
theorem test_out_writes_icw2 :
    (after (step ({ inner [0xEE] with regs := { State.reset.regs with ax := 0x28, dx := 0x401 } } : State))).map
      (fun t => (t.pic.icw2, t.ip)) = some (0x28, 0x71) := by decide

theorem test_out_needs_iopl : faultOf (step (outer [0xEE])) = some .ioPrivilege := by decide

/-- Program P5: INT 41H enters the interrupt task with NT set, a back link and the BUSY bit. -/
theorem test_int_n_task_gate :
    (after (step (inner [0xCD, 0x41]))).map
      (fun t => ((t.tr.sel, t.ip, t.flags), t.read16 0x60000, t.read8 0x1035, t.read16 0x5000E)) =
      some ((0x30, 0x300, 0x4002), 0x28, 0x83, 0x72) := by decide

/-! ### Witnesses: what the hypotheses of each statement ask for can be met -/

theorem exists_next {o : Machine.Outcome} {P : State → Prop} [DecidablePred P]
    (h : (after o).any (fun t => decide (P t)) = true) : ∃ t, o = .next t ∧ P t := by
  cases o with
  | next t => exact ⟨t, rfl, by simpa [after] using h⟩
  | fault f => cases h
  | refused r => cases h

/-- Whether an attempt answers a state with a property. -/
def okWith (r : Attempt) (p : State → Bool) : Bool :=
  match r with
  | .ok u => p u
  | .error _ => false

theorem exists_ok {r : Attempt} {P : State → Prop} [DecidablePred P]
    (h : okWith r (fun t => decide (P t)) = true) : ∃ t, r = .ok t ∧ P t := by
  cases r with
  | ok t => exact ⟨t, rfl, by simpa [okWith] using h⟩
  | error f => cases h

theorem exists_error {r : Attempt} (h : okWith r (fun _ => true) = false) : ∃ f, r = .error f := by
  cases r with
  | ok t => cases h
  | error f => exact ⟨f, rfl⟩

/-- The descriptors of selectors 0008, 0010, 0018, 0020, 0028, 0030 of the image. -/
def code0 : Desc := ⟨0xFF, 0xFF, 0x00, 0x00, 0x01, 0x9B, 0x00, 0x00, 0x1008⟩
def data0 : Desc := ⟨0xFF, 0xFF, 0x00, 0x00, 0x02, 0x93, 0x00, 0x00, 0x1010⟩
def code3 : Desc := ⟨0xFF, 0xFF, 0x00, 0x00, 0x03, 0xFB, 0x00, 0x00, 0x1018⟩
def data3 : Desc := ⟨0xFF, 0xFF, 0x00, 0x00, 0x04, 0xF3, 0x00, 0x00, 0x1020⟩
def mainTss : Desc := ⟨0x2B, 0x00, 0x00, 0x00, 0x05, 0x83, 0x00, 0x00, 0x1028⟩
def handlerTss : Desc := ⟨0x2B, 0x00, 0x00, 0x00, 0x06, 0x81, 0x00, 0x00, 0x1030⟩

theorem test_meets_DecodeReadsEveryEncoding :
    (Instr.lidt (.direct 0xFFFF)).wellFormed = true ∧ (Instr.lidt (.based .bp (.disp8 0x00))).wellFormed = true := by decide

theorem test_meets_DecodedBytesAreTheEncoding :
    decode [0x0F, 0x01, 0x9E, 0xFF, 0xFF, 0x90] = .instr (.lidt (.based .bp (.disp16 0xFFFF))) := by decide

theorem test_meets_BytesOutsideTheMapAreRefused :
    ((0xCB : Byte) ≠ 0x0F ∧ (0xCB : Byte) ≠ 0xCC ∧ (0xCB : Byte) ≠ 0xCD ∧ (0xCB : Byte) ≠ 0xCE ∧ (0xCB : Byte) ≠ 0xCF ∧
      (0xCB : Byte) ≠ 0xEE ∧ (0xCB : Byte).extractLsb' 4 4 ≠ 0xB#4) ∧
    (0x00 : Byte) ≠ 0x01 ∧ (0x17 : Byte).extractLsb' 3 3 ≠ 3#3 ∧
    ((0xD8 : Byte).extractLsb' 3 3 = 3#3 ∧ (0xD8 : Byte).extractLsb' 6 2 = 3#2) := by decide

theorem test_meets_StepRunsDecodedInstruction :
    ((inner [0xCC]).runsNext = true ∧
      decode ((inner [0xCC]).codeBytes maxLength (inner [0xCC]).ip.toNat) = .instr .int3) ∧
    (({ inner [0xCC] with launched := false } : State).launched = false ∧
      ({ inner [0xCC] with launched := false } : State).brokenCondition = none ∧
      ({ inner [0xCC] with launched := false } : State).nmiDue = false ∧
      ({ inner [0xCC] with launched := false } : State).intrDue = false ∧
      decode (({ inner [0xCC] with launched := false } : State).codeBytes maxLength 0x70) = .instr .int3) := by decide

/-- The image with the limit of CS replaced. -/
def limited (limit : Word) (code : List Byte) : State :=
  { inner code with cs := { (inner code).cs with limit := limit } }

/-- Both clauses at their boundary: the last byte at the limit, and one beyond it. -/
theorem test_meets_InstructionMustLieWithinCodeLimit :
    ((limited 0x71 [0xCD, 0x40]).runsNext = true ∧ (limited 0x71 [0xCD, 0x40]).params.deliverFaults = false ∧
      (∀ j, j < 2 → 0x70 + j ≤ 0x71 →
        (limited 0x71 [0xCD, 0x40]).read8 (0x10000 + BitVec.ofNat 24 (0x70 + j)) = [0xCD#8, 0x40#8].getD j 0x00) ∧
      0x70 + (Instr.intN 0x40).length ≤ 0x71 + 1) ∧
    ((limited 0x70 [0xCD, 0x40]).runsNext = true ∧ (limited 0x70 [0xCD, 0x40]).params.deliverFaults = false ∧
      (∀ j, j < 2 → 0x70 + j ≤ 0x70 →
        (limited 0x70 [0xCD, 0x40]).read8 (0x10000 + BitVec.ofNat 24 (0x70 + j)) = [0xCD#8, 0x40#8].getD j 0x00) ∧
      0x70 + 1 < 0x70 + (Instr.intN 0x40).length) := by decide

theorem test_meets_StepStopsOutsideTheMap :
    ((inner [0x90]).runsNext = true ∧ decode ((inner [0x90]).codeBytes maxLength 0x70) = .notInScope 0x90) ∧
    ((inner [0x0F, 0x01, 0xD8]).runsNext = true ∧
      decode ((inner [0x0F, 0x01, 0xD8]).codeBytes maxLength 0x70) = .invalidOpcode) := by decide

/-- One boundary's inputs with requests at NMI, at IR5 and IR6, and the choice of IR6. -/
def busyBoundary (nmi : Bool) : BoundaryInput := { nmi := nmi, ir := 0x60, holdIntr := false, serve := some 6 }

theorem test_meets_NmiIsDeliveredFirst :
    ({ inner [] with inputs := [busyBoundary true] } : State).atBoundary = true ∧
    ({ inner [] with inputs := [busyBoundary true] } : State).nmiDue = true := by decide

theorem test_meets_AcceptedIntrServesARequest :
    ({ inner [] with inputs := [busyBoundary false] } : State).atBoundary = true ∧
    ({ inner [] with inputs := [busyBoundary false] } : State).nmiDue = false ∧
    ({ inner [] with inputs := [busyBoundary false] } : State).intrDue = true ∧
    ((inner []).pic.request 0x60).edge.getLsbD 6 = true := by decide

theorem test_meets_TrapFlagEndsTheRun :
    ({ inner [] with flags := 0x302 } : State).launched = true ∧
    ({ inner [] with flags := 0x302 } : State).flags.getLsbD 8 = true := by decide

theorem test_meets_BadLaunchStatesAreRefused :
    (({ limited 0x6F [] with launched := false } : State).brokenCondition = some 2) ∧
    (State.reset.launched = false ∧ State.reset.msw.getLsbD 0 = false) ∧
    (({ inner [] with launched := false } : State).brokenCondition = none) := by decide

/-- One step that completes and meets what the invariants ask of its start. -/
theorem test_meets_StepInvariants :
    ((outer [0xCD, 0x40]).canonical = true ∧ (outer [0xCD, 0x40]).levelAgrees = true ∧
      (outer [0xCD, 0x40]).flagsFixed = true ∧ (outer [0xCD, 0x40]).protectionHolds = true) ∧
    ∃ t, step (outer [0xCD, 0x40]) = .next t ∧ t.cpl = 0 := ⟨by decide, exists_next (by decide)⟩

theorem test_meets_AcceptedLaunchIsProtected :
    ({ outer [] with launched := false } : State).brokenCondition = none ∧ (outer []).params.deliverFaults = false := by
  decide

/-- LIDT [BX] with DS at the level-0 data segment. -/
def lidtState : State :=
  { inner [0x0F, 0x01, 0x1F] with ds := segment 0x10 0x20000 0x93, regs := { State.reset.regs with bx := 0xFFFA } }

theorem test_meets_OnlyLidtAtLevelZeroChangesIdtr :
    ∃ t, step lidtState = .next t ∧ t.idtr ≠ lidtState.idtr := exists_next (by decide)

theorem test_meets_NmiServiceEndsOnlyByIret :
    (∃ t, step ({ inner [0xCC] with nmiInService := true, nmiPending := true } : State) = .next t ∧
      t.nmiPending = true) ∧
    (∃ t, step ({ machine 0 0x70 0xFFA 0x02 (cellsAt 0x10070 [0xCF] ++ cellsAt 0x20FFA [0x50, 0x00, 0x08, 0x00, 0x02, 0x02])
        with nmiInService := true } : State) = .next t ∧ t.nmiInService = false) :=
  ⟨exists_next (by decide), exists_next (by decide)⟩

/-- A frame of three words at 0010:0FFA that leads back to 0008:0050 with flags 0202. -/
def sameFrame : State :=
  machine 0 0x70 0xFFA 0x02 (cellsAt 0x10070 [0xCF] ++ cellsAt 0x20FFA [0x50, 0x00, 0x08, 0x00, 0x02, 0x02])

/-- A frame of five words at 0010:0FF6 that leads back to 001B:0032 with flags 0202 and SS:SP = 0023:0800. -/
def outerFrame : State :=
  machine 0 0x70 0xFF6 0x02 (cellsAt 0x10070 [0xCF] ++
    cellsAt 0x20FF6 [0x32, 0x00, 0x1B, 0x00, 0x02, 0x02, 0x00, 0x08, 0x23, 0x00])

theorem test_meets_CompletedIretReopensTheNmiInput :
    sameFrame.params.deliverFaults = false ∧
    ∃ t, exec .iret ({ sameFrame with nmiPending := true, nmiInService := true } : State) = .next t ∧
      t.flags.getLsbD 8 = false := ⟨by decide, exists_next (by decide)⟩

/-- A level-3 state before OUT with this flag word and port. -/
def outState (flags dx : Word) : State :=
  { outer [] with flags := flags, regs := { State.reset.regs with dx := dx } }

/-- CPL = IOPL = 3 for the first two clauses, and CPL one above IOPL for the third. -/
theorem test_meets_OutWritesThePort :
    ((outState 0x3202 0x401).cpl ≤ flagIopl (outState 0x3202 0x401).flags ∧
      (outState 0x3202 0x401).regs.dx = (outState 0x3202 0x401).params.picIcw2Port) ∧
    ((outState 0x3202 0x402).cpl ≤ flagIopl (outState 0x3202 0x402).flags ∧
      (outState 0x3202 0x402).regs.dx ≠ (outState 0x3202 0x402).params.picIcw2Port) ∧
    (flagIopl (outState 0x2202 0x401).flags < (outState 0x2202 0x401).cpl ∧
      (outState 0x2202 0x401).params.deliverFaults = false) := by decide

/-- The operand at the last offset that is allowed. -/
theorem test_meets_LidtLoadsTheTableRegister :
    lidtState.cpl = 0 ∧ effectiveOffset lidtState.regs (.based .bx .none) ≤ 0xFFFA ∧
    segReadOk (lidtState.seg .ds) 0xFFFA 2 = true ∧ segReadOk (lidtState.seg .ds) (0xFFFA + 2) 2 = true ∧
    segReadOk (lidtState.seg .ds) (0xFFFA + 4) 2 = true ∧ operandSegment (.based .bx .none) = .ds := by decide

theorem test_meets_LidtFaultsOutsideItsConditions :
    ((outer []).cpl ≠ 0) ∧ (lidtState.cpl = 0 ∧ 0xFFFA < effectiveOffset lidtState.regs (.based .bx (.disp8 0x01))) ∧
    ((inner []).cpl = 0 ∧ segReadOk ((inner []).seg .ds) (0x100 + 0#16) 2 = false) := by decide

theorem test_meets_IntoWithoutOverflowOnlyAdvances : (inner [0xCE]).flags.getLsbD 11 = false := by decide

/-- The incoming task of the image's task gate 41H, past the point of no return. -/
def incoming (s : State) : Attempt :=
  let u := s.leaveTask 0x30 handlerTss .nest 0x30
  (u.loadTask .nest (u.readTss handlerTss.base)).loadTaskSegments (u.readTss handlerTss.base)

theorem test_meets_SoftwareInterruptEntersTheSameLevel :
    softwareEvent (inner []) (.intN 0x40) = some (0x40, 0x72) ∧ (inner []).gateOpen 0x40 .software = true ∧
    (inner []).procedureGate 0x40 = true ∧ (inner []).handlerAt ((inner []).idtEntry 0x40) code0 = true ∧
    arCodeFits code0.ar (inner []).cpl = true ∧ frameFits (inner []).ss (inner []).regs.sp 3 = true := by decide

theorem test_meets_SoftwareInterruptEntersAnInnerLevel :
    softwareEvent (outer []) .int3 = some (3, 0x31) ∧ (outer []).gateOpen 3 .software = true ∧
    (outer []).procedureGate 3 = true ∧ (outer []).handlerAt ((outer []).idtEntry 3) code0 = true ∧
    arConforming code0.ar = false ∧ arDpl code0.ar < (outer []).cpl ∧
    (outer []).innerStackAt (arDpl code0.ar) 0x10 0x1000 data0 = true ∧
    frameFits (data0.toSegReg 0x10) 0x1000 5 = true := by decide

theorem test_meets_SoftwareInterruptSwitchesTasks :
    (softwareEvent (outer []) (.intN 0x41) = some (0x41, 0x32) ∧ (outer []).gateOpen 0x41 .software = true ∧
      ((outer []).idtEntry 0x41).isTaskGate = true ∧
      (outer []).taskAt ((outer []).idtEntry 0x41).gateSelector false handlerTss = true) ∧
    ∃ t, (((outer []).leaveTask 0x30 handlerTss .nest 0x32).loadTask .nest
        (((outer []).leaveTask 0x30 handlerTss .nest 0x32).readTss handlerTss.base)).loadTaskSegments
        (((outer []).leaveTask 0x30 handlerTss .nest 0x32).readTss handlerTss.base) = .ok t ∧ t.cpl = 0 :=
  ⟨by decide, exists_ok (by decide)⟩

/-- For both causes: the BUSY byte and the back link lie outside the words that are saved. -/
theorem test_meets_LeavingATaskSavesItsState :
    ¬ within ((outer []).tr.base + 0x0E) 28 (handlerTss.addr + 5) ∧ ¬ within handlerTss.base 2 (handlerTss.addr + 5) ∧
    (∀ a, within handlerTss.base 2 a → ¬ within ((outer []).tr.base + 0x0E) 28 a) ∧
    ¬ within ((outer []).tr.base + 0x0E) 28 ((outer []).gdtr.base + (selOffset (outer []).tr.sel).setWidth 24 + 5) := by
  refine ⟨by unfold within; decide, by unfold within; decide, ?_, by unfold within; decide⟩
  intro a h
  have e1 : handlerTss.base = 0x60000#24 := by decide
  have e2 : (outer []).tr.base + 0x0E = 0x5000E#24 := by decide
  rw [e1] at h
  rw [e2]
  unfold within at *
  bv_omega

/-- A TSS image with neither LDT nor data segments. -/
def plainImage : TssImage :=
  { ip := 0x300, flags := 0x02, regs := State.reset.regs, es := 0x00, cs := 0x08, ss := 0x10, ds := 0x03, ldt := 0x00 }

theorem test_meets_IncomingTaskWithoutDataSegmentsLoads :
    selNull plainImage.ldt = true ∧ selNull plainImage.ds = true ∧ selNull plainImage.es = true ∧
    selTi plainImage.cs = false ∧ selTi plainImage.ss = false ∧
    (outer []).returnCodeAt plainImage.cs (outer []).ip (selRpl plainImage.cs) code0 = true ∧
    (((outer []).setCpl 0).markAccessed code0).returnStackAt plainImage.ss (selRpl plainImage.cs) data0 = true := by decide

/-- The image with an LDT descriptor under selector 0040, and in that LDT a level-0 data segment under 000C whose
accessed bit is 0. -/
def withLdt : State := ((outer []).writeWords 0x1040 [0x000F, 0x0000, 0x8207]).writeWords 0x70008 [0xFFFF, 0x0000, 0x9202]

/-- A TSS image with an LDT, DS in that LDT and ES at the conforming code segment 0038. -/
def fullImage : TssImage := { plainImage with ldt := 0x40, ds := 0x0C, es := 0x38 }

/-- The first failing test of loading the image's segments. -/
def segmentsFail (s : State) (img : TssImage) : Option (Fault × Bool) := firstFailed ((s.taskStages img).tests img s.ip)

/-- A task with an LDT and data segments loads. Then each failure in order: not an LDT, an LDT not present; CS naming
data, CS not present; SS naming code, SS not present; DS and ES of a greater RPL than DPL, and not present; and IP one
above the limit. -/
theorem test_meets_IncomingTaskSegmentsLoadInOrder :
    segmentsFail withLdt fullImage = none ∧
    segmentsFail withLdt { fullImage with ldt := 0x44 } = some (.incomingLdtInvalid 0x44, false) ∧
    segmentsFail (withLdt.write8 0x1045 0x02) fullImage = some (.incomingLdtInvalid 0x40, true) ∧
    segmentsFail withLdt { fullImage with cs := 0x10 } = some (.incomingCsInvalid 0x10, false) ∧
    segmentsFail (withLdt.write8 0x100D 0x1B) fullImage = some (.incomingCsInvalid 0x08, true) ∧
    segmentsFail withLdt { fullImage with ss := 0x08 } = some (.incomingSsInvalid 0x08, false) ∧
    segmentsFail (withLdt.write8 0x1015 0x13) fullImage = some (.incomingSsInvalid 0x10, true) ∧
    segmentsFail withLdt { fullImage with ds := 0x0D } = some (.incomingDataSegInvalid 0x0D, false) ∧
    segmentsFail (withLdt.write8 0x7000D 0x12) fullImage = some (.incomingDataSegInvalid 0x0C, true) ∧
    segmentsFail withLdt { fullImage with es := 0x11 } = some (.incomingDataSegInvalid 0x11, false) ∧
    segmentsFail (withLdt.write8 0x103D 0x3F) fullImage = some (.incomingDataSegInvalid 0x38, true) ∧
    segmentsFail (withLdt.write16 0x1008 0x2F) fullImage = some (.ipBeyondLimit, false) := by decide

theorem test_meets_IretReturnsToTheSameLevel :
    flagNt sameFrame.flags = false ∧ sameFrame.frameReadable = true ∧
    sameFrame.read16 (sameFrame.ss.phys sameFrame.regs.sp) = 0x50 ∧
    sameFrame.read16 (sameFrame.ss.phys (sameFrame.regs.sp + 2)) = 0x08 ∧ selRpl 0x08 = sameFrame.cpl ∧
    sameFrame.returnCodeAt 0x08 0x50 sameFrame.cpl code0 = true := by decide

theorem test_meets_IretReturnsToAnOuterLevel :
    flagNt outerFrame.flags = false ∧ outerFrame.frameReadable = true ∧
    segReadOk outerFrame.ss (outerFrame.regs.sp + 6) 2 = true ∧ segReadOk outerFrame.ss (outerFrame.regs.sp + 8) 2 = true ∧
    outerFrame.read16 (outerFrame.ss.phys outerFrame.regs.sp) = 0x32 ∧
    outerFrame.read16 (outerFrame.ss.phys (outerFrame.regs.sp + 2)) = 0x1B ∧
    outerFrame.read16 (outerFrame.ss.phys (outerFrame.regs.sp + 8)) = 0x23 ∧ outerFrame.cpl < selRpl 0x1B ∧
    outerFrame.returnCodeAt 0x1B 0x32 (selRpl 0x1B) code3 = true ∧
    outerFrame.returnStackAt 0x23 (selRpl 0x1B) data3 = true := by decide

/-- DPL one below the level for the first clause, DPL equal to it for the second. -/
theorem test_meets_CleanUpClearsInnerSegments :
    (selNull (segment 0x0A 0 0xD3).sel = false ∧ arIsSegment 0xD3 = true ∧ arConforming 0xD3 = false ∧ arDpl 0xD3 < 3) ∧
    (3 ≤ arDpl 0xF3) ∧ (selNull (segment 0x03 0 0x93).sel = true) ∧ (arConforming 0x9F = true) := by decide

/-- The image in the interrupt task: TR names its TSS, whose back link names the main task, and NT = 1. -/
def inTask : State :=
  { ((inner [0xCF]).write16 0x60000 0x28) with tr := { sel := 0x30, base := 0x60000, limit := 0x2B }, flags := 0x4002 }

/-- The main task as saved, with CS:IP = 0008:0072, SS = 0010. -/
def savedMain : State := ((inTask.write16 0x5000E 0x72).write16 0x50024 0x08).write16 0x50026 0x10

theorem test_meets_IretWithNestedTaskReturnsToTheLink :
    (flagNt savedMain.flags = true ∧ savedMain.read16 savedMain.tr.base = 0x28 ∧
      savedMain.taskAt 0x28 true mainTss = true) ∧
    ∃ t, ((savedMain.leaveTask 0x28 mainTss .iret 0x71).loadTask .iret
        ((savedMain.leaveTask 0x28 mainTss .iret 0x71).readTss mainTss.base)).loadTaskSegments
        ((savedMain.leaveTask 0x28 mainTss .iret 0x71).readTss mainTss.base) = .ok t ∧ t.ip = 0x72 :=
  ⟨by decide, exists_ok (by decide)⟩

/-- For `IretNeverReturnsInward` and `IretCannotRaisePrivilegedFlags`: an IRET at level 3 with IOPL 0. -/
theorem test_meets_IretWithinTheTask :
    ∃ t, exec .iret (machine 3 0x30 0x800 0x202 (cellsAt 0x30030 [0xCF] ++
        cellsAt 0x40800 [0x50, 0x00, 0x1B, 0x00, 0x02, 0x30])) = .next t ∧
      (flagNt 0x202 = false ∧ flagIopl 0x202 < 3 ∧ t.cpl = 3 ∧ (outer []).params.iretIoplFilter = true ∧
        (outer []).params.deliverFaults = false) := exists_next (by decide)

theorem test_meets_HandlersNeverRunOutward :
    (outer []).procedureGate 0x42 = true ∧
    ∃ t, (outer []).deliver 0x42 .external 0x30 none = .ok t ∧ t.cpl = 0 := ⟨by decide, exists_ok (by decide)⟩

/-- A present gate of DPL 0 at CPL 3, the IDT's limit at its last byte, for the first clause. -/
theorem test_meets_HardwareIgnoresTheGateLevel :
    (8 * (0x42 : Byte).toNat + 7 ≤ (0x217 : Word).toNat ∧
      (({ outer [] with idtr := { base := 0x2000, limit := 0x217 } } : State).idtEntry 0x42).isIdtGate = true ∧
      arPresent (({ outer [] with idtr := { base := 0x2000, limit := 0x217 } } : State).idtEntry 0x42).ar = true) ∧
    ((outer []).cpl ≤ arDpl ((outer []).idtEntry 0x40).ar) ∧
    (arDpl ((outer []).idtEntry 0x42).ar < (outer []).cpl ∧
      softwareEvent (outer []) (.intN 0x42) = some (0x42, 0x32) ∧ (outer []).params.deliverFaults = false) := by decide

/-- A gate of DPL 0 at CPL 3. -/
theorem test_meets_ExternalInterruptEntersAnInnerLevel :
    (outer []).gateOpen 0x42 .external = true ∧ (outer []).procedureGate 0x42 = true ∧
    (outer []).handlerAt ((outer []).idtEntry 0x42) code0 = true ∧ arConforming code0.ar = false ∧
    arDpl code0.ar < (outer []).cpl ∧ (outer []).innerStackAt (arDpl code0.ar) 0x10 0x1000 data0 = true ∧
    frameFits (data0.toSegReg 0x10) 0x1000 5 = true := by decide

/-- The image at level 0 or 3 whose handler segment has not been accessed. -/
def fresh (s : State) : State := s.write8 0x100D 0x9A

/-- Gate 42H at the same level and at an inner one, to a segment whose accessed bit is 0 and stands outside the frame;
the task gate 41H with room on the incoming task's stack, and with SP = 0001H there, where the word would wrap. -/
theorem test_meets_ErrorCodeLiesLowestInTheFrame :
    ((fresh (inner [])).gateOpen 0x42 .exception = true ∧ (fresh (inner [])).procedureGate 0x42 = true ∧
      (fresh (inner [])).handlerAt ((fresh (inner [])).idtEntry 0x42) { code0 with b5 := 0x9A } = true ∧
      arCodeFits 0x9A (fresh (inner [])).cpl = true ∧
      frameFits (fresh (inner [])).ss (fresh (inner [])).regs.sp 4 = true ∧
      ∀ a, marksAt { code0 with b5 := 0x9A } a → ¬ inFrame (fresh (inner [])).ss (fresh (inner [])).regs.sp 4 a) ∧
    ((fresh (outer [])).gateOpen 0x42 .exception = true ∧ (fresh (outer [])).procedureGate 0x42 = true ∧
      (fresh (outer [])).handlerAt ((fresh (outer [])).idtEntry 0x42) { code0 with b5 := 0x9A } = true ∧
      arConforming 0x9A = false ∧ arDpl 0x9A < (fresh (outer [])).cpl ∧
      (fresh (outer [])).innerStackAt (arDpl 0x9A) 0x10 0x1000 data0 = true ∧
      frameFits (data0.toSegReg 0x10) 0x1000 6 = true ∧
      ∀ a, marksAt { code0 with b5 := 0x9A } a → ¬ inFrame (data0.toSegReg 0x10) 0x1000 6 a) ∧
    ((outer []).gateOpen 0x41 .exception = true ∧ ((outer []).idtEntry 0x41).isTaskGate = true ∧
      (outer []).taskAt ((outer []).idtEntry 0x41).gateSelector false handlerTss = true ∧
      okWith (incoming (outer [])) (fun t => segWriteOk t.ss (t.regs.sp - 2) 2) = true) ∧
    (((outer []).write16 0x6001A 0x01).gateOpen 0x41 .exception = true ∧
      (((outer []).write16 0x6001A 0x01).idtEntry 0x41).isTaskGate = true ∧
      ((outer []).write16 0x6001A 0x01).taskAt 0x30 false handlerTss = true ∧
      okWith (incoming ((outer []).write16 0x6001A 0x01)) (fun t => !segWriteOk t.ss (t.regs.sp - 2) 2) = true) := by
  have e : ∀ a, marksAt { code0 with b5 := 0x9A } a → a = 0x100D := fun a h => h.2
  refine ⟨⟨by decide, by decide, by decide, by decide, by decide, ?_⟩,
    ⟨by decide, by decide, by decide, by decide, by decide, by decide, by decide, ?_⟩, by decide, by decide⟩
  · rintro a h
    rw [e a h]
    simp only [inFrame, within]
    decide
  · rintro a h
    rw [e a h]
    simp only [inFrame, within]
    decide

theorem test_meets_IretUndoesASameLevelEntry :
    (softwareEvent (inner []) (.intN 0x42) = some (0x42, 0x72) ∧ (inner []).gateOpen 0x42 .software = true ∧
      (inner []).procedureGate 0x42 = true ∧ (inner []).handlerAt ((inner []).idtEntry 0x42) code0 = true ∧
      arCodeFits code0.ar (inner []).cpl = true ∧ frameFits (inner []).ss (inner []).regs.sp 3 = true ∧
      (inner []).codeSafe = true ∧ (0x72 : Word) ≤ (inner []).cs.limit ∧ (inner []).flagsFixed = true ∧
      (inner []).cpl ≤ flagIopl (inner []).flags) ∧
    (∀ a, marksAt code0 a → ¬ inFrame (inner []).ss (inner []).regs.sp 3 a) ∧
    ∃ t, exec (.intN 0x42) (inner []) = .next t ∧ t.cacheAgrees (inner []).cs = true :=
  ⟨by decide, fun _ h => absurd h.1 (by decide), exists_next (by decide)⟩

/-- The IDT limit one byte short of entry 45H for the first clause, and exact for the second; CPL one above the gate's
DPL for the third, equal to it for the fourth, which an external interrupt meets as well; and INT 45H for the last. -/
theorem test_meets_IdtEntryTestsComeInOrder :
    ((0x22E : Word).toNat < 8 * (0x45 : Byte).toNat + 7) ∧
    (8 * (0x45 : Byte).toNat + 7 ≤ (0x22F : Word).toNat ∧
      (({ outer [] with idtr := { base := 0x2000, limit := 0x22F } } : State).idtEntry 0x45).isIdtGate = false) ∧
    (8 * (0x42 : Byte).toNat + 7 ≤ (outer []).idtr.limit.toNat ∧
      (({ outer [] with cpl := 1 } : State).idtEntry 0x42).isIdtGate = true ∧
      arDpl (({ outer [] with cpl := 1 } : State).idtEntry 0x42).ar < 1) ∧
    (8 * (0x2E : Byte).toNat + 7 ≤ (inner []).idtr.limit.toNat ∧
      ((inner []).idtEntry 0x2E).isIdtGate = true ∧ (inner []).cpl ≤ arDpl ((inner []).idtEntry 0x2E).ar ∧
      EventKind.external ≠ .software ∧ arPresent ((inner []).idtEntry 0x2E).ar = false) ∧
    (softwareEvent (inner []) (.intN 0x45) = some (0x45, 0x72) ∧ (inner []).params.deliverFaults = false ∧
      ∃ f, (inner []).deliver 0x45 .software 0x72 none = .error f) :=
  ⟨by decide, by decide, by decide, by decide, by decide, by decide, exists_error (by decide)⟩

/-- Whether an external interrupt finds an open interrupt or trap gate that leads to the selector. -/
def leadsTo (s : State) (v : Byte) (sel : Word) : Bool :=
  s.gateOpen v .external && s.procedureGate v && (s.idtEntry v).gateSelector == sel

/-- Gate 40H made to lead to a null selector, past the GDT, to a data segment and to a segment that is not present, and
gate 44H, which leads to a level-3 segment. -/
theorem test_meets_HandlerSegmentTestsComeInOrder :
    (leadsTo ((inner []).write8 0x2202 0x03) 0x40 0x03 = true ∧ selNull 0x03 = true) ∧
    (leadsTo ((inner []).write8 0x2202 0x68) 0x40 0x68 = true ∧ selNull 0x68 = false ∧
      ((inner []).write8 0x2202 0x68).readDesc 0x68 = none) ∧
    (leadsTo ((inner []).write8 0x2202 0x10) 0x40 0x10 = true ∧
      ((inner []).write8 0x2202 0x10).readDesc 0x10 = some data0 ∧ arIsCode data0.ar = false) ∧
    (leadsTo ((inner []).write8 0x100D 0x1B) 0x40 0x08 = true ∧
      ((inner []).write8 0x100D 0x1B).readDesc 0x08 = some { code0 with b5 := 0x1B } ∧ arIsCode 0x1B = true ∧
      arPresent 0x1B = false) ∧
    (leadsTo (inner []) 0x44 0x18 = true ∧ (inner []).readDesc 0x18 = some code3 ∧ arIsCode code3.ar = true ∧
      arPresent code3.ar = true ∧ (inner []).cpl < arDpl code3.ar) := by decide

/-- Whether an external interrupt through gate 40H finds the present code segment `d`. -/
def handledBy (s : State) (d : Desc) : Bool :=
  s.gateOpen 0x40 .external && s.procedureGate 0x40 && s.readDesc 0x08 == some d &&
    (s.idtEntry 0x40).gateSelector == 0x08 && arIsCode d.ar && arPresent d.ar

/-- Whether the first failing test of an entry at the same level is this one. -/
def sameEntryFails (s : State) (d : Desc) (f : Fault) : Bool :=
  handledBy s d && arCodeFits d.ar s.cpl && firstFailed (s.sameEntryTests d (s.idtEntry 0x40).gateOffset 3) == some f

/-- Whether the first failing test of an entry at an inner level is this one. -/
def innerEntryFails (s : State) (d : Desc) (f : Fault) : Bool :=
  handledBy s d && !arConforming d.ar && decide (arDpl d.ar < s.cpl) &&
    firstFailed (s.innerEntryTests d (s.idtEntry 0x40).gateOffset 5) == some f

/-- The handler's segment with the limit 00FFH, one below the gate's offset. -/
def shortCode0 : Desc := { code0 with b1 := 0x00 }

/-- Each fault of an entry at the same level: SP = 0005H, whose third word would wrap, and the offset one above the
limit. -/
theorem test_meets_HandlerSegmentTestsComeInOrder_same :
    sameEntryFails ({ inner [] with regs := { State.reset.regs with sp := 0x05 } } : State) code0 .stackLimit = true ∧
    sameEntryFails ((inner []).write16 0x1008 0x00FF) shortCode0 .ipBeyondLimit = true := by decide

/-- Each fault of an entry at an inner level: the limit of the TSS one byte short of SS0, SS0 null, beyond the GDT, of
RPL 1, naming a level-3 stack, naming code, not present; SP0 = 0009H, whose fifth word would wrap; and the offset. -/
theorem test_meets_HandlerSegmentTestsComeInOrder_inner :
    innerEntryFails ({ outer [] with tr := { (outer []).tr with limit := 0x04 } } : State) code0 (.tssTooSmall 0x28) = true ∧
    innerEntryFails ((outer []).write16 0x50004 0x03) code0 .innerStackNull = true ∧
    innerEntryFails ((outer []).write16 0x50004 0x68) code0 (.innerStackBeyondTable 0x68) = true ∧
    innerEntryFails ((outer []).write16 0x50004 0x11) code0 (.innerStackRplMismatch 0x11) = true ∧
    innerEntryFails ((outer []).write16 0x50004 0x20) code0 (.innerStackDplMismatch 0x20) = true ∧
    innerEntryFails ((outer []).write16 0x50004 0x08) code0 (.innerStackNotWritable 0x08) = true ∧
    innerEntryFails ((outer []).write8 0x1015 0x13) code0 (.innerStackNotPresent 0x10) = true ∧
    innerEntryFails ((outer []).write16 0x50002 0x09) code0 .stackLimit = true ∧
    innerEntryFails ((outer []).write16 0x1008 0x00FF) shortCode0 .ipBeyondLimit = true := by decide

/-- Whether an external interrupt finds an open task gate that leads to the selector. -/
def switchesTo (s : State) (v : Byte) (sel : Word) : Bool :=
  s.gateOpen v .external && (s.idtEntry v).isTaskGate && (s.idtEntry v).gateSelector == sel

theorem test_meets_BusyTasksCannotBeEntered :
    (switchesTo ((inner []).write8 0x220A 0x34) 0x41 0x34 = true ∧ selTi 0x34 = true) ∧
    (switchesTo ((inner []).write8 0x1035 0x83) 0x41 0x30 = true ∧ selTi 0x30 = false ∧
      ((inner []).write8 0x1035 0x83).readDesc 0x30 = some { handlerTss with b5 := 0x83 } ∧
      ({ handlerTss with b5 := 0x83 } : Desc).isAvailableTss = false ∧
      ({ handlerTss with b5 := 0x83 } : Desc).isBusyTss = true) := by decide

/-- Whether the first failing test of a switch through task gate 41H is this one. -/
def taskGateFails (s : State) (sel : Word) (f : Fault) : Bool :=
  switchesTo s 0x41 sel && firstFailed (s.taskTests sel .nest) == some f

/-- Each fault of a task gate up to the point of no return, the limit of the TSS one byte short for the last; and an
incoming task whose CS names a data segment. -/
theorem test_meets_BusyTasksCannotBeEntered_order :
    taskGateFails ((inner []).write16 0x220A 0x34) 0x34 (.tssSelectorNotGlobal 0x34) = true ∧
    taskGateFails ((inner []).write16 0x220A 0x68) 0x68 (.selectorBeyondTable 0x68) = true ∧
    taskGateFails ((inner []).write8 0x1035 0x83) 0x30 (.tssNotAvailable 0x30) = true ∧
    taskGateFails ((inner []).write8 0x1035 0x01) 0x30 (.tssNotPresent 0x30) = true ∧
    taskGateFails ((inner []).write16 0x1030 0x2A) 0x30 (.tssTooSmall 0x30) = true ∧
    (switchesTo ((inner []).write16 0x60024 0x10) 0x41 0x30 = true ∧
      ((inner []).write16 0x60024 0x10).taskAt 0x30 false handlerTss = true ∧
      ∃ g, incoming ((inner []).write16 0x60024 0x10) = .error g) :=
  ⟨by decide, by decide, by decide, by decide, by decide, by decide, by decide, exists_error (by decide)⟩

/-- A delivery that fails at once, one that fails in the incoming task, and an IRET that fails. -/
theorem test_meets_FailedEntryOrReturnChangesNothing :
    (∃ f, (inner []).deliver 0x45 .external 0x70 none = .error f) ∧
    (∃ f, ((inner []).write8 0x60024 0x10).deliver 0x41 .external 0x70 none = .error f) ∧
    (∃ f, (inner []).returnFromInterrupt = .error f) ∧ flagNt (inner []).flags = false :=
  ⟨exists_error (by decide), exists_error (by decide), exists_error (by decide), by decide⟩

/-- The interrupt task with a back link to its own descriptor, which is not BUSY. -/
def badLink : State := inTask.write8 0x60000 0x30

/-- SP so that the third word would wrap; a return CS of RPL 0 at CPL 3; a back link that names an available TSS. -/
theorem test_meets_IretRefusesBadReturns :
    (flagNt (inner []).flags = false ∧
      ({ inner [] with regs := { State.reset.regs with sp := 0xFFFB } } : State).frameReadable = false) ∧
    (flagNt (outer []).flags = false ∧ (outer []).frameReadable = true ∧
      selRpl ((outer []).read16 ((outer []).ss.phys ((outer []).regs.sp + 2))) < (outer []).cpl) ∧
    (flagNt badLink.flags = true ∧ badLink.read16 badLink.tr.base = 0x30 ∧ selTi 0x30 = false ∧
      badLink.readDesc 0x30 = some handlerTss ∧ handlerTss.isBusyTss = false) ∧
    badLink.params.deliverFaults = false := by decide

/-- Whether the first failing test of a return to the same level is this one. -/
def sameReturnFails (s : State) (f : Fault) : Bool :=
  let cs := s.read16 (s.ss.phys (s.regs.sp + 2))
  !flagNt s.flags && s.frameReadable && selRpl cs == s.cpl &&
    firstFailed (s.returnCodeTests cs s.cpl ++
      [(decide (s.read16 (s.ss.phys s.regs.sp) ≤ (s.descOf cs).limit), .ipBeyondLimit)]) == some f

/-- Whether the first failing test of a return to an outer level is this one. -/
def outerReturnFails (s : State) (f : Fault) : Bool :=
  let cs := s.read16 (s.ss.phys (s.regs.sp + 2))
  !flagNt s.flags && s.frameReadable && decide (s.cpl < selRpl cs) &&
    firstFailed ([(segReadOk s.ss (s.regs.sp + 6) 2, .stackLimit), (segReadOk s.ss (s.regs.sp + 8) 2, .stackLimit)] ++
      s.returnCodeTests cs (selRpl cs) ++
      s.returnStackTests (s.read16 (s.ss.phys (s.regs.sp + 8))) (selRpl cs) ++
      [(decide (s.read16 (s.ss.phys s.regs.sp) ≤ (s.descOf cs).limit), .ipBeyondLimit)]) == some f

/-- Each fault of a return to the same level: the return CS null, beyond the GDT, naming data, a level-3 segment, a
segment not present; and the return IP one above the limit. -/
theorem test_meets_IretRefusesBadReturns_same :
    sameReturnFails (sameFrame.write16 0x20FFC 0x00) .nullSelector = true ∧
    sameReturnFails (sameFrame.write16 0x20FFC 0x68) (.selectorBeyondTable 0x68) = true ∧
    sameReturnFails (sameFrame.write16 0x20FFC 0x10) (.notCodeSegment 0x10) = true ∧
    sameReturnFails (sameFrame.write16 0x20FFC 0x18) (.returnDplMismatch 0x18) = true ∧
    sameReturnFails (sameFrame.write8 0x100D 0x1B) (.segmentNotPresent 0x08) = true ∧
    sameReturnFails (sameFrame.write16 0x1008 0x4F) .ipBeyondLimit = true := by decide

/-- A return frame of five words in a stack segment with this limit. -/
def shortOuterFrame (limit : Word) : State := { outerFrame with ss := { outerFrame.ss with limit := limit } }

/-- Each fault of a return to an outer level: the limit one byte short of the fourth word and of the fifth; those of
the return CS; those of the return SS; and the return IP one above the limit. -/
theorem test_meets_IretRefusesBadReturns_outer :
    (outerReturnFails (shortOuterFrame 0xFFC) .stackLimit = true ∧
      outerReturnFails (shortOuterFrame 0xFFE) .stackLimit = true) ∧
    (outerReturnFails (outerFrame.write16 0x20FF8 0x03) .nullSelector = true ∧
      outerReturnFails (outerFrame.write16 0x20FF8 0x6B) (.selectorBeyondTable 0x6B) = true ∧
      outerReturnFails (outerFrame.write16 0x20FF8 0x13) (.notCodeSegment 0x13) = true ∧
      outerReturnFails (outerFrame.write16 0x20FF8 0x0B) (.returnDplMismatch 0x0B) = true ∧
      outerReturnFails (outerFrame.write8 0x101D 0x7B) (.segmentNotPresent 0x1B) = true) ∧
    (outerReturnFails (outerFrame.write16 0x20FFE 0x03) .nullSelector = true ∧
      outerReturnFails (outerFrame.write16 0x20FFE 0x6B) (.selectorBeyondTable 0x6B) = true ∧
      outerReturnFails (outerFrame.write16 0x20FFE 0x22) (.stackSelectorRplMismatch 0x22) = true ∧
      outerReturnFails (outerFrame.write16 0x20FFE 0x1B) (.notWritableData 0x1B) = true ∧
      outerReturnFails (outerFrame.write16 0x20FFE 0x13) (.stackDplMismatch 0x13) = true ∧
      outerReturnFails (outerFrame.write8 0x1025 0x73) (.stackNotPresent 0x23) = true) ∧
    outerReturnFails (outerFrame.write16 0x1018 0x31) .ipBeyondLimit = true := by decide

/-- Whether the first failing test of a return to the task of the back link is this one. -/
def linkFails (s : State) (f : Fault) : Bool :=
  flagNt s.flags && firstFailed (s.taskTests (s.read16 s.tr.base) .iret) == some f

/-- The main task to which the back link leads, past the point of no return. -/
def linked (s : State) : Attempt :=
  let u := s.leaveTask 0x28 mainTss .iret 0x71
  (u.loadTask .iret (u.readTss mainTss.base)).loadTaskSegments (u.readTss mainTss.base)

/-- A null back link; each fault of a return by back link; and a linked task whose CS names a data segment. -/
theorem test_meets_IretRefusesBadReturns_link :
    (flagNt (savedMain.write16 0x60000 0x03).flags = true ∧ selNull ((savedMain.write16 0x60000 0x03).read16 0x60000) = true ∧
      savedMain.tr.base = 0x60000) ∧
    linkFails (savedMain.write16 0x60000 0x2C) (.tssSelectorNotGlobal 0x2C) = true ∧
    linkFails (savedMain.write16 0x60000 0x68) (.selectorBeyondTable 0x68) = true ∧
    linkFails (savedMain.write16 0x60000 0x30) (.tssNotBusy 0x30) = true ∧
    linkFails (savedMain.write8 0x102D 0x03) (.tssNotPresent 0x28) = true ∧
    linkFails (savedMain.write16 0x1028 0x2A) (.tssTooSmall 0x28) = true ∧
    ((savedMain.write16 0x50024 0x10).taskAt 0x28 true mainTss = true ∧
      ∃ g, linked (savedMain.write16 0x50024 0x10) = .error g) :=
  ⟨by decide, by decide, by decide, by decide, by decide, by decide, by decide, exists_error (by decide)⟩

/-- The level-3 state of a machine that delivers failed checks, with two more bytes of an IDT entry (its selector and
its access byte). -/
def reporting (entry : Addr) (access : Byte) : State :=
  { (((outer []).write16 (entry + 2) 0x08).write8 (entry + 5) access) with
    params := { Config.params with deliverFaults := true } }

/-- What the statement on `DELIVER_FAULTS` asks of its start, for INT 42H through a gate of DPL 0. -/
def refusedAtLevel3 (s : State) : Bool :=
  s.params.deliverFaults && decide (softwareEvent s (.intN 0x42) = some (0x42, 0x32)) &&
    decide (8 * (0x42 : Byte).toNat + 7 ≤ s.idtr.limit.toNat) && (s.idtEntry 0x42).isIdtGate &&
    decide (arDpl (s.idtEntry 0x42).ar < s.cpl)

/-- With an interrupt gate in entry 13 the first clause, with one in entry 8 the second, with neither the third. -/
theorem test_meets_FailedChecksAreDeliveredOnRequest :
    (refusedAtLevel3 (reporting 0x2068 0x86) = true ∧
      ∃ t, (reporting 0x2068 0x86).deliver 13 .exception 0x30 (some 0x212) = .ok t ∧ t.cpl = 0) ∧
    (refusedAtLevel3 (reporting 0x2040 0x86) = true ∧
      (∃ f, (reporting 0x2040 0x86).deliver 13 .exception 0x30 (some 0x212) = .error f) ∧
      ∃ t, (reporting 0x2040 0x86).deliver 8 .exception 0x30 (some 0x0000) = .ok t ∧ t.cpl = 0) ∧
    (refusedAtLevel3 (reporting 0x2040 0x00) = true ∧
      (∃ f, (reporting 0x2040 0x00).deliver 13 .exception 0x30 (some 0x212) = .error f) ∧
      ∃ g, (reporting 0x2040 0x00).deliver 8 .exception 0x30 (some 0x0000) = .error g) :=
  ⟨⟨by decide, exists_ok (by decide)⟩, ⟨by decide, exists_error (by decide), exists_ok (by decide)⟩,
    by decide, exists_error (by decide), exists_error (by decide)⟩

/-- A failed check of the instruction at CS:IP in a machine that delivers failed checks, and one in a machine that stops:
the three outcomes and the fault; and a reason that is not the shutdown. -/
theorem test_meets_FailedChecksAreDeliveredOnRequest_any :
    ((failing (outer []) .ioPrivilege).left.params.deliverFaults = false) ∧
    ((failing (reporting 0x2068 0x86) .ioPrivilege).left.params.deliverFaults = true ∧
      ∃ t, (reporting 0x2068 0x86).deliver 13 .exception 0x30 (some 0x0000) = .ok t ∧ t.cpl = 0) ∧
    ((∃ f, (reporting 0x2040 0x86).deliver 13 .exception 0x30 (some 0x0000) = .error f) ∧
      ∃ t, (reporting 0x2040 0x86).deliver 8 .exception 0x30 (some 0x0000) = .ok t ∧ t.cpl = 0) ∧
    ((∃ f, (reporting 0x2040 0x00).deliver 13 .exception 0x30 (some 0x0000) = .error f) ∧
      ∃ g, (reporting 0x2040 0x00).deliver 8 .exception 0x30 (some 0x0000) = .error g) ∧
    ((failing (outer []) .ioPrivilege).vector = 13 ∧ (failing (outer []) .ioPrivilege).errorCode true = some 0x0000 ∧
      (failing (outer []) .ioPrivilege).reason ≠ .shutdown) :=
  ⟨by decide, ⟨by decide, exists_ok (by decide)⟩, ⟨exists_error (by decide), exists_ok (by decide)⟩,
    ⟨exists_error (by decide), exists_error (by decide)⟩, by decide⟩

theorem test_meets_SegmentLimitTest :
    (arExpandDown 0x93 = false ∧ rangeOk (segment 0x10 0 0x93) 0xFFFE 2 = true) ∧
    (arExpandDown 0x97 = true ∧ rangeOk { segment 0x10 0 0x97 with limit := 0xFFFD } 0xFFFE 2 = true) ∧
    (segWriteOk (segment 0x10 0 0x93) 0xFFFE 2 = true) ∧
    (segReadOk (segment 0x08 0 0x9B) 0xFFFE 2 = true ∧ arIsCode 0x9B = true) ∧
    (selNull 0x10 = false ∧ arWritable 0x93 = true ∧ (segment 0x10 0 0x93).limit = 0xFFFF) := by decide

/-- Selectors 0003 and 0004 at the null boundary, 0060 the last that the GDT's limit 0067 holds, 0068 the first
beyond it, 000C in an LDT. -/
theorem test_meets_SelectorsNameDescriptors :
    ((0x03 : Word).toNat < 4) ∧ ((0x04 : Word).getLsbD 2 = true ∧ (inner []).ldtr.sel.toNat < 4) ∧
    (4 ≤ (0x60 : Word).toNat ∧ (0x60 : Word).getLsbD 2 = false ∧ (0x60 : Word).toNat / 8 * 8 + 7 ≤ (inner []).gdtr.limit.toNat) ∧
    ((0x68 : Word).getLsbD 2 = false ∧ (inner []).gdtr.limit.toNat < (0x68 : Word).toNat / 8 * 8 + 7) ∧
    (4 ≤ (0x40 : Word).toNat ∧ (0x0C : Word).getLsbD 2 = true ∧ (0x0C : Word).toNat / 8 * 8 + 7 ≤ 0x0F) := by decide

end Sys2Proof.Tests
end

section
/-! The proofs about the state: what an instruction and a whole step can do to it, and the statements that follow. -/

namespace Sys2Proof.Machine

/-! ### CPL, CS and the fixed flag bits -/

/-- CPL is the RPL of CS (R22) and the flag word holds its fixed bits (R18). -/
structure LevelAndFlags (t : State) : Prop where
  level : selRpl t.cs.sel = t.cpl
  flags : fixFlags t.flags = t.flags

theorem levelAndFlags_iff {t : State} : LevelAndFlags t ↔ t.levelAgrees = true ∧ t.flagsFixed = true := by
  simp only [State.levelAgrees, State.flagsFixed, beq_iff_eq]
  exact ⟨fun ⟨h, k⟩ => ⟨h, k⟩, fun ⟨h, k⟩ => ⟨h, k⟩⟩

/-- Only CS, CPL and the flag word matter. -/
theorem LevelAndFlags.congr {s t : State} (h : LevelAndFlags s) (hcs : t.cs = s.cs) (hcpl : t.cpl = s.cpl)
    (hf : t.flags = s.flags) : LevelAndFlags t :=
  ⟨by rw [hcs, hcpl]; exact h.level, by rw [hf]; exact h.flags⟩

/-- A handler is entered with the level as the RPL of CS, whatever the level was before (R104 to R106). -/
theorem enterHandler_levelAndFlags (s : State) (sel : Word) (d : Desc) (off : Word) (k : Level) (err : Option Word)
    (clear : Bool) : LevelAndFlags (s.enterHandler sel d off k err clear) := by
  constructor <;> cases err <;>
    simp [State.enterHandler, State.pushErr, Desc.toSegReg, State.flagWord]

theorem enterGate_levelAndFlags (s : State) (en : GateEntry) (r : Word) (err : Option Word) (clear : Bool) :
    LevelAndFlags (s.enterGate en r err clear) := by
  cases en with
  | same sel d off => exact enterHandler_levelAndFlags _ _ _ _ _ _ _
  | inner sel d off newSs newSp e => exact enterHandler_levelAndFlags _ _ _ _ _ _ _

/-- A task switch takes CPL from the incoming CS (R110 step 9) and fixes the bits of the incoming flag word. -/
theorem taskSwitch_levelAndFlags {s t : State} {new : Word} {d : Desc} {c : SwitchCause} {r : Word}
    (h : s.taskSwitch new d c r = .ok t) : LevelAndFlags t := by
  obtain ⟨_, hload⟩ := taskSwitch_ok.mp h
  have loaded := loadTaskSegments_loaded hload
  constructor
  · rw [loaded.csSel, loaded.cpl]
  · rw [loaded.flags]
    cases c
    · exact fixFlags_setNt _
    · exact fixFlags_fixFlags _

theorem pushTaskErr_levelAndFlags {s t : State} {err : Option Word} (hs : LevelAndFlags s)
    (h : s.pushTaskErr err = .ok t) : LevelAndFlags t := by
  cases err with
  | none => cases h; exact hs
  | some e =>
    obtain ⟨_, rfl⟩ := push16_ok.mp h
    exact hs.congr rfl rfl rfl

/-- A delivery that completes leaves CPL as the RPL of CS and the flag bits fixed, whatever state it began in: a
failure in the midst of a task switch leaves a state in which CPL and CS disagree (R110 step 9). -/
theorem deliver_levelAndFlags {s t : State} {v : Byte} {k : EventKind} {r : Word} {err : Option Word}
    (h : s.deliver v k r err = .ok t) : LevelAndFlags t := by
  obtain ⟨_, ⟨_, htask⟩ | ⟨_, hgate⟩⟩ := deliver_ok.mp h
  · obtain ⟨_, d, _, _, _, w, hsw, hpush⟩ := taskGatePath_ok.mp htask
    exact pushTaskErr_levelAndFlags (taskSwitch_levelAndFlags hsw) hpush
  · obtain ⟨en, _, rfl⟩ := gatePath_ok.mp hgate
    exact enterGate_levelAndFlags _ _ _ _ _

theorem stackReturn_levelAndFlags {s t : State} (h : s.stackReturn = .ok t) : LevelAndFlags t := by
  obtain ⟨_, ⟨hrpl, hsame⟩ | ⟨_, houter⟩⟩ := stackReturn_ok.mp h
  · obtain ⟨d, _, rfl⟩ := returnSameLevel_ok.mp hsame
    constructor
    · simpa [Desc.toSegReg] using hrpl
    · simp [State.returnFlags]
  · obtain ⟨_, _, d, e, _, _, rfl⟩ := returnOuterLevel_ok.mp houter
    constructor <;> simp [State.cleanData, State.leaveLevel, Desc.toSegReg, State.returnFlags]

/-- An IRET that completes leaves the return CS at its own RPL (R77, R78, R80). -/
theorem returnFromInterrupt_levelAndFlags {s t : State} (h : s.returnFromInterrupt = .ok t) : LevelAndFlags t := by
  obtain ⟨u, hu, rfl⟩ := returnFromInterrupt_ok.mp h
  have hlevel : LevelAndFlags u := by
    split at hu
    · obtain ⟨_, _, _, _, _, hsw⟩ := taskReturn_ok.mp hu
      exact taskSwitch_levelAndFlags hsw
    · exact stackReturn_levelAndFlags hu
  exact hlevel.congr rfl rfl rfl

/-! ### Deliveries and their outcomes -/

/-- What a completed delivery makes of a state, delivered exceptions included: the move of the processor's
procedures, ending at a level that agrees with CS. -/
structure Delivered (s t : State) : Prop where
  move : CpuMove s t
  level : LevelAndFlags t

/-- The outcome of a procedure that may fail is the procedure's own, or that of an exception (R114). -/
theorem settle_delivered {s t : State} {ext : Bool} {r : Attempt} (hm : Attempt.all (CpuMove s) r)
    (hl : ∀ u, r = .ok u → LevelAndFlags u) (h : settle ext r = .next t) : Delivered s t := by
  refine ⟨move_settle hm h, ?_⟩
  rcases settle_next h with hok | ⟨f, _, _, hf⟩
  · exact hl t hok
  · obtain ⟨_, _, _, hd, _⟩ := deliverException_next hf
    exact deliver_levelAndFlags hd

theorem settle_deliver_delivered {s t : State} {ext : Bool} {v : Byte} {k : EventKind} {r : Word} {err : Option Word}
    (h : settle ext (s.deliver v k r err) = .next t) : Delivered s t :=
  settle_delivered (move_deliver s v k r err) (fun _ hu => deliver_levelAndFlags hu) h

theorem settle_error_delivered {s t : State} {ext : Bool} {f : Failure} (hm : CpuMove s f.left)
    (h : settle ext (.error f) = .next t) : Delivered s t :=
  settle_delivered (r := .error f) hm (fun _ hu => nomatch hu) h

theorem settle_failing_delivered {s t : State} {ext : Bool} {r : Fault}
    (h : settle ext (.error (failing s r)) = .next t) : Delivered s t :=
  settle_error_delivered (CpuMove.refl s) h

/-- Both returns are moves, as far as the end of NMI service. -/
theorem move_return (s : State) :
    Attempt.all (CpuMove s) (if flagNt s.flags then s.taskReturn else s.stackReturn) := by
  split
  · exact move_taskReturn s
  · exact move_stackReturn s

/-- An IRET that completes is a move and the end of NMI service (R81). -/
theorem returnFromInterrupt_move {s t : State} (h : s.returnFromInterrupt = .ok t) :
    ∃ u, CpuMove s u ∧ t = u.endNmiService := by
  obtain ⟨u, hu, rfl⟩ := returnFromInterrupt_ok.mp h
  exact ⟨u, by simpa [hu, Attempt.all] using move_return s, rfl⟩

theorem returnFromInterrupt_left {s : State} {f : Failure} (h : s.returnFromInterrupt = .error f) :
    CpuMove s f.left := by
  have hm := move_return s
  unfold State.returnFromInterrupt at h
  split at h
  · rename_i g hg
    rw [hg] at hm
    cases h
    exact hm
  · cases h

/-! ### What an instruction can do -/

/-- What an instruction that completes has done: one of the five ways in which the eight instructions end. -/
inductive Executed (s : State) : Instr → State → Prop
  /-- An interrupt was delivered, or a failed check as an exception. -/
  | delivered {i : Instr} {t : State} (h : Delivered s t) : Executed s i t
  /-- General registers and IP alone were written. -/
  | advanced {i : Instr} (g : GenRegs) (ip : Word) : Executed s i { s with regs := g, ip := ip }
  /-- IRET completed and ended NMI service. -/
  | returned {u : State} (hm : CpuMove s u) (hl : LevelAndFlags u.endNmiService) : Executed s .iret u.endNmiService
  /-- LIDT loaded IDTR at CPL 0. -/
  | tableLoaded {m : MemOperand} (h : s.cpl = 0#2) (g : TableReg) (ip : Word) :
      Executed s (.lidt m) { s with idtr := g, ip := ip }
  /-- OUT wrote a register of the 8259, or nothing. -/
  | portWritten (p : Pic) (ip : Word) : Executed s .outDxAl { s with pic := p, ip := ip }

theorem execInto_executed {s t : State} (h : execInto s = .next t) : Executed s .into t := by
  unfold execInto at h
  split at h
  · exact .delivered (settle_deliver_delivered h)
  · cases h
    exact .advanced s.regs _

theorem execIret_executed {s t : State} (h : execIret s = .next t) : Executed s .iret t := by
  unfold execIret at h
  cases hr : s.returnFromInterrupt with
  | ok w =>
    rw [hr] at h
    cases h
    obtain ⟨u, hm, rfl⟩ := returnFromInterrupt_move hr
    exact .returned hm (returnFromInterrupt_levelAndFlags hr)
  | error f =>
    rw [hr] at h
    exact .delivered (settle_error_delivered (returnFromInterrupt_left hr) h)

theorem execLidt_executed {s t : State} {m : MemOperand} (h : execLidt m s = .next t) : Executed s (.lidt m) t := by
  unfold execLidt at h
  simp only at h
  split at h
  · exact .delivered (settle_failing_delivered h)
  · rename_i hcpl
    split at h
    · exact .delivered (settle_failing_delivered h)
    · cases h
      exact .tableLoaded (by simpa using hcpl) _ _

theorem ioWrite_pic (s : State) (port : Word) (v : Byte) : ∃ p, s.ioWrite port v = { s with pic := p } := by
  unfold State.ioWrite
  split
  · exact ⟨_, rfl⟩
  · exact ⟨s.pic, rfl⟩

theorem execOutDxAl_executed {s t : State} (h : execOutDxAl s = .next t) : Executed s .outDxAl t := by
  unfold execOutDxAl at h
  split at h
  · exact .delivered (settle_failing_delivered h)
  · obtain ⟨p, hp⟩ := ioWrite_pic s s.regs.dx (s.regs.read8 .al)
    rw [hp] at h
    cases h
    exact .portWritten p _

theorem exec_executed {i : Instr} {s t : State} (h : exec i s = .next t) : Executed s i t := by
  cases i with
  | intN n => exact .delivered (settle_deliver_delivered h)
  | int3 => exact .delivered (settle_deliver_delivered h)
  | into => exact execInto_executed h
  | iret => exact execIret_executed h
  | lidt m => exact execLidt_executed h
  | movR8Imm8 r v => cases h; exact .advanced _ _
  | movR16Imm16 r v => cases h; exact .advanced _ _
  | outDxAl => exact execOutDxAl_executed h

theorem Executed.levelAndFlags {s t : State} {i : Instr} (h : Executed s i t) (hs : LevelAndFlags s) :
    LevelAndFlags t := by
  cases h with
  | delivered h => exact h.level
  | advanced g ip => exact hs.congr rfl rfl rfl
  | returned hm hl => exact hl
  | tableLoaded h g ip => exact hs.congr rfl rfl rfl
  | portWritten p ip => exact hs.congr rfl rfl rfl

/-- R23, R82: of the instructions LIDT alone changes IDTR, at CPL 0. -/
theorem Executed.lidt_of_idtr_ne {s t : State} {i : Instr} (h : Executed s i t) (hne : t.idtr ≠ s.idtr) :
    s.cpl = 0#2 ∧ ∃ m, i = .lidt m := by
  cases h with
  | delivered h => exact absurd h.move.idtr hne
  | advanced g ip => exact absurd rfl hne
  | returned hm hl => exact absurd hm.idtr hne
  | @tableLoaded m h g ip => exact ⟨h, m, rfl⟩
  | portWritten p ip => exact absurd rfl hne

/-- R28, R81: of the instructions IRET alone changes whether an NMI is in service. -/
theorem Executed.iret_of_nmiInService_ne {s t : State} {i : Instr} (h : Executed s i t)
    (hne : t.nmiInService ≠ s.nmiInService) : i = .iret := by
  cases h with
  | delivered h => exact absurd h.move.nmiInService hne
  | advanced g ip => exact absurd rfl hne
  | returned hm hl => rfl
  | tableLoaded h g ip => exact absurd rfl hne
  | portWritten p ip => exact absurd rfl hne

theorem Executed.nmiPending {s t : State} {i : Instr} (h : Executed s i t) : t.nmiPending = s.nmiPending := by
  cases h with
  | delivered h => exact h.move.nmiPending
  | advanced g ip => rfl
  | returned hm hl => exact hm.nmiPending
  | tableLoaded h g ip => rfl
  | portWritten p ip => rfl

/-! ### What a whole step can do -/

/-- What no boundary touches: GDTR, the parameters, the launch, MSW.PE and the canonical form of memory. -/
structure BoundaryMove (s t : State) : Prop where
  gdtr : t.gdtr = s.gdtr
  params : t.params = s.params
  launched : t.launched = s.launched
  pe : t.msw.getLsbD 0 = s.msw.getLsbD 0
  mem : s.mem.wf = true → t.mem.wf = true

theorem BoundaryMove.trans {s t u : State} (h : BoundaryMove s t) (k : BoundaryMove t u) : BoundaryMove s u where
  gdtr := k.gdtr.trans h.gdtr
  params := k.params.trans h.params
  launched := k.launched.trans h.launched
  pe := k.pe.trans h.pe
  mem := k.mem ∘ h.mem

theorem CpuMove.boundaryMove {s t : State} (h : CpuMove s t) : BoundaryMove s t :=
  ⟨h.gdtr, h.params, h.launched, h.pe, h.mem⟩

theorem arrive_boundaryMove (s : State) : BoundaryMove s s.arrive := ⟨rfl, rfl, rfl, rfl, id⟩

theorem beginNmiService_boundaryMove (s : State) : BoundaryMove s s.beginNmiService := ⟨rfl, rfl, rfl, rfl, id⟩

theorem acknowledge_boundaryMove (s : State) (b : BoundaryInput) : BoundaryMove s (s.acknowledge b).2 :=
  ⟨rfl, rfl, rfl, rfl, id⟩

theorem Executed.boundaryMove {s t : State} {i : Instr} (h : Executed s i t) : BoundaryMove s t := by
  cases h with
  | delivered h => exact h.move.boundaryMove
  | advanced g ip => exact ⟨rfl, rfl, rfl, rfl, id⟩
  | returned hm hl => exact hm.boundaryMove.trans ⟨rfl, rfl, rfl, rfl, id⟩
  | tableLoaded h g ip => exact ⟨rfl, rfl, rfl, rfl, id⟩
  | portWritten p ip => exact ⟨rfl, rfl, rfl, rfl, id⟩

/-- What a boundary that completes has done, by what it recognised (R93). -/
inductive Stepped (s t : State) : Prop
  | nmi (hn : s.nmiDue = true) (h : Delivered s.arrive.beginNmiService t)
  | intr (hn : s.nmiDue = false) (hi : s.intrDue = true) (h : Delivered (s.arrive.acknowledge s.boundaryInput).2 t)
  | ran (hn : s.nmiDue = false) (hi : s.intrDue = false) (i : Instr)
      (hd : decode (s.codeBytes maxLength s.ip.toNat) = .instr i) (h : Executed s.arrive i t)
  /-- There was no instruction at CS:IP, and the fault of that was delivered (R16, R68, R114). -/
  | fetchFailed (hn : s.nmiDue = false) (hi : s.intrDue = false) (h : Delivered s.arrive t)

theorem boundary_stepped {s t : State} (h : s.boundary = .next t) : Stepped s t := by
  rcases boundary_next h with ⟨hn, h⟩ | ⟨hn, hi, h⟩ | ⟨hn, hi, h⟩
  · exact .nmi hn (settle_deliver_delivered h)
  · exact .intr hn hi (settle_deliver_delivered h)
  · rcases runInstruction_next h with ⟨i, hd, h⟩ | ⟨r, h⟩
    · rw [codeBytes_arrive] at hd
      exact .ran hn hi i hd (exec_executed h)
    · exact .fetchFailed hn hi (settle_failing_delivered h)

theorem launch_of_launched {s : State} (h : s.launched = true) : s.launch = s := by
  unfold State.launch
  rw [← h]

/-- A step that completes is a boundary of the launched state: to launch a launched state changes nothing. -/
theorem step_stepped {s t : State} (h : step s = .next t) : Stepped s.launch t := by
  obtain ⟨u, ha, hb⟩ := step_next h
  rcases accept_ok.mp ha with ⟨hl, _, rfl⟩ | ⟨_, _, rfl⟩
  · rw [launch_of_launched hl]
    exact boundary_stepped hb
  · exact boundary_stepped hb

theorem Stepped.boundaryMove {s t : State} (h : Stepped s t) : BoundaryMove s t := by
  cases h with
  | nmi hn h =>
    exact ((arrive_boundaryMove s).trans (beginNmiService_boundaryMove _)).trans h.move.boundaryMove
  | intr hn hi h =>
    exact ((arrive_boundaryMove s).trans (acknowledge_boundaryMove _ _)).trans h.move.boundaryMove
  | ran hn hi i hd h => exact (arrive_boundaryMove s).trans h.boundaryMove
  | fetchFailed hn hi h => exact (arrive_boundaryMove s).trans h.move.boundaryMove

theorem Stepped.levelAndFlags {s t : State} (h : Stepped s t) (hs : LevelAndFlags s) : LevelAndFlags t := by
  cases h with
  | nmi hn h => exact h.level
  | intr hn hi h => exact h.level
  | ran hn hi i hd h => exact h.levelAndFlags (hs.congr rfl rfl rfl)
  | fetchFailed hn hi h => exact h.level

theorem Stepped.lidt_of_idtr_ne {s t : State} (h : Stepped s t) (hne : t.idtr ≠ s.idtr) :
    s.cpl = 0#2 ∧ s.nmiDue = false ∧ s.intrDue = false ∧
      ∃ m, decode (s.codeBytes maxLength s.ip.toNat) = .instr (.lidt m) := by
  cases h with
  | nmi hn h => exact absurd h.move.idtr hne
  | intr hn hi h => exact absurd h.move.idtr hne
  | ran hn hi i hd h =>
    obtain ⟨hcpl, m, rfl⟩ := h.lidt_of_idtr_ne hne
    exact ⟨hcpl, hn, hi, m, hd⟩
  | fetchFailed hn hi h => exact absurd h.move.idtr hne

theorem nmiDue_of_inService {s : State} (h : s.nmiInService = true) : s.nmiDue = false := by
  simp [State.nmiDue, h]

theorem Stepped.iret_of_service_ends {s t : State} (h : Stepped s t) (hs : s.nmiInService = true)
    (ht : t.nmiInService = false) :
    s.intrDue = false ∧ decode (s.codeBytes maxLength s.ip.toNat) = .instr .iret := by
  have hne : t.nmiInService ≠ s.nmiInService := by simp [hs, ht]
  cases h with
  | nmi hn h => simp [nmiDue_of_inService hs] at hn
  | intr hn hi h => exact absurd h.move.nmiInService hne
  | ran hn hi i hd h =>
    have hiret : i = .iret := h.iret_of_nmiInService_ne hne
    exact ⟨hi, hiret ▸ hd⟩
  | fetchFailed hn hi h => exact absurd h.move.nmiInService hne

/-- While an NMI is in service, a request that is pending or arrives is pending after the step (R96). -/
theorem Stepped.nmiPending_of_inService {s t : State} (h : Stepped s t) (hs : s.nmiInService = true) :
    t.nmiPending = (s.nmiPending || s.boundaryInput.nmi) := by
  cases h with
  | nmi hn h => simp [nmiDue_of_inService hs] at hn
  | intr hn hi h => exact h.move.nmiPending
  | ran hn hi i hd h => exact h.nmiPending
  | fetchFailed hn hi h => exact h.move.nmiPending

/-! ### The statements on every step -/

/-- Settles O15: every way in which a boundary ends is a move that keeps the canonical form. -/
theorem stepKeepsMemoryCanonical : Obligations.StepKeepsMemoryCanonical :=
  fun _ _ hs h => (step_stepped h).boundaryMove.mem hs

/-- Settles O16: a delivery or IRET that completes ends with both facts wherever it began, and every other
instruction leaves CS, CPL and the flag word alone. -/
theorem stepKeepsLevelAndFixedFlags : Obligations.StepKeepsLevelAndFixedFlags :=
  fun _ _ hl hf h =>
    have hs := levelAndFlags_iff.mpr ⟨hl, hf⟩
    levelAndFlags_iff.mp ((step_stepped h).levelAndFlags (hs.congr rfl rfl rfl))

/-- Settles O19, by the ways in which a step can end. -/
theorem onlyLidtAtLevelZeroChangesIdtr : Obligations.OnlyLidtAtLevelZeroChangesIdtr := by
  intro s t h hne
  have hl := (step_stepped h).lidt_of_idtr_ne hne
  rwa [codeBytes_launch] at hl

/-- Settles O21, by the ways in which a step can end: no NMI is due while one is in service. -/
theorem nmiServiceEndsOnlyByIret : Obligations.NmiServiceEndsOnlyByIret := by
  intro s t h hs
  refine ⟨fun ht => ?_, fun hp => ?_⟩
  · have hr := (step_stepped h).iret_of_service_ends hs ht
    rwa [codeBytes_launch] at hr
  · exact ((step_stepped h).nmiPending_of_inService hs).trans hp

/-- Settles O20: every way in which a boundary ends leaves them alone, and a step begins with the launched state. -/
theorem stepKeepsGdtrAndProtectedMode : Obligations.StepKeepsGdtrAndProtectedMode := by
  intro s t h
  have hm := (step_stepped h).boundaryMove
  exact ⟨hm.gdtr, hm.params, hm.pe, hm.launched⟩

/-! ### The instruction at CS:IP -/

/-- An accepted state with neither NMI nor INTR due runs the instruction at CS:IP (R93). -/
theorem step_of_accept {s u : State} (ha : s.accept = .ok u) (hn : u.nmiDue = false) (hi : u.intrDue = false) :
    step s = u.arrive.runInstruction := by
  unfold step State.boundary
  rcases recognise_cases u with ⟨h, _⟩ | ⟨_, h, _⟩ | ⟨_, _, hr⟩
  · simp [hn] at h
  · simp [hi] at h
  · rw [ha]
    simp only [hr]

theorem step_of_runsNext {s : State} (h : s.runsNext = true) : step s = s.arrive.runInstruction := by
  simp only [State.runsNext, State.atBoundary, Bool.and_eq_true, Bool.not_eq_true'] at h
  obtain ⟨⟨⟨hl, htf⟩, hn⟩, hi⟩ := h
  exact step_of_accept (accept_ok.mpr (.inl ⟨hl, htf, rfl⟩)) hn hi

/-- Settles O6: the arrival of requests and the launch change neither memory nor CS, so the same bytes are decoded. -/
theorem stepRunsDecodedInstruction : Obligations.StepRunsDecodedInstruction := by
  refine ⟨fun s i h hd => ?_, fun s i hl hb hn hi hd => ?_⟩
  · rw [step_of_runsNext h]
    exact runInstruction_instr (by rwa [codeBytes_arrive])
  · rw [step_of_accept (accept_ok.mpr (.inr ⟨hl, hb, rfl⟩)) hn hi]
    exact runInstruction_instr (by rwa [codeBytes_arrive, codeBytes_launch])

/-! ### Encodings, whole and cut short -/

theorem decode_movR8Imm8 (r : Reg8) (bs : List Byte) :
    decode ((0x16#5 ++ reg8Number r) :: bs) = decodeImm8 (.movR8Imm8 r) bs := by
  cases r <;> rfl

theorem decode_movR16Imm16 (r : Reg16) (bs : List Byte) :
    decode ((0x17#5 ++ reg16Number r) :: bs) = decodeImm16 (.movR16Imm16 r) bs := by
  cases r <;> rfl

theorem decode_lidt (bs : List Byte) : decode (0x0F#8 :: 0x01#8 :: bs) = decodeTwoByte (0x01#8 :: bs) := rfl

/-- The fields of a ModRM byte are the ones it was made of (R63). -/
theorem modRM_fields (mod : BitVec 2) (rm : BitVec 3) :
    ((mod ++ (3#3 ++ rm) : Byte).extractLsb' 3 3 = 3#3) ∧ (mod ++ (3#3 ++ rm) : Byte).extractLsb' 6 2 = mod ∧
      (mod ++ (3#3 ++ rm) : Byte).extractLsb' 0 3 = rm := by
  revert mod rm
  decide

theorem modField_ne_three (m : MemOperand) : m.modField ≠ 3#2 := by
  rcases m with ⟨b, _ | d | d⟩ | d <;> simp [MemOperand.modField]

theorem decode_lidt_some {m m' : MemOperand} {bs : List Byte} (h : decodeOperand m.modField m.rmField bs = some m') :
    decode (0x0F#8 :: 0x01#8 :: lidtModRM m :: bs) = .instr (.lidt m') := by
  obtain ⟨hreg, hmod, hrm⟩ := modRM_fields m.modField m.rmField
  simp [decode_lidt, decodeTwoByte, decodeGroup, lidtModRM, hreg, hmod, hrm, modField_ne_three, h]

theorem decode_lidt_none {m : MemOperand} {bs : List Byte} (h : decodeOperand m.modField m.rmField bs = none) :
    decode (0x0F#8 :: 0x01#8 :: lidtModRM m :: bs) = .truncated := by
  obtain ⟨hreg, hmod, hrm⟩ := modRM_fields m.modField m.rmField
  simp [decode_lidt, decodeTwoByte, decodeGroup, lidtModRM, hreg, hmod, hrm, modField_ne_three, h]

@[simp] theorem addrBaseOf_addrBaseNumber (b : AddrBase) : addrBaseOf (addrBaseNumber b) = b := by
  cases b <;> rfl

theorem addrBaseNumber_ne_six {b : AddrBase} (h : b ≠ .bp) : addrBaseNumber b ≠ 6#3 := by
  cases b <;> simp_all [addrBaseNumber]

/-- A memory operand that has an encoding is read back from it, whatever bytes follow (R66). -/
theorem decodeOperand_whole {m : MemOperand} (hw : m.wellFormed = true) (rest : List Byte) :
    decodeOperand m.modField m.rmField (m.dispBytes ++ rest) = some m := by
  rcases m with ⟨b, _ | d | d⟩ | d
  · have hb : addrBaseNumber b ≠ 6#3 := addrBaseNumber_ne_six (by rintro rfl; cases hw)
    rcases rest with _ | ⟨x, _ | ⟨y, zs⟩⟩ <;>
      simp [decodeOperand, MemOperand.modField, MemOperand.rmField, MemOperand.dispBytes, hb]
  · simp [decodeOperand, MemOperand.modField, MemOperand.rmField, MemOperand.dispBytes]
  · simp [decodeOperand, MemOperand.modField, MemOperand.rmField, MemOperand.dispBytes, wordBytes, wordOf_high_low]
  · simp [decodeOperand, MemOperand.modField, MemOperand.rmField, MemOperand.dispBytes, wordBytes, wordOf_high_low]

/-- A displacement that is cut short is no operand (R16, R66). -/
theorem decodeOperand_cut {m : MemOperand} {k : Nat} (hk : k < m.dispSize) :
    decodeOperand m.modField m.rmField (m.dispBytes.take k) = none := by
  rcases m with ⟨b, _ | d | d⟩ | d <;> simp only [MemOperand.dispSize] at hk
  · omega
  all_goals
    interval_cases k <;>
      simp [decodeOperand, MemOperand.modField, MemOperand.rmField, MemOperand.dispBytes, wordBytes]

/-- An instruction is read back from its encoding, whatever bytes follow (R67). -/
theorem decode_encode {i : Instr} (hw : i.wellFormed = true) (rest : List Byte) :
    decode (encode i ++ rest) = .instr i := by
  cases i with
  | intN n => rfl
  | int3 => rfl
  | into => rfl
  | iret => rfl
  | lidt m => exact decode_lidt_some (decodeOperand_whole hw rest)
  | movR8Imm8 r v => exact decode_movR8Imm8 r (v :: rest)
  | movR16Imm16 r v =>
    refine (decode_movR16Imm16 r (wordBytes v ++ rest)).trans ?_
    simp [wordBytes, decodeImm16, wordOf_high_low]
  | outDxAl => rfl

/-- An encoding that is cut short decodes to no instruction, for want of bytes (R16). -/
theorem decode_take_encode {i : Instr} {k : Nat} (hk : k < i.length) : decode ((encode i).take k) = .truncated := by
  cases i with
  | intN n =>
    simp only [Instr.length] at hk
    interval_cases k <;> rfl
  | lidt m =>
    match k with
    | 0 => rfl
    | 1 => rfl
    | 2 => rfl
    | k + 3 =>
      have hd : k < m.dispSize := by simp only [Instr.length] at hk; omega
      exact decode_lidt_none (decodeOperand_cut hd)
  | movR8Imm8 r v =>
    simp only [Instr.length] at hk
    interval_cases k
    · rfl
    · exact decode_movR8Imm8 r []
  | movR16Imm16 r v =>
    simp only [Instr.length] at hk
    interval_cases k
    · rfl
    · exact decode_movR16Imm16 r []
    · exact decode_movR16Imm16 r [lowByte v]
  | int3 | into | iret | outDxAl =>
    simp only [Instr.length] at hk
    interval_cases k
    rfl

theorem encodeLength_statement (i : Instr) : Laws.EncodeLength.Statement i := by
  cases i with
  | intN n => exact Laws.EncodeLength.intN n
  | int3 => exact Laws.EncodeLength.int3
  | into => exact Laws.EncodeLength.into
  | iret => exact Laws.EncodeLength.iret
  | lidt m => exact Laws.EncodeLength.lidt m
  | movR8Imm8 r v => exact Laws.EncodeLength.movR8Imm8 r v
  | movR16Imm16 r v => exact Laws.EncodeLength.movR16Imm16 r v
  | outDxAl => exact Laws.EncodeLength.outDxAl

/-! ### The fetch at the limit of CS -/

/-- The bytes stand in the code segment from an offset on, as far as its limit reaches. -/
def State.holdsCode (s : State) (off : Nat) (bs : List Byte) : Prop :=
  ∀ j, j < bs.length → off + j ≤ s.cs.limit.toNat → s.read8 (s.cs.base + BitVec.ofNat 24 (off + j)) = bs.getD j 0x00#8

theorem holdsCode_cons {s : State} {off : Nat} {b : Byte} {bs : List Byte} (h : s.holdsCode off (b :: bs)) :
    (off ≤ s.cs.limit.toNat → s.read8 (s.cs.base + BitVec.ofNat 24 off) = b) ∧ s.holdsCode (off + 1) bs := by
  refine ⟨fun hoff => by simpa using h 0 (by simp) hoff, fun j hj hoff => ?_⟩
  have hj' := h (j + 1) (by simpa using hj) (by omega)
  rwa [← Nat.add_assoc, Nat.add_right_comm, List.getD_cons_succ] at hj'

/-- A fetch of bytes that lie within the limit reads all of them. -/
theorem codeBytes_within {s : State} {bs : List Byte} {n off : Nat} (hn : bs.length ≤ n) (h : s.holdsCode off bs)
    (hf : off + bs.length ≤ s.cs.limit.toNat + 1) : ∃ rest, s.codeBytes n off = bs ++ rest := by
  induction bs generalizing n off with
  | nil => exact ⟨_, rfl⟩
  | cons b bs ih =>
    obtain ⟨hb, hbs⟩ := holdsCode_cons h
    simp only [List.length_cons] at hn hf
    obtain ⟨n, rfl⟩ : ∃ k, n = k + 1 := ⟨n - 1, by omega⟩
    have hoff : off ≤ s.cs.limit.toNat := by omega
    obtain ⟨rest, hrest⟩ := ih (n := n) (by omega) hbs (by omega)
    exact ⟨rest, by simp [State.codeBytes, hoff, hb hoff, hrest]⟩

/-- A fetch of bytes that reach beyond the limit stops at it (R16, D26). -/
theorem codeBytes_beyond {s : State} {bs : List Byte} {n off : Nat} (hn : bs.length ≤ n) (h : s.holdsCode off bs)
    (hf : s.cs.limit.toNat + 1 < off + bs.length) :
    s.codeBytes n off = bs.take (s.cs.limit.toNat + 1 - off) := by
  induction bs generalizing n off with
  | nil =>
    have hoff : ¬ off ≤ s.cs.limit.toNat := by simp only [List.length_nil] at hf; omega
    cases n <;> simp [State.codeBytes, hoff]
  | cons b bs ih =>
    obtain ⟨hb, hbs⟩ := holdsCode_cons h
    simp only [List.length_cons] at hn hf
    obtain ⟨n, rfl⟩ : ∃ k, n = k + 1 := ⟨n - 1, by omega⟩
    by_cases hoff : off ≤ s.cs.limit.toNat
    · have hk : s.cs.limit.toNat + 1 - off = s.cs.limit.toNat + 1 - (off + 1) + 1 := by omega
      rw [hk, List.take_succ_cons, ← ih (n := n) (by omega) hbs (by omega)]
      simp [State.codeBytes, hoff, hb hoff]
    · have hk : s.cs.limit.toNat + 1 - off = 0 := by omega
      simp [State.codeBytes, hoff, hk]

/-- Bytes that end before their instruction does are the fault of the fetch, where failed checks stop the run. -/
theorem runInstruction_truncated {s : State} (hd : decode (s.codeBytes maxLength s.ip.toNat) = .truncated)
    (hp : s.params.deliverFaults = false) : s.runInstruction = .fault (.fetchBeyondLimit s.ip) := by
  unfold State.runInstruction State.fetch
  rw [hd]
  simp [State.noInstruction, settle, failing, hp]

/-- Settles O7: the fetch reads the whole encoding or what of it the limit leaves, and the decoder tells the two
apart. -/
theorem instructionMustLieWithinCodeLimit : Obligations.InstructionMustLieWithinCodeLimit := by
  intro s i hs hp hw hread
  obtain ⟨hlen, hpos, hmax⟩ := encodeLength_statement i
  have hcode : s.holdsCode s.ip.toNat (encode i) := hread
  refine ⟨fun hfits => ?_, fun hover => ?_⟩
  · obtain ⟨rest, hrest⟩ := codeBytes_within (n := maxLength) (by omega) hcode (by omega)
    exact stepRunsDecodedInstruction.1 s i hs (by rw [hrest, decode_encode hw])
  · rw [step_of_runsNext hs]
    refine runInstruction_truncated ?_ hp
    rw [codeBytes_arrive, State.arrive_ip, codeBytes_beyond (by omega) hcode (by omega)]
    exact decode_take_encode (by omega)

/-! ### The reset state -/

/-- Settles O13: the values of R34, register by register. -/
theorem resetHoldsTheHardwareValues : Obligations.ResetHoldsTheHardwareValues := by
  refine ⟨rfl, rfl, rfl, rfl, rfl, rfl, rfl, rfl, rfl, rfl, fun n hn => ?_⟩
  cases n with
  | cs => exact absurd rfl hn
  | es | ss | ds => exact ⟨rfl, rfl, rfl⟩

theorem reset_levelAndFlags : LevelAndFlags State.reset := ⟨by decide, by decide⟩

/-- Settles O14, by the values of the reset state. -/
theorem resetMeetsTheInvariants : Obligations.ResetMeetsTheInvariants :=
  ⟨reset_mem_wf, levelAndFlags_iff.mp reset_levelAndFlags⟩

end Sys2Proof.Machine
end

section
/-! The proofs about memory: words and runs of words, the limit test, what a selector names, the load of a segment
register, and what leaving a task writes. -/

namespace Sys2Proof.Machine

/-! ### Words -/

/-- Settles O51, by the bytes of a word that was written. -/
theorem wordsAreLittleEndian : Obligations.WordsAreLittleEndian := by
  intro s a v
  have hne : a ≠ a + 1#24 := by bv_omega
  refine ⟨s.read16_write16_same a v, ?_, ?_, fun b h0 h1 => ?_⟩
  · rw [State.read8_write16, if_neg hne, if_pos rfl]
    rfl
  · rw [State.read8_write16, if_pos rfl]
    rfl
  · rw [State.read8_write16, if_neg h1, if_neg h0]

/-! ### The limit test -/

theorem rangeOk_word_expandUp {g : SegReg} (h : arExpandDown g.ar = false) (off : Word) :
    rangeOk g off 2 = true ↔ off.toNat + 1 ≤ g.limit.toNat := by
  simp only [rangeOk, h, Bool.false_eq_true, if_false, decide_eq_true_eq]
  omega

theorem rangeOk_word_expandDown {g : SegReg} (h : arExpandDown g.ar = true) (off : Word) :
    rangeOk g off 2 = true ↔ g.limit < off ∧ off ≠ 0xFFFF#16 := by
  simp only [rangeOk, h, if_true, Bool.and_eq_true, decide_eq_true_eq]
  bv_omega

/-- A word at offset FFFFH reaches beyond every segment (R53). -/
theorem rangeOk_word_last (g : SegReg) : rangeOk g 0xFFFF#16 2 = false := by
  rw [← Bool.not_eq_true]
  cases h : arExpandDown g.ar with
  | false => rw [rangeOk_word_expandUp h]; bv_omega
  | true => simp [rangeOk_word_expandDown h]

theorem segReadOk_iff {g : SegReg} {off : Word} {n : Nat} :
    segReadOk g off n = true ↔ selNull g.sel = false ∧ arReadable g.ar = true ∧ rangeOk g off n = true := by
  simp [segReadOk, and_assoc]

theorem segWriteOk_iff {g : SegReg} {off : Word} {n : Nat} :
    segWriteOk g off n = true ↔ selNull g.sel = false ∧ arWritable g.ar = true ∧ rangeOk g off n = true := by
  simp [segWriteOk, and_assoc]

/-- A code segment is readable by its R bit alone (R48). -/
theorem arReadable_of_isCode {ar : Byte} (h : arIsCode ar = true) : arReadable ar = ar.getLsbD 1 := by
  simp only [arIsCode, Bool.and_eq_true] at h
  obtain ⟨hseg, hcode⟩ := h
  simp only [arReadable, arIsData, arIsCode, hseg, hcode, Bool.not_true, Bool.and_false, Bool.false_or, Bool.true_and]

/-- In a writable expand-up segment of 64 KB a word may be written at every offset but the last. -/
theorem segWriteOk_word_full {g : SegReg} (hn : selNull g.sel = false) (hw : arWritable g.ar = true)
    (he : arExpandDown g.ar = false) (hl : g.limit = 0xFFFF#16) (off : Word) :
    segWriteOk g off 2 = decide (off ≠ 0xFFFF#16) := by
  rw [Bool.eq_iff_iff, segWriteOk_iff, rangeOk_word_expandUp he, decide_eq_true_eq, hl]
  have hoff : off.toNat + 1 ≤ (0xFFFF#16).toNat ↔ off ≠ 0xFFFF#16 := by bv_omega
  simp only [hn, hw, hoff, true_and]

/-- Settles O52, by the form of the limit test in each kind of segment. -/
theorem segmentLimitTest : Obligations.SegmentLimitTest := by
  intro g off
  refine ⟨rangeOk_word_last g, fun h => rangeOk_word_expandUp h off, fun h => rangeOk_word_expandDown h off,
    fun h => ?_, fun h => ?_, fun hn hw he hl => ?_⟩
  · obtain ⟨hn, hw, hr⟩ := segWriteOk_iff.mp h
    exact ⟨hw, hn, hr⟩
  · obtain ⟨hn, hread, _⟩ := segReadOk_iff.mp h
    exact ⟨hn, fun hc => arReadable_of_isCode hc ▸ hread⟩
  · simp [frameFits, segWriteOk_word_full hn hw he hl]

/-! ### Selectors -/

theorem selNull_iff (sel : Word) : selNull sel = true ↔ sel.toNat < 4 := by
  rw [selNull, beq_iff_eq, ← BitVec.toNat_inj, BitVec.extractLsb'_toNat, Nat.shiftRight_eq_div_pow]
  have := sel.isLt
  simp only [BitVec.toNat_ofNat]
  omega

theorem selNull_eq_false_iff (sel : Word) : selNull sel = false ↔ 4 ≤ sel.toNat := by
  rw [← Bool.not_eq_true, selNull_iff, Nat.not_lt]

theorem selOffset_toNat (sel : Word) : (selOffset sel).toNat = sel.toNat / 8 * 8 := by
  have := sel.isLt
  simp only [selOffset, BitVec.toNat_append, BitVec.extractLsb'_toNat, Nat.shiftRight_eq_div_pow, Nat.shiftLeft_eq,
    BitVec.toNat_ofNat, Nat.zero_mod, Nat.or_zero]
  omega

theorem selOffset_setWidth (sel : Word) : (selOffset sel).setWidth 24 = BitVec.ofNat 24 (sel.toNat / 8 * 8) := by
  rw [← selOffset_toNat, BitVec.ofNat_toNat]

/-- A selector with TI = 1 is not null. -/
theorem selNull_of_selTi {sel : Word} (h : selTi sel = true) : selNull sel = false := by
  rw [selNull_eq_false_iff]
  by_contra hlt
  have : sel.toNat.testBit 2 = false := Nat.testBit_lt_two_pow (by omega)
  simp only [selTi, BitVec.getLsbD, this, Bool.false_eq_true] at h

theorem readDesc_of_selNull {s : State} {sel : Word} (h : selNull sel = true) : s.readDesc sel = none := by
  simp [State.readDesc, h]

theorem readDesc_gdt {s : State} {sel : Word} (hn : selNull sel = false) (ht : selTi sel = false) :
    s.readDesc sel = if s.gdtr.limit.toNat < sel.toNat / 8 * 8 + 7 then none
      else some (s.descAt (s.gdtr.base + BitVec.ofNat 24 (sel.toNat / 8 * 8))) := by
  simp [State.readDesc, hn, ht, selOffset_toNat, selOffset_setWidth]

theorem readDesc_ldt {s : State} {sel : Word} (hl : selNull s.ldtr.sel = false) (ht : selTi sel = true) :
    s.readDesc sel = if s.ldtr.limit.toNat < sel.toNat / 8 * 8 + 7 then none
      else some (s.descAt (s.ldtr.base + BitVec.ofNat 24 (sel.toNat / 8 * 8))) := by
  simp [State.readDesc, selNull_of_selTi ht, hl, ht, selOffset_toNat, selOffset_setWidth]

theorem readDesc_ldt_none {s : State} {sel : Word} (hl : selNull s.ldtr.sel = true) (ht : selTi sel = true) :
    s.readDesc sel = none := by
  simp [State.readDesc, hl, ht]

/-- Settles O53, by what a selector names in each of the two tables. -/
theorem selectorsNameDescriptors : Obligations.SelectorsNameDescriptors := by
  intro s sel
  refine ⟨fun h => readDesc_of_selNull ((selNull_iff sel).mpr h),
    fun ht hl => readDesc_ldt_none ((selNull_iff _).mpr hl) ht, fun hn ht => ?_, fun hl ht => ?_,
    fun a => ⟨rfl, rfl, rfl, rfl, rfl, rfl, rfl, rfl, rfl⟩⟩
  · rw [readDesc_gdt ((selNull_eq_false_iff sel).mpr hn) ht]
    exact ⟨fun h => if_pos h, fun h => if_neg (by omega)⟩
  · rw [readDesc_ldt ((selNull_eq_false_iff _).mpr hl) ht]
    exact ⟨fun h => if_pos h, fun h => if_neg (by omega)⟩

/-! ### The load of a segment register -/

theorem seg_setSeg (s : State) (n m : SegName) (g : SegReg) : (s.setSeg n g).seg m = if m = n then g else s.seg m := by
  cases n <;> cases m <;> rfl

theorem seg_markAccessed (s : State) (d : Desc) (m : SegName) : (s.markAccessed d).seg m = s.seg m := by
  cases m <;> simp [State.seg]

theorem seg_loadSeg (s : State) (n m : SegName) (sel : Word) (d : Desc) :
    (s.loadSeg n sel d).seg m = if m = n then d.toSegReg sel else s.seg m := by
  rw [State.loadSeg, seg_markAccessed, seg_setSeg]

/-- A segment load touches none of the registers that belong to no segment (R55). -/
theorem loadSeg_fields (s : State) (n : SegName) (sel : Word) (d : Desc) :
    (s.loadSeg n sel d).regs = s.regs ∧ (s.loadSeg n sel d).flags = s.flags ∧ (s.loadSeg n sel d).cpl = s.cpl ∧
      (s.loadSeg n sel d).ip = s.ip ∧ keepsTask s (s.loadSeg n sel d) := by
  cases n <;> simp [keepsTask]

theorem arAccessed_of_accessed {ar : Byte} (h : arIsAccessed ar = true) : arAccessed ar = ar := by
  apply BitVec.eq_of_getLsbD_eq
  intro j hj
  rw [arIsAccessed] at h
  interval_cases j <;> simp [arAccessed, h]

/-- After a segment load the accessed bit is set in memory, whether or not it was before (R55). -/
theorem read8_loadSeg_access {s : State} {n : SegName} {sel : Word} {d : Desc}
    (hd : s.read8 (d.addr + 5#24) = d.ar) : (s.loadSeg n sel d).read8 (d.addr + 5#24) = arAccessed d.ar := by
  cases h : arIsAccessed d.ar with
  | false => exact read8_loadSeg_same ⟨h, rfl⟩
  | true =>
    have hkept : ¬ marksAt d (d.addr + 5#24) := fun hm => by simp [hm.1] at h
    rw [read8_loadSeg_other hkept, hd, arAccessed_of_accessed h]

/-- Settles O54, by the register that the load makes and the one byte that it may write. -/
theorem loadSegCachesTheDescriptor : Obligations.LoadSegCachesTheDescriptor := by
  rintro s n sel a d rfl
  have hreg : (s.loadSeg n sel (s.descAt a)).seg n = (s.descAt a).toSegReg sel := by rw [seg_loadSeg, if_pos rfl]
  have hother : ∀ m, m ≠ n → (s.loadSeg n sel (s.descAt a)).seg m = s.seg m :=
    fun m hm => by rw [seg_loadSeg, if_neg hm]
  obtain ⟨hregs, hflags, hcpl, hip, htask⟩ := loadSeg_fields s n sel (s.descAt a)
  have hmove := move_loadSeg s n sel (s.descAt a)
  have hmem : ∀ b, b ≠ a + 5#24 → (s.loadSeg n sel (s.descAt a)).read8 b = s.read8 b :=
    fun b hb => read8_loadSeg_other fun hm => hb hm.2
  have hmark : (s.loadSeg n sel (s.descAt a)).read8 (a + 5#24) = arAccessed (s.descAt a).ar :=
    read8_loadSeg_access (d := s.descAt a) rfl
  rw [hreg]
  exact ⟨rfl, rfl, rfl, rfl, hmark, hmem, hother, hregs, hflags, hcpl, hip, htask,
    hmove.keepsSystem, hmove.nmiInService⟩

/-! ### Runs of words -/

/-- A run of words is its first word and the run after it. -/
theorem within_words_succ {a b : Addr} {n : Nat} (h : within a 2 b ∨ within (a + 2#24) (2 * n) b) :
    within a (2 * (n + 1)) b := by
  unfold within at *
  bv_omega

/-- In a run that does not reach round to its start, the first word lies outside the run after it. -/
theorem not_within_rest {a b : Addr} {n : Nat} (hn : 2 * (n + 1) ≤ 2 ^ 24) (h : within a 2 b) :
    ¬ within (a + 2#24) (2 * n) b := by
  unfold within at *
  bv_omega

/-- The words of a run lie inside it. -/
theorem within_of_word {a b : Addr} {n j : Nat} (hn : 2 * n ≤ 2 ^ 24) (hj : j < n)
    (h : within (a + BitVec.ofNat 24 (2 * j)) 2 b) : within a (2 * n) b := by
  unfold within at *
  simp only [BitVec.toNat_sub, BitVec.toNat_add, BitVec.toNat_ofNat] at *
  omega

theorem read8_writeWords_other {s : State} {a b : Addr} {ws : List Word} (h : ¬ within a (2 * ws.length) b) :
    (s.writeWords a ws).read8 b = s.read8 b := by
  induction ws generalizing s a with
  | nil => rfl
  | cons w ws ih =>
    have hrest : ¬ within (a + 2#24) (2 * ws.length) b := fun hb => h (within_words_succ (.inr hb))
    have hword : ¬ within a 2 b := fun hb => h (within_words_succ (.inl hb))
    rw [State.writeWords, ih hrest, read8_write16_other hword]

/-- Words that are written one after the other are read back, if they do not reach round to the first. -/
theorem read16_writeWords {s : State} {a : Addr} {ws : List Word} (hn : 2 * ws.length ≤ 2 ^ 24) {j : Nat}
    (hj : j < ws.length) : (s.writeWords a ws).read16 (a + BitVec.ofNat 24 (2 * j)) = ws[j] := by
  induction ws generalizing s a j with
  | nil => simp at hj
  | cons w ws ih =>
    simp only [List.length_cons] at hn hj
    cases j with
    | zero =>
      have hkept : ((s.write16 a w).writeWords (a + 2#24) ws).read16 a = (s.write16 a w).read16 a :=
        read16_congr_within fun b hb => read8_writeWords_other (not_within_rest hn hb)
      simpa [State.writeWords, hkept] using s.read16_write16_same a w
    | succ j =>
      have haddr : a + BitVec.ofNat 24 (2 * (j + 1)) = a + 2#24 + BitVec.ofNat 24 (2 * j) := by
        rw [Nat.mul_add, BitVec.ofNat_add]
        bv_omega
      rw [haddr]
      exact ih (by omega) (by omega)

/-! ### Leaving a task -/

/-- The access byte whose BUSY bit a task switch changes: that of the incoming descriptor if tasks nest, that of the
outgoing one if IRET leaves the task (R110 step 4). -/
def State.busyAddr (s : State) (cause : SwitchCause) (d : Desc) : Addr :=
  match cause with
  | .nest => d.addr + 5#24
  | .iret => s.gdtr.base + (selOffset s.tr.sel).setWidth 24 + 5#24

/-- What a task switch makes of that access byte: BUSY set or cleared. -/
def SwitchCause.busyByte : SwitchCause → Byte → Byte
  | .nest, b => b ||| 0x02#8
  | .iret, b => b &&& 0xFD#8

theorem switchBusy_eq (s : State) (c : SwitchCause) (d : Desc) :
    s.switchBusy c d = s.write8 (s.busyAddr c d) (c.busyByte (s.read8 (s.busyAddr c d))) := by
  cases c <;> rfl

theorem busyAddr_saveTask (s : State) (c e : SwitchCause) (r : Word) (d : Desc) :
    (s.saveTask e r).busyAddr c d = s.busyAddr c d := by
  cases c <;> simp [State.busyAddr, State.saveTask]

theorem read8_saveTask_other {s : State} {c : SwitchCause} {r : Word} {a : Addr}
    (h : ¬ within (s.tr.base + 0x0E#24) 28 a) : (s.saveTask c r).read8 a = s.read8 a :=
  read8_writeWords_other h

theorem read16_saveTask (s : State) (c : SwitchCause) (r : Word) {j : Nat} (hj : j < 14) :
    some ((s.saveTask c r).read16 (s.tr.base + 0x0E#24 + BitVec.ofNat 24 (2 * j))) = (s.outgoingWords c r)[j]? := by
  have hlen : j < (s.outgoingWords c r).length := hj
  rw [List.getElem?_eq_getElem hlen, State.saveTask, read16_writeWords (by simp [State.outgoingWords]) hlen]

theorem read8_linkBack_other {s : State} {c : SwitchCause} {d : Desc} {a : Addr}
    (h : c = .nest → ¬ within d.base 2 a) : (s.linkBack c d).read8 a = s.read8 a := by
  cases c with
  | nest => exact read8_write16_other (h rfl)
  | iret => rfl

/-- Away from the back link, a byte is as saving the task left it, but for the one with BUSY. -/
theorem read8_leaveTask {s : State} {new : Word} {d : Desc} {c : SwitchCause} {r : Word} {a : Addr}
    (hlink : c = .nest → ¬ within d.base 2 a) :
    (s.leaveTask new d c r).read8 a =
      if a = s.busyAddr c d then c.busyByte ((s.saveTask c r).read8 a) else (s.saveTask c r).read8 a := by
  rw [State.leaveTask, State.read8_enterTask, read8_linkBack_other hlink, switchBusy_eq, State.read8_write8,
    busyAddr_saveTask]
  split
  · rename_i h
    rw [h]
  · rfl

/-- The back link is written last and holds the old TR selector (R110 step 5). -/
theorem read16_leaveTask_link (s : State) (new : Word) (d : Desc) (r : Word) :
    (s.leaveTask new d .nest r).read16 d.base = s.tr.sel := by
  rw [State.leaveTask, State.read16_congr (State.enterTask_mem _ new d), State.linkBack, State.read16_write16_same]
  simp [State.switchBusy, State.saveTask]

section

variable {s : State} {c : SwitchCause} {d : Desc}

/-- The saved words stand in memory at the end if neither BUSY nor the back link lies among them. -/
theorem read16_leaveTask_saved (new r : Word) (hbusy : ¬ within (s.tr.base + 0x0E#24) 28 (s.busyAddr c d))
    (hlink : c = .nest → ∀ a, within d.base 2 a → ¬ within (s.tr.base + 0x0E#24) 28 a) {j : Nat} (hj : j < 14) :
    some ((s.leaveTask new d c r).read16 (s.tr.base + 0x0E#24 + BitVec.ofNat 24 (2 * j))) =
      (s.outgoingWords c r)[j]? := by
  rw [← read16_saveTask s c r hj]
  refine congrArg some (read16_congr_within fun b hb => ?_)
  have hin : within (s.tr.base + 0x0E#24) 28 b := within_of_word (n := 14) (by decide) hj hb
  have hnotBusy : b ≠ s.busyAddr c d := fun h => hbusy (h ▸ hin)
  rw [read8_leaveTask fun h hb' => hlink h b hb' hin, if_neg hnotBusy]

/-- The byte with BUSY lies outside the other two places, so it is that of before with BUSY changed. -/
theorem read8_leaveTask_busy (new r : Word) (hsaved : ¬ within (s.tr.base + 0x0E#24) 28 (s.busyAddr c d))
    (hlink : c = .nest → ¬ within d.base 2 (s.busyAddr c d)) :
    (s.leaveTask new d c r).read8 (s.busyAddr c d) = c.busyByte (s.read8 (s.busyAddr c d)) := by
  rw [read8_leaveTask hlink, if_pos rfl, read8_saveTask_other hsaved]

theorem read8_leaveTask_other (new r : Word) {a : Addr} (hsaved : ¬ within (s.tr.base + 0x0E#24) 28 a)
    (hbusy : a ≠ s.busyAddr c d) (hlink : c = .nest → ¬ within d.base 2 a) :
    (s.leaveTask new d c r).read8 a = s.read8 a := by
  rw [read8_leaveTask hlink, if_neg hbusy, read8_saveTask_other hsaved]

end

/-- Settles O32: of the three places that are written each is read back, since they do not overlap. -/
theorem leavingATaskSavesItsState : Obligations.LeavingATaskSavesItsState := by
  rintro s u new d cause retIp busy rfl hbusy hsaved hlink
  obtain rfl : busy = s.busyAddr cause d := hbusy.trans (by cases cause <;> rfl)
  obtain ⟨hregs, hip, hflags, hcpl, hcs, hss, hds, hes, hldtr, htr, hmsw, hnmi⟩ := leaveTask_fields s new d cause retIp
  have hword := fun j (hj : j < 14) => read16_leaveTask_saved new retIp hsaved (fun h => (hlink h).2) hj
  have hbyte := read8_leaveTask_busy new retIp hsaved fun h => (hlink h).1
  have hback : cause = .nest → (s.leaveTask new d cause retIp).read16 d.base = s.tr.sel := by
    rintro rfl
    exact read16_leaveTask_link s new d retIp
  exact ⟨fun j hj => (hword j hj).trans (by cases cause <;> rfl), hbyte.trans (by cases cause <;> rfl), hback,
    fun a => read8_leaveTask_other new retIp, htr, hmsw, hregs, hip, hflags, hcpl, hcs, hss, hds, hes, hldtr, hnmi,
    (move_leaveTask s new d cause retIp).keepsSystem⟩

end Sys2Proof.Machine
end

section
/-! The proofs about the encoding: what decoded bytes begin with, which bytes are no instruction, and the offset and
segment that a ModRM byte names. -/

namespace Sys2Proof.Machine

/-! ### Register numbers and the fields of a byte -/

@[simp] theorem reg8Number_reg8Of (n : BitVec 3) : reg8Number (reg8Of n) = n := by
  revert n
  decide

@[simp] theorem reg16Number_reg16Of (n : BitVec 3) : reg16Number (reg16Of n) = n := by
  revert n
  decide

@[simp] theorem addrBaseNumber_addrBaseOf (rm : BitVec 3) : addrBaseNumber (addrBaseOf rm) = rm := by
  revert rm
  decide

/-- Every rm field is the number of a base (R66). -/
theorem exists_addrBaseNumber (rm : BitVec 3) : ∃ b, rm = addrBaseNumber b :=
  ⟨addrBaseOf rm, (addrBaseNumber_addrBaseOf rm).symm⟩

/-- A byte is the opcode in its upper five bits with the register number below it (R63). -/
theorem opcode_append_register (b : Byte) : (b.extractLsb' 3 5 ++ b.extractLsb' 0 3 : Byte) = b :=
  (BitVec.extractLsb'_append_extractLsb'_eq_extractLsb' rfl).trans BitVec.extractLsb'_eq_self

/-- A ModRM byte is made of its three fields (R63). -/
theorem modRM_append_fields (b : Byte) : (b.extractLsb' 6 2 ++ (b.extractLsb' 3 3 ++ b.extractLsb' 0 3) : Byte) = b := by
  have hlow : (b.extractLsb' 3 3 ++ b.extractLsb' 0 3 : BitVec 6) = b.extractLsb' 0 6 :=
    BitVec.extractLsb'_append_extractLsb'_eq_extractLsb' rfl
  rw [hlow]
  exact (BitVec.extractLsb'_append_extractLsb'_eq_extractLsb' rfl).trans BitVec.extractLsb'_eq_self

/-- The upper nibble of a byte is its five-bit opcode without the lowest bit. -/
theorem opcode_upperNibble (b : Byte) : (b.extractLsb' 3 5).extractLsb' 1 4 = b.extractLsb' 4 4 := by
  ext i hi
  have hbit : 3 + (1 + i) = 4 + i := by omega
  have hin : 1 + i < 5 := by omega
  simp [hbit, hin]

/-! ### The memory operand that is read -/

theorem decodeOperand_base {rm : BitVec 3} (h : rm ≠ 6#3) (bs : List Byte) :
    decodeOperand 0#2 rm bs = some (.based (addrBaseOf rm) .none) := by
  rcases bs with _ | ⟨_, _ | ⟨_, _⟩⟩ <;> simp [decodeOperand, h]

theorem decodeOperand_direct (lo hi : Byte) (bs : List Byte) :
    decodeOperand 0#2 6#3 (lo :: hi :: bs) = some (.direct (wordOf hi lo)) := rfl

theorem decodeOperand_disp8 (rm : BitVec 3) (d : Byte) (bs : List Byte) :
    decodeOperand 1#2 rm (d :: bs) = some (.based (addrBaseOf rm) (.disp8 d)) := rfl

theorem decodeOperand_disp16 (rm : BitVec 3) (lo hi : Byte) (bs : List Byte) :
    decodeOperand 2#2 rm (lo :: hi :: bs) = some (.based (addrBaseOf rm) (.disp16 (wordOf hi lo))) := rfl

theorem addrBaseOf_ne_bp {rm : BitVec 3} (h : rm ≠ 6#3) : addrBaseOf rm ≠ .bp := by
  intro hb
  exact h (by rw [← addrBaseNumber_addrBaseOf rm, hb]; rfl)

theorem wellFormed_based (b : AddrBase) (d : Disp) :
    (MemOperand.based b d).wellFormed = true ↔ b ≠ .bp ∨ d ≠ .none := by
  cases b <;> cases d <;> simp [MemOperand.wellFormed]

theorem wordBytes_wordOf (hi lo : Byte) : wordBytes (wordOf hi lo) = [lo, hi] := by
  simp [wordBytes]

/-- The mod field of a memory operand is 00, 01 or 10 (R66). -/
theorem modField_cases {mod : BitVec 2} (h : mod ≠ 3#2) : mod = 0#2 ∨ mod = 1#2 ∨ mod = 2#2 := by
  bv_omega

/-- A memory operand that was read has the fields and the displacement bytes that it was read from (R66). -/
theorem decodeOperand_some {mod : BitVec 2} {rm : BitVec 3} {bs : List Byte} {m : MemOperand} (hmod : mod ≠ 3#2)
    (h : decodeOperand mod rm bs = some m) :
    m.wellFormed = true ∧ m.modField = mod ∧ m.rmField = rm ∧ m.dispBytes <+: bs := by
  rcases modField_cases hmod with rfl | rfl | rfl
  · by_cases hrm : rm = 6#3
    · subst hrm
      rcases bs with _ | ⟨lo, _ | ⟨hi, bs⟩⟩
      · cases h
      · cases h
      · rw [decodeOperand_direct] at h
        obtain rfl := Option.some.inj h
        simp [MemOperand.wellFormed, MemOperand.modField, MemOperand.rmField, MemOperand.dispBytes, wordBytes_wordOf]
    · rw [decodeOperand_base hrm] at h
      obtain rfl := Option.some.inj h
      simp [wellFormed_based, addrBaseOf_ne_bp hrm, MemOperand.modField, MemOperand.rmField, MemOperand.dispBytes]
  · rcases bs with _ | ⟨d, bs⟩
    · cases h
    · rw [decodeOperand_disp8] at h
      obtain rfl := Option.some.inj h
      simp [wellFormed_based, MemOperand.modField, MemOperand.rmField, MemOperand.dispBytes]
  · rcases bs with _ | ⟨lo, _ | ⟨hi, bs⟩⟩
    · cases h
    · cases h
    · rw [decodeOperand_disp16] at h
      obtain rfl := Option.some.inj h
      simp [wellFormed_based, MemOperand.modField, MemOperand.rmField, MemOperand.dispBytes, wordBytes_wordOf]

/-! ### The encoding that decoded bytes begin with -/

theorem decodeImm8_instr {f : Byte → Instr} {bs : List Byte} {i : Instr} (h : decodeImm8 f bs = .instr i) :
    ∃ v, i = f v ∧ [v] <+: bs := by
  rcases bs with _ | ⟨v, bs⟩
  · cases h
  · cases h
    exact ⟨v, rfl, bs, rfl⟩

theorem decodeImm16_instr {f : Word → Instr} {bs : List Byte} {i : Instr} (h : decodeImm16 f bs = .instr i) :
    ∃ v, i = f v ∧ wordBytes v <+: bs := by
  rcases bs with _ | ⟨lo, _ | ⟨hi, bs⟩⟩
  · cases h
  · cases h
  · cases h
    exact ⟨wordOf hi lo, rfl, bs, by rw [wordBytes_wordOf]; rfl⟩

theorem decodeGroup_instr {b : Byte} {bs : List Byte} {i : Instr} (h : decodeGroup b bs = .instr i) :
    ∃ m, i = .lidt m ∧ m.wellFormed = true ∧ lidtModRM m = b ∧ m.dispBytes <+: bs := by
  unfold decodeGroup at h
  split_ifs at h with hreg hmod
  split at h
  · next m hm =>
    obtain ⟨hw, hmodField, hrmField, hdisp⟩ := decodeOperand_some hmod hm
    cases h
    refine ⟨m, rfl, hw, ?_, hdisp⟩
    rw [lidtModRM, hmodField, hrmField, ← hreg, modRM_append_fields]
  · cases h

theorem decodeTwoByte_instr {bs : List Byte} {i : Instr} (h : decodeTwoByte bs = .instr i) :
    ∃ m, i = .lidt m ∧ m.wellFormed = true ∧ 0x01#8 :: lidtModRM m :: m.dispBytes <+: bs := by
  rcases bs with _ | ⟨b, bs⟩
  · cases h
  · simp only [decodeTwoByte] at h
    split_ifs at h with hb
    rcases bs with _ | ⟨modrm, bs⟩
    · cases h
    · obtain ⟨m, hi, hw, hmodrm, hdisp⟩ := decodeGroup_instr h
      refine ⟨m, hi, hw, ?_⟩
      rw [hb, hmodrm]
      simpa using hdisp

/-- Bytes that decode to an instruction begin with its encoding (R64, R67). -/
theorem decode_instr {bs : List Byte} {i : Instr} (h : decode bs = .instr i) :
    i.wellFormed = true ∧ encode i <+: bs := by
  rcases bs with _ | ⟨b, bs⟩
  · cases h
  · simp only [decode] at h
    split_ifs at h with hint3 hinto hiret hout hint hmov8 hmov16 hext
    case pos | pos | pos | pos =>
      obtain rfl := Decoded.instr.inj h
      subst b
      exact ⟨rfl, bs, rfl⟩
    · obtain ⟨n, rfl, hn⟩ := decodeImm8_instr h
      exact ⟨rfl, by simpa [encode, hint] using hn⟩
    · obtain ⟨v, rfl, hv⟩ := decodeImm8_instr h
      exact ⟨rfl, by simpa [encode, ← hmov8, opcode_append_register] using hv⟩
    · obtain ⟨v, rfl, hv⟩ := decodeImm16_instr h
      exact ⟨rfl, by simpa [encode, ← hmov16, opcode_append_register] using hv⟩
    · obtain ⟨m, rfl, hw, hm⟩ := decodeTwoByte_instr h
      exact ⟨hw, by simpa [encode, hext] using hm⟩

/-- Settles O1, by `decode_encode`: the register numbers and the fields of the memory operand are read back. -/
theorem decodeReadsEveryEncoding : Obligations.DecodeReadsEveryEncoding :=
  fun _ rest hw => decode_encode hw rest

/-- Settles O2, by the branch of the decoder that answered (`decode_instr`). -/
theorem decodedBytesAreTheEncoding : Obligations.DecodedBytesAreTheEncoding := by
  intro bs i h
  obtain ⟨hw, rest, hrest⟩ := decode_instr h
  obtain ⟨hlen, _⟩ := encodeLength_statement i
  exact ⟨hw, hlen, rest, hrest.symm⟩

/-- Settles O3: each of the byte sequences is the encoding of its instruction. -/
theorem specWordsDecode : Obligations.SpecWordsDecode :=
  ⟨decode_encode (i := .intN 0x40#8) rfl [], decode_encode (i := .int3) rfl [], decode_encode (i := .into) rfl [],
    decode_encode (i := .iret) rfl [], decode_encode (i := .lidt (.based .bx .none)) rfl [],
    decode_encode (i := .lidt (.direct 0x1234#16)) rfl [], decode_encode (i := .movR8Imm8 .al 0x28#8) rfl [],
    decode_encode (i := .movR16Imm16 .dx 0x0401#16) rfl [], decode_encode (i := .outDxAl) rfl []⟩

/-! ### Bytes that are no instruction -/

/-- A byte whose upper nibble is not BH is the opcode of neither MOV (R67). -/
theorem opcode_ne_mov {b : Byte} (h : b.extractLsb' 4 4 ≠ 0xB#4) : b.extractLsb' 3 5 ≠ 0x16#5 ∧ b.extractLsb' 3 5 ≠ 0x17#5 := by
  rw [← opcode_upperNibble] at h
  constructor <;> (intro hop; exact h (by rw [hop]; rfl))

/-- Settles O4, by the tests of the decoder, each failing in turn. -/
theorem bytesOutsideTheMapAreRefused : Obligations.BytesOutsideTheMapAreRefused := by
  refine ⟨fun b rest hext hint3 hint hinto hiret hout hmov => ?_, fun b rest hb => ?_, fun m rest hreg => ?_,
    fun m rest hreg hmod => ?_⟩
  · obtain ⟨hmov8, hmov16⟩ := opcode_ne_mov hmov
    simp only [decode, hint3, hinto, hiret, hout, hint, hmov8, hmov16, hext, if_false]
  · exact if_neg hb
  · exact if_neg hreg
  · exact (if_pos hreg).trans (if_pos hmod)

theorem runInstruction_notInScope {s : State} {b : Byte} (hd : decode (s.codeBytes maxLength s.ip.toNat) = .notInScope b) :
    s.runInstruction = .refused (.notInScope b) := by
  unfold State.runInstruction State.fetch
  rw [hd]
  rfl

/-- An invalid opcode is the fault of that name, where failed checks stop the run. -/
theorem runInstruction_invalidOpcode {s : State} (hd : decode (s.codeBytes maxLength s.ip.toNat) = .invalidOpcode)
    (hp : s.params.deliverFaults = false) : s.runInstruction = .fault .invalidOpcode := by
  unfold State.runInstruction State.fetch
  rw [hd]
  simp [State.noInstruction, settle, failing, hp]

/-- Settles O8: the arrival of requests changes neither the bytes at CS:IP nor the parameters. -/
theorem stepStopsOutsideTheMap : Obligations.StepStopsOutsideTheMap := by
  intro s hs hp
  rw [step_of_runsNext hs]
  refine ⟨fun b hd => runInstruction_notInScope ?_, fun hd => runInstruction_invalidOpcode ?_ hp⟩ <;>
    rwa [codeBytes_arrive]

/-! ### Effective offset and default segment -/

@[simp] theorem effectiveOffset_none (g : GenRegs) (b : AddrBase) : effectiveOffset g (.based b .none) = baseValue g b := by
  simp [effectiveOffset, dispValue]

/-- Settles O5: each mod reads a displacement of its own, and each rm names the base with its number. -/
theorem effectiveAddressFollowsModRM : Obligations.EffectiveAddressFollowsModRM := by
  intro g rm lo hi base seg
  have hbase : baseValue g (addrBaseOf rm) = base := by
    obtain ⟨b, rfl⟩ := exists_addrBaseNumber rm
    cases b <;> rfl
  have hseg : baseSegment (addrBaseOf rm) = seg := by
    obtain ⟨b, rfl⟩ := exists_addrBaseNumber rm
    cases b <;> rfl
  refine ⟨?_, ⟨_, decodeOperand_disp8 rm lo [hi], congrArg (· + signExtend16 lo) hbase, hseg⟩,
    ⟨_, decodeOperand_disp16 rm lo hi [], congrArg (· + wordOf hi lo) hbase, hseg⟩⟩
  by_cases hrm : rm = 6#3
  · subst hrm
    exact ⟨_, decodeOperand_direct lo hi [], fun h => absurd rfl h, fun _ => ⟨rfl, rfl⟩⟩
  · exact ⟨_, decodeOperand_base hrm [lo, hi], fun _ => ⟨(effectiveOffset_none g _).trans hbase, hseg⟩, fun h => absurd h hrm⟩

end Sys2Proof.Machine
end

section
/-! The proofs about the software interrupts: what the first instruction of a handler finds, on the stack in use or on
an inner one, and what an incoming task finds. -/

namespace Sys2Proof.Machine

/-! ### INTO without overflow -/

/-- Settles O28: the test on OF is false. -/
theorem intoWithoutOverflowOnlyAdvances : Obligations.IntoWithoutOverflowOnlyAdvances := by
  intro s hof
  exact if_neg (ne_true_of_eq_false hof)

/-! ### Deliveries that complete -/

/-- A software interrupt instruction completes in the state that its delivery answers. -/
theorem exec_of_deliver {s t : State} {i : Instr} {v : Byte} {r : Word} (hi : softwareEvent s i = some (v, r))
    (hd : s.deliver v .software r none = .ok t) : exec i s = .next t := by
  rw [exec_softwareEvent hi, hd]
  rfl

section

variable {s : State} {v : Byte} {k : EventKind} {r : Word} {err : Option Word} {d : Desc}

/-- Through an interrupt or trap gate a delivery makes the entry that the gate's checks answer (R98, R101). -/
theorem deliver_procedureGate {en : GateEntry} (ho : s.gateOpen v k = true) (hp : s.procedureGate v = true)
    (hc : s.checkGate (s.idtEntry v) err = .ok en) :
    s.deliver v k r err = .ok (s.enterGate en r err (s.idtEntry v).isInterruptGate) :=
  deliver_ok.mpr ⟨ho, .inr ⟨procedureGate_not_task hp, gatePath_ok.mpr ⟨en, hc, rfl⟩⟩⟩

/-- To a code segment entered at the present level, a delivery enters on the stack in use (R104). -/
theorem deliver_same (ho : s.gateOpen v k = true) (hp : s.procedureGate v = true)
    (hd : s.handlerAt (s.idtEntry v) d = true) (hlevel : arCodeFits d.ar s.cpl = true)
    (hf : frameFits s.ss s.regs.sp (frameWords 3 err) = true) :
    s.deliver v k r err = .ok (s.enterGate (.same (s.idtEntry v).gateSelector d (s.idtEntry v).gateOffset) r err
      (s.idtEntry v).isInterruptGate) :=
  deliver_procedureGate ho hp (checkGate_ok.mpr ⟨d, hd, .inr ⟨hlevel, hf, rfl⟩⟩)

/-- To a non-conforming code segment of a smaller level, a delivery enters on the stack that the TSS gives (R105). -/
theorem deliver_inner {newSs newSp : Word} {e : Desc} (ho : s.gateOpen v k = true) (hp : s.procedureGate v = true)
    (hd : s.handlerAt (s.idtEntry v) d = true) (hconf : arConforming d.ar = false) (hlevel : arDpl d.ar < s.cpl)
    (hstack : s.innerStackAt (arDpl d.ar) newSs newSp e = true)
    (hf : frameFits (e.toSegReg newSs) newSp (frameWords 5 err) = true) :
    s.deliver v k r err = .ok (s.enterGate (.inner (s.idtEntry v).gateSelector d (s.idtEntry v).gateOffset newSs newSp e)
      r err (s.idtEntry v).isInterruptGate) :=
  deliver_procedureGate ho hp
    (checkGate_ok.mpr ⟨d, hd, .inl ⟨hconf, hlevel, newSs, newSp, e, hstack, hf, rfl⟩⟩)

end

/-! ### Entering a handler without an error code -/

theorem keepsTask.trans {s t u : State} (h : keepsTask s t) (k : keepsTask t u) : keepsTask s u := by
  obtain ⟨htr, hldtr, hmsw⟩ := h
  obtain ⟨ktr, kldtr, kmsw⟩ := k
  exact ⟨ktr.trans htr, kldtr.trans hldtr, kmsw.trans hmsw⟩

/-- What the first instruction of a handler at level `k` finds in `t` once the words `ws` have been pushed on the stack
of `s`: CS:IP, the level and the flag word of the handler, the words in their frame unless the accessed bit of the
handler's segment stands in it, and everything else as in `s` (R104, R106, R55). -/
structure HandlerEntered (s t : State) (ws : List Word) (sel : Word) (d : Desc) (off : Word) (k : Level)
    (clear : Bool) : Prop where
  ip : t.ip = off
  cpl : t.cpl = k
  cs : t.cs = d.toSegReg (selWithRpl sel k)
  flags : t.flags = handlerFlags clear s.flagWord
  regs : t.regs = s.regs.write .sp (s.regs.sp - BitVec.ofNat 16 (2 * ws.length))
  ss : t.ss = s.ss
  ds : t.ds = s.ds
  es : t.es = s.es
  task : keepsTask s t
  move : CpuMove s t
  frame : (∀ a, marksAt d a → ¬ inFrame s.ss s.regs.sp ws.length a) → frameHolds t s.ss s.regs.sp ws
  marked : ∀ a, marksAt d a → t.read8 a = arAccessed d.ar
  other : ∀ a, ¬ inFrame s.ss s.regs.sp ws.length a → ¬ marksAt d a → t.read8 a = s.read8 a

@[simp] theorem flagWord_pushWords (s : State) (ws : List Word) : (s.pushWords ws).flagWord = s.flagWord := by
  simp [State.flagWord]

/-- The handler's CS is loaded after the pushes, so memory is that of the load alone. -/
theorem read8_enterHandler (s : State) (sel : Word) (d : Desc) (off : Word) (k : Level) (clear : Bool) (a : Addr) :
    (s.enterHandler sel d off k none clear).read8 a = (s.loadSeg .cs (selWithRpl sel k) d).read8 a := rfl

/-- What entering a handler does after any pushes that fit: a word pushed is lost only to the mark of the handler's
segment, which comes last. -/
theorem enterHandler_entered {s : State} {ws : List Word} {sel : Word} {d : Desc} {off : Word} {k : Level} {clear : Bool}
    (hn : ws.length ≤ 16) (hf : frameFits s.ss s.regs.sp ws.length = true) :
    HandlerEntered s ((s.pushWords ws).enterHandler sel d off k none clear) ws sel d off k clear where
  ip := rfl
  cpl := rfl
  cs := by simp [State.enterHandler, State.pushErr]
  flags := by simp [State.enterHandler]
  regs := by simp [State.enterHandler, State.pushErr, pushWords_sp, GenRegs.write]
  ss := by simp [State.enterHandler, State.pushErr]
  ds := by simp [State.enterHandler, State.pushErr]
  es := by simp [State.enterHandler, State.pushErr]
  task := by simp [State.enterHandler, State.pushErr, keepsTask]
  move := (move_pushWords s ws).trans (move_enterHandler _ sel d off k none clear)
  frame hmark := frameHolds_congr (frameHolds_pushWords hn hf) fun a ha => by
    rw [read8_enterHandler, read8_loadSeg_other fun hm => hmark a hm ha]
  marked a ha := by rw [read8_enterHandler, read8_loadSeg_same ha]
  other a hframe hmark := by rw [read8_enterHandler, read8_loadSeg_other hmark, read8_pushWords_other hframe]

/-- An entry at the present level pushes its three words on the stack in use (R104). -/
theorem enterGate_same_entered {s : State} (sel : Word) (d : Desc) (off r : Word) (clear : Bool)
    (hf : frameFits s.ss s.regs.sp 3 = true) :
    HandlerEntered s (s.enterGate (.same sel d off) r none clear) [s.flagWord, s.cs.sel, r] sel d off s.cpl clear :=
  enterHandler_entered (by simp) hf

/-- Settles O29, by what the handler finds on the stack in use. -/
theorem softwareInterruptEntersTheSameLevel : Obligations.SoftwareInterruptEntersTheSameLevel := by
  intro s i v retIp d hi ho hp hd hlevel hf
  have h := enterGate_same_entered (s.idtEntry v).gateSelector d (s.idtEntry v).gateOffset retIp
    (s.idtEntry v).isInterruptGate hf
  exact ⟨_, exec_of_deliver hi (deliver_same ho hp hd hlevel hf), h.ip, h.cpl, h.cs, h.flags, h.regs, h.ss, h.ds, h.es,
    h.task, h.move.keepsSystem, h.move.nmiInService, h.frame, h.marked, h.other⟩

/-! ### The stack of an inner level -/

/-- The state once the stack that the TSS gives for an inner level is in use (R105). -/
def State.onInnerStack (s : State) (newSs newSp : Word) (e : Desc) : State := (s.loadSeg .ss newSs e).setSp newSp

section

variable (s : State) (newSs newSp : Word) (e : Desc)

@[simp] theorem onInnerStack_ss : (s.onInnerStack newSs newSp e).ss = e.toSegReg newSs := by simp [State.onInnerStack]

@[simp] theorem onInnerStack_ds : (s.onInnerStack newSs newSp e).ds = s.ds := by simp [State.onInnerStack]

@[simp] theorem onInnerStack_es : (s.onInnerStack newSs newSp e).es = s.es := by simp [State.onInnerStack]

@[simp] theorem onInnerStack_regs : (s.onInnerStack newSs newSp e).regs = s.regs.write .sp newSp := by
  simp [State.onInnerStack, State.setSp, GenRegs.write]

@[simp] theorem onInnerStack_flagWord : (s.onInnerStack newSs newSp e).flagWord = s.flagWord := by
  simp [State.onInnerStack, State.flagWord]

theorem onInnerStack_keepsTask : keepsTask s (s.onInnerStack newSs newSp e) := by
  simp [State.onInnerStack, keepsTask]

theorem move_onInnerStack : CpuMove s (s.onInnerStack newSs newSp e) :=
  (move_loadSeg s .ss newSs e).trans (move_setSp _ newSp)

theorem read8_onInnerStack_other {a : Addr} (h : ¬ marksAt e a) :
    (s.onInnerStack newSs newSp e).read8 a = s.read8 a := read8_loadSeg_other h

end

/-- What the first instruction of a handler at the inner level of its segment `d` finds in `t`, relative to the
interrupted state `s`: the five words stand on the new stack, and memory outside them changes at most in the accessed
bits of the two segments loaded (R105, R106, R55). -/
structure InnerEntered (s t : State) (r sel : Word) (d : Desc) (off newSs newSp : Word) (e : Desc) (clear : Bool) :
    Prop where
  ip : t.ip = off
  cpl : t.cpl = arDpl d.ar
  cs : t.cs = d.toSegReg (selWithRpl sel (arDpl d.ar))
  flags : t.flags = handlerFlags clear s.flagWord
  regs : t.regs = s.regs.write .sp (newSp - 10#16)
  ss : t.ss = e.toSegReg newSs
  ds : t.ds = s.ds
  es : t.es = s.es
  task : keepsTask s t
  move : CpuMove s t
  frame : (∀ a, marksAt d a → ¬ inFrame (e.toSegReg newSs) newSp 5 a) →
    frameHolds t (e.toSegReg newSs) newSp [s.ss.sel, s.regs.sp, s.flagWord, s.cs.sel, r]
  marked : ∀ a, marksAt d a → t.read8 a = arAccessed d.ar
  other : ∀ a, ¬ inFrame (e.toSegReg newSs) newSp 5 a → ¬ marksAt d a → ¬ marksAt e a → t.read8 a = s.read8 a

/-- An entry at an inner level is the entry of a handler from the state in which the new stack is in use. -/
theorem enterGate_inner_entered {s : State} {newSs newSp : Word} {e : Desc} (sel : Word) (d : Desc) (off r : Word)
    (clear : Bool) (hf : frameFits (e.toSegReg newSs) newSp 5 = true) :
    InnerEntered s (s.enterGate (.inner sel d off newSs newSp e) r none clear) r sel d off newSs newSp e clear := by
  have hss : (s.onInnerStack newSs newSp e).ss = e.toSegReg newSs := onInnerStack_ss s newSs newSp e
  have h : HandlerEntered (s.onInnerStack newSs newSp e) (s.enterGate (.inner sel d off newSs newSp e) r none clear)
      [s.ss.sel, s.regs.sp, s.flagWord, s.cs.sel, r] sel d off (arDpl d.ar) clear :=
    enterHandler_entered (by simp) (by rw [hss]; exact hf)
  exact {
    ip := h.ip
    cpl := h.cpl
    cs := h.cs
    flags := by rw [h.flags, onInnerStack_flagWord]
    regs := by rw [h.regs, onInnerStack_regs]; rfl
    ss := h.ss.trans hss
    ds := h.ds.trans (onInnerStack_ds s newSs newSp e)
    es := h.es.trans (onInnerStack_es s newSs newSp e)
    task := (onInnerStack_keepsTask s newSs newSp e).trans h.task
    move := (move_onInnerStack s newSs newSp e).trans h.move
    frame := hss ▸ h.frame
    marked := h.marked
    other := fun a hframe hd he => by
      rw [h.other a (by rw [hss]; exact hframe) hd, read8_onInnerStack_other s newSs newSp e he] }

/-- Settles O30, by what the handler finds on the stack of the inner level. -/
theorem softwareInterruptEntersAnInnerLevel : Obligations.SoftwareInterruptEntersAnInnerLevel := by
  intro s i v retIp d newSs newSp e hi ho hp hd hconf hlevel hstack hf
  have h := enterGate_inner_entered (s := s) (s.idtEntry v).gateSelector d (s.idtEntry v).gateOffset retIp
    (s.idtEntry v).isInterruptGate hf
  exact ⟨_, exec_of_deliver hi (deliver_inner ho hp hd hconf hlevel hstack hf), h.ip, h.cpl, h.cs, h.ss, h.flags, h.regs,
    h.ds, h.es, h.task, h.move.keepsSystem, h.move.nmiInService, h.frame, h.marked, h.other⟩

/-! ### Task gates -/

theorem taskAt_iff {s : State} {sel : Word} {busy : Bool} {d : Desc} :
    s.taskAt sel busy d = true ↔
      selTi sel = false ∧ s.readDesc sel = some d ∧ (if busy then d.isBusyTss else d.isAvailableTss) = true ∧
        arPresent d.ar = true ∧ tssMinLimit ≤ d.limit := by
  simp only [State.taskAt, Bool.and_eq_true, Bool.not_eq_true', beq_iff_eq, decide_eq_true_eq, and_assoc]

/-- Through a task gate to an available TSS, a delivery goes on in the incoming task `w` if the segments of that task
load, with the error code's push, if there is one, in it (R109, R110). -/
theorem deliver_taskGate {s u w t : State} {v : Byte} {k : EventKind} {r : Word} {err : Option Word} {d : Desc}
    (ho : s.gateOpen v k = true) (ht : (s.idtEntry v).isTaskGate = true)
    (hd : s.taskAt (s.idtEntry v).gateSelector false d = true)
    (hu : u = s.leaveTask (s.idtEntry v).gateSelector d .nest r)
    (hload : (u.loadTask .nest (u.readTss d.base)).loadTaskSegments (u.readTss d.base) = .ok w)
    (hpush : w.pushTaskErr err = .ok t) : s.deliver v k r err = .ok t := by
  subst hu
  obtain ⟨hti, hread, havail, hpresent, hlimit⟩ := taskAt_iff.mp hd
  have hsw : s.taskSwitch (s.idtEntry v).gateSelector d .nest r = .ok w := taskSwitch_ok.mpr ⟨hlimit, hload⟩
  exact deliver_ok.mpr ⟨ho, .inl ⟨ht, taskGatePath_ok.mpr ⟨hti, d, hread, havail, hpresent, w, hsw, hpush⟩⟩⟩

/-- Once the segments of the incoming task load, the switch from `s` is complete: the task is the one of the image, and
memory differs from that of the task left only in access bytes (R110, steps 6 to 10). -/
theorem loadTaskSegments_switched {s u t : State} {new : Word} {d : Desc} {cause : SwitchCause} {r : Word}
    {img : TssImage} (hu : u = s.leaveTask new d cause r) (hload : (u.loadTask cause img).loadTaskSegments img = .ok t) :
    taskLoaded t cause img ∧ marksOnly u t img ∧ t.tr = d.toSysSegReg new ∧ t.msw = s.msw ||| 0x0008#16 ∧
      keepsSystem s t ∧ t.nmiInService = s.nmiInService := by
  subst hu
  have h := loadTaskSegments_loaded hload
  have hmove := (move_leaveTask s new d cause r).trans (move_loadTask _ cause img)
  obtain ⟨-, -, -, -, -, -, -, -, -, htr, hmsw, -⟩ := leaveTask_fields s new d cause r
  exact ⟨⟨h.ip, h.regs, h.flags, h.cpl, h.csSel, h.ssSel, h.dsSel, h.esSel, h.ldtSel, h.ipFits⟩, h.marks,
    h.tr.trans htr, h.msw.trans hmsw, hmove.keepsSystem.trans h.system, h.nmiInService.trans hmove.nmiInService⟩

@[simp] theorem flagNt_setNt (v : Word) : flagNt (setNt v) = true := by simp [flagNt, setNt]

/-- A task entered by an interrupt runs with NT set (R111). -/
theorem flagNt_of_taskLoaded {t : State} {img : TssImage} (h : taskLoaded t .nest img) : flagNt t.flags = true := by
  obtain ⟨-, -, hflags, -⟩ := h
  rw [hflags, flagNt_setNt]

/-- Settles O31, by the task switch that the task gate leads to. -/
theorem softwareInterruptSwitchesTasks : Obligations.SoftwareInterruptSwitchesTasks := by
  rintro s t i v retIp d u img hi ho ht hd hu rfl hload
  obtain ⟨hloaded, hmarks, htr, hmsw, hsystem, hnmi⟩ := loadTaskSegments_switched hu hload
  have hdeliver := deliver_taskGate ho ht hd hu hload (pushTaskErr_none t)
  exact ⟨exec_of_deliver hi hdeliver, hloaded, flagNt_of_taskLoaded hloaded, hmarks, htr, hmsw, hsystem, hnmi⟩

end Sys2Proof.Machine
end

section
/-! The proofs about IRET: which bits of the image it loads, what each of its three returns does, and the fault of each
return that it refuses. -/

namespace Sys2Proof.Machine

/-! ### The bits of the image -/

theorem getLsbD_fixFlags (v : Word) {j : Nat} (hj : j < 16) :
    (fixFlags v).getLsbD j = if j = 1 then true else if j = 3 ∨ j = 5 ∨ j = 15 then false else v.getLsbD j := by
  interval_cases j <;> simp [fixFlags]

section

variable (p : Prop) [Decidable p] (img old : Word) {j : Nat}

/-- The filter's first step (R79): the image, with the IOPL of the old flag word where `p`. -/
theorem getLsbD_keepIopl (hj : j < 16) :
    (if p then (img &&& 0xCFFF#16) ||| (old &&& 0x3000#16) else img).getLsbD j =
      if (j = 12 ∨ j = 13) ∧ p then old.getLsbD j else img.getLsbD j := by
  by_cases h : p
  · interval_cases j <;> simp [h]
  · simp [h]

/-- The filter's second step (R79): the image, with the IF of the old flag word where `p`. -/
theorem getLsbD_keepIf (hj : j < 16) :
    (if p then (img &&& 0xFDFF#16) ||| (old &&& 0x0200#16) else img).getLsbD j =
      if j = 9 ∧ p then old.getLsbD j else img.getLsbD j := by
  by_cases h : p
  · interval_cases j <;> simp [h]
  · simp [h]

end

/-- Settles O56, by the bits of the fixed flag word and of each step of the filter. -/
theorem iretFilterBits : Obligations.IretFilterBits := by
  intro filter cpl old img j hj
  simp only [filterFlags, Bool.and_eq_true, decide_eq_true_eq, getLsbD_fixFlags _ hj, getLsbD_keepIf _ _ _ hj,
    getLsbD_keepIopl _ _ _ hj]
  by_cases hiopl : j = 12 ∨ j = 13
  · have hif : j ≠ 9 := by omega
    simp only [hiopl, hif, true_and, false_and, if_false]
  · simp only [hiopl, false_and, if_false]

@[simp] theorem flagIopl_fixFlags (v : Word) : flagIopl (fixFlags v) = flagIopl v := by
  apply BitVec.eq_of_getLsbD_eq
  intro j hj
  interval_cases j <;> simp [flagIopl, fixFlags]

@[simp] theorem flagIf_fixFlags (v : Word) : flagIf (fixFlags v) = flagIf v := getLsbD_fixFlags v (by decide)

/-- With the filter on, IOPL is the old one above level 0 (R79). -/
theorem flagIopl_filterFlags {cpl : Level} (h : cpl ≠ 0#2) (old img : Word) :
    flagIopl (filterFlags true cpl old img) = flagIopl old := by
  apply BitVec.eq_of_getLsbD_eq
  intro j hj
  have hbit : (filterFlags true cpl old img).getLsbD (12 + j) = old.getLsbD (12 + j) := by
    rw [iretFilterBits true cpl old img (12 + j) (by omega), if_neg (by omega), if_neg (by omega),
      if_pos ⟨by omega, rfl, h⟩]
  simp only [flagIopl, BitVec.getLsbD_extractLsb', hbit]

/-- With the filter on, IF is the old one at a level above the old IOPL (R79). -/
theorem flagIf_filterFlags {cpl : Level} {old : Word} (h : flagIopl old < cpl) (img : Word) :
    flagIf (filterFlags true cpl old img) = flagIf old := by
  rw [flagIf, iretFilterBits true cpl old img 9 (by decide)]
  simp [h, flagIf]

/-! ### The clean-up of DS and ES -/

/-- A register that is made null is the one with the null selector and the access byte 00H. -/
theorem cleanDataSeg_null {k : Level} {g : SegReg} (hn : selNull g.sel = false) (hs : arIsSegment g.ar = true)
    (hc : arConforming g.ar = false) (hd : arDpl g.ar < k) : cleanDataSeg k g = g.asNull 0x0000#16 := by
  have hkind : (arIsData g.ar || (arIsCode g.ar && !arConforming g.ar)) = true := by
    simp [arIsData, arIsCode, hs, hc]
  simp [cleanDataSeg, hn, hkind, hd]

theorem cleanDataSeg_keep {k : Level} {g : SegReg}
    (h : selNull g.sel = true ∨ arConforming g.ar = true ∨ k ≤ arDpl g.ar) : cleanDataSeg k g = g := by
  rcases h with hn | hc | hd
  · simp [cleanDataSeg, hn]
  · have hcode : arIsData g.ar = false := by
      simp only [arConforming, arIsCode, Bool.and_eq_true] at hc
      obtain ⟨⟨_, hbit⟩, _⟩ := hc
      simp [arIsData, hbit]
    simp [cleanDataSeg, hc, hcode]
  · simp [cleanDataSeg, BitVec.not_lt.mpr hd]

theorem segReadOk_asNull (g : SegReg) (off : Word) (n : Nat) : segReadOk (g.asNull 0x0000#16) off n = false := by
  simp [segReadOk, SegReg.asNull, selNull]

theorem segWriteOk_asNull (g : SegReg) (off : Word) (n : Nat) : segWriteOk (g.asNull 0x0000#16) off n = false := by
  simp [segWriteOk, SegReg.asNull, selNull]

/-- Settles O36, by the two cases of the clean-up. -/
theorem cleanUpClearsInnerSegments : Obligations.CleanUpClearsInnerSegments := by
  intro k g off n
  refine ⟨fun hn hs hc hd => ?_, cleanDataSeg_keep⟩
  rw [cleanDataSeg_null hn hs hc hd]
  exact ⟨rfl, segReadOk_asNull g off n, segWriteOk_asNull g off n⟩

/-! ### IRET and its returns -/

/-- IRET completes where its return does (R75). -/
theorem exec_iret_of_return {s t : State} (h : s.returnFromInterrupt = .ok t) : exec .iret s = .next t := by
  simp [exec, execIret, h, settle]

/-- An IRET within the task completes as the return by the frame on the stack does (R75, R81). -/
theorem exec_iret_of_stackReturn {s u : State} (hnt : flagNt s.flags = false) (h : s.stackReturn = .ok u) :
    exec .iret s = .next u.endNmiService :=
  exec_iret_of_return (returnFromInterrupt_ok.mpr ⟨u, by simpa [hnt] using h, rfl⟩)

/-- An IRET with NT = 1 completes as the return to the task of the back link does (R80, R81). -/
theorem exec_iret_of_taskReturn {s u : State} (hnt : flagNt s.flags = true) (h : s.taskReturn = .ok u) :
    exec .iret s = .next u.endNmiService :=
  exec_iret_of_return (returnFromInterrupt_ok.mpr ⟨u, by simpa [hnt] using h, rfl⟩)

/-- On a machine that stops at failed checks, an IRET completes only by a return that completes (R114). -/
theorem returnFromInterrupt_of_exec {s t : State} (hd : s.params.deliverFaults = false) (h : exec .iret s = .next t) :
    s.returnFromInterrupt = .ok t := by
  rcases settle_next (ext := false) h with hok | ⟨f, hf, hp, _⟩
  · exact hok
  · rw [(returnFromInterrupt_left hf).params, hd] at hp
    cases hp

theorem stackReturn_of_exec {s t : State} (hd : s.params.deliverFaults = false) (hnt : flagNt s.flags = false)
    (h : exec .iret s = .next t) : ∃ u, s.stackReturn = .ok u ∧ t = u.endNmiService := by
  obtain ⟨u, hu, ht⟩ := returnFromInterrupt_ok.mp (returnFromInterrupt_of_exec hd h)
  exact ⟨u, by simpa [hnt] using hu, ht⟩

theorem State.stackWord_zero (s : State) : s.stackWord 0#16 = s.read16 (s.ss.phys s.regs.sp) := by
  simp [State.stackWord]

/-! ### The end of NMI service -/

/-- A launched state that does not single-step delivers an NMI that is due, before anything else (R93, R96). -/
theorem step_of_nmiDue {s : State} (hl : s.launched = true) (htf : flagTf s.flags = false) (hn : s.nmiDue = true) :
    step s = s.arrive.beginNmiService.deliverExternal 2#8 := by
  unfold step State.boundary
  rw [accept_ok.mpr (.inl ⟨hl, htf, rfl⟩)]
  rcases recognise_cases s with ⟨_, hr⟩ | ⟨h, _⟩ | ⟨h, _⟩
  · simp only [hr]
  · simp [hn] at h
  · simp [hn] at h

/-- Settles O22: a remembered NMI is due as soon as no NMI is in service. -/
theorem completedIretReopensTheNmiInput : Obligations.CompletedIretReopensTheNmiInput := by
  intro s t hd h
  obtain ⟨u, hmove, rfl⟩ := returnFromInterrupt_move (returnFromInterrupt_of_exec hd h)
  refine ⟨rfl, fun hpending hlaunched htf => ?_⟩
  have hdue : u.endNmiService.nmiDue = true := by simp [State.nmiDue, hmove.nmiPending, hpending]
  exact step_of_nmiDue (hmove.launched.trans hlaunched) htf hdue

/-! ### Returns that complete -/

/-- A return by the frame is a move, as far as the end of NMI service (R81). -/
theorem move_of_stackReturn {s u : State} (h : s.stackReturn = .ok u) : CpuMove s u := by
  simpa [h, Attempt.all] using move_stackReturn s

/-- Settles O34, by the segment load and the register updates of the return to the same level. -/
theorem iretReturnsToTheSameLevel : Obligations.IretReturnsToTheSameLevel := by
  intro s retIp retCs img d hnt hframe hip hcs himg hrpl hcode
  obtain rfl : retIp = s.stackWord 0#16 := hip.trans s.stackWord_zero.symm
  obtain rfl : retCs = s.stackWord 2#16 := hcs
  obtain rfl : img = s.stackWord 4#16 := himg
  have hreturn := stackReturn_ok.mpr ⟨hframe, .inl ⟨hrpl, returnSameLevel_ok.mpr ⟨d, hcode, rfl⟩⟩⟩
  exact ⟨_, exec_iret_of_stackReturn hnt hreturn, rfl, by simp, by simp, rfl, by simp [GenRegs.write], by simp, by simp,
    by simp, rfl, by simp [keepsTask], (move_of_stackReturn hreturn).keepsSystem, fun a ha => read8_loadSeg_same ha,
    fun a ha => read8_loadSeg_other ha⟩

/-- What a return to an outer level, to the code segment `d` with the stack segment `e`, has made of `s`: IP, CS, flag
word, SP and SS are those of the five words on the stack, DS and ES are cleaned up, and memory changes at most in the
accessed bits of the two segments loaded (R78, R55). -/
structure OuterReturned (s t : State) (d e : Desc) : Prop where
  ip : t.ip = s.stackWord 0#16
  cs : t.cs = d.toSegReg (s.stackWord 2#16)
  cpl : t.cpl = selRpl (s.stackWord 2#16)
  flags : t.flags = s.returnFlags (s.stackWord 4#16)
  ss : t.ss = e.toSegReg (s.stackWord 8#16)
  regs : t.regs = s.regs.write .sp (s.stackWord 6#16)
  ds : t.ds = cleanDataSeg (selRpl (s.stackWord 2#16)) s.ds
  es : t.es = cleanDataSeg (selRpl (s.stackWord 2#16)) s.es
  task : keepsTask s t
  other : ∀ a, ¬ marksAt d a → ¬ marksAt e a → t.read8 a = s.read8 a

/-- Of the writes of such a return, the loads of CS and SS alone touch memory. -/
theorem leaveLevel_cleanData_returned (s : State) (d e : Desc) :
    OuterReturned s ((s.leaveLevel (s.stackWord 0#16) (s.stackWord 2#16) (s.stackWord 4#16) (s.stackWord 6#16)
      (s.stackWord 8#16) d e).cleanData (selRpl (s.stackWord 2#16))) d e where
  ip := by simp [State.cleanData, State.leaveLevel]
  cs := by simp [State.cleanData, State.leaveLevel]
  cpl := rfl
  flags := by simp [State.cleanData, State.leaveLevel]
  ss := by simp [State.cleanData, State.leaveLevel]
  regs := by simp [State.cleanData, State.leaveLevel, GenRegs.write]
  ds := by simp [State.cleanData, State.leaveLevel]
  es := by simp [State.cleanData, State.leaveLevel]
  task := by simp [State.cleanData, State.leaveLevel, keepsTask]
  other a hd he := by
    simp only [State.cleanData, State.leaveLevel, State.read8_setSeg, State.read8_setCpl, State.read8_setSp,
      read8_loadSeg_other he, State.read8_setFlags, State.read8_setIp, read8_loadSeg_other hd]

/-- Settles O35, by the writes of the return to an outer level and the clean-up after them. -/
theorem iretReturnsToAnOuterLevel : Obligations.IretReturnsToAnOuterLevel := by
  intro s retIp retCs img retSp retSs d e hnt hframe hreadSp hreadSs hip hcs himg hsp hss hrpl hcode hstack
  obtain rfl : retIp = s.stackWord 0#16 := hip.trans s.stackWord_zero.symm
  obtain rfl : retCs = s.stackWord 2#16 := hcs
  obtain rfl : img = s.stackWord 4#16 := himg
  obtain rfl : retSp = s.stackWord 6#16 := hsp
  obtain rfl : retSs = s.stackWord 8#16 := hss
  have hreturn := stackReturn_ok.mpr
    ⟨hframe, .inr ⟨hrpl, returnOuterLevel_ok.mpr ⟨hreadSp, hreadSs, d, e, hcode, hstack, rfl⟩⟩⟩
  have h := leaveLevel_cleanData_returned s d e
  exact ⟨_, exec_iret_of_stackReturn hnt hreturn, h.ip, h.cs, h.cpl, h.flags, h.ss, h.regs, h.ds, h.es, rfl, h.task,
    (move_of_stackReturn hreturn).keepsSystem, h.other⟩

/-- Settles O37, by the task switch that the back link leads to. -/
theorem iretWithNestedTaskReturnsToTheLink : Obligations.IretWithNestedTaskReturnsToTheLink := by
  rintro s t d u img hnt hlink hu rfl hload
  obtain ⟨hti, hread, hbusy, hpresent, hlimit⟩ := taskAt_iff.mp hlink
  obtain ⟨hloaded, hmarks, htr, hmsw, hsystem, -⟩ := loadTaskSegments_switched hu hload
  have hreturn : s.taskReturn = .ok t :=
    taskReturn_ok.mpr ⟨hti, d, hread, hbusy, hpresent, taskSwitch_ok.mpr ⟨hlimit, hu ▸ hload⟩⟩
  exact ⟨_, exec_iret_of_taskReturn hnt hreturn, rfl, hloaded, hmarks, htr, hmsw, hsystem⟩

/-! ### What an IRET within the task cannot do -/

/-- What every completed return by the frame has in common: the level does not fall, the code segment suits the level,
and the flag word has passed the filter (R76, R77, R78, R79). -/
structure ReturnedWithin (s t : State) : Prop where
  level : s.cpl ≤ t.cpl
  code : arCodeFits t.cs.ar t.cpl = true
  flags : t.flags = filterFlags s.params.iretIoplFilter s.cpl s.flagWord (s.stackWord 4#16)

theorem arCodeFits_of_returnCodeAt {s : State} {cs ip : Word} {k : Level} {d : Desc}
    (h : s.returnCodeAt cs ip k d = true) : arCodeFits d.ar k = true := by
  obtain ⟨hcheck, _⟩ := returnCodeAt_iff.mp h
  obtain ⟨_, _, hfits, _⟩ := checkReturnCs_ok.mp hcheck
  exact hfits

theorem stackReturn_returned {s t : State} (h : s.stackReturn = .ok t) : ReturnedWithin s t := by
  obtain ⟨_, ⟨_, hsame⟩ | ⟨hrpl, houter⟩⟩ := stackReturn_ok.mp h
  · obtain ⟨d, hcode, rfl⟩ := returnSameLevel_ok.mp hsame
    exact ⟨by simp, by simpa [Desc.toSegReg] using arCodeFits_of_returnCodeAt hcode, rfl⟩
  · obtain ⟨_, _, d, e, hcode, _, rfl⟩ := returnOuterLevel_ok.mp houter
    have hr := leaveLevel_cleanData_returned s d e
    refine ⟨hr.cpl ▸ BitVec.le_of_lt hrpl, ?_, hr.flags⟩
    rw [hr.cs, hr.cpl]
    simpa [Desc.toSegReg] using arCodeFits_of_returnCodeAt hcode

/-- On a machine that stops at failed checks, a completed IRET within the task is a completed return by the frame. -/
theorem returned_of_exec {s t : State} (hd : s.params.deliverFaults = false) (hnt : flagNt s.flags = false)
    (h : exec .iret s = .next t) : ReturnedWithin s t := by
  obtain ⟨u, hu, rfl⟩ := stackReturn_of_exec hd hnt h
  obtain ⟨hlevel, hcode, hflags⟩ := stackReturn_returned hu
  exact ⟨hlevel, hcode, hflags⟩

/-- A non-conforming code segment suits the level of its DPL alone. -/
theorem arDpl_of_arCodeFits {ar : Byte} {k : Level} (hc : arConforming ar = false) (h : arCodeFits ar k = true) :
    arDpl ar = k := by
  simpa [arCodeFits, hc] using h

/-- Settles O38, by the order of the levels and the fit of the segment returned to. -/
theorem iretNeverReturnsInward : Obligations.IretNeverReturnsInward := by
  intro s t hd hnt h
  have hr := returned_of_exec hd hnt h
  refine ⟨hr.level, fun hc => ?_⟩
  rw [arDpl_of_arCodeFits hc hr.code]
  exact hr.level

/-- Settles O39, by the bits that the filter keeps. -/
theorem iretCannotRaisePrivilegedFlags : Obligations.IretCannotRaisePrivilegedFlags := by
  intro s t hd hfilter hnt h
  have hflags := (returned_of_exec hd hnt h).flags
  rw [hfilter] at hflags
  refine ⟨fun hcpl => ?_, fun hiopl => ?_⟩
  · rw [hflags, flagIopl_filterFlags hcpl, State.flagWord, flagIopl_fixFlags]
  · have hold : flagIopl s.flagWord < s.cpl := by rwa [State.flagWord, flagIopl_fixFlags]
    rw [hflags, flagIf_filterFlags hold, State.flagWord, flagIf_fixFlags]

/-! ### Returns that are refused -/

/-- The test on IP, the last of both returns by the frame (R77, R78). -/
theorem ipTest_answered {α : Type} (s : State) (ip limit : Word) (v : α) :
    (if limit < ip then .error (failing s .ipBeyondLimit) else .ok v) =
      answered s v (firstFailed [(decide (ip ≤ limit), .ipBeyondLimit)]) := by
  by_cases h : ip ≤ limit
  · simp [h, BitVec.not_lt.mpr h, answered]
  · simp [h, BitVec.not_le.mp h, answered]

/-- A return to the same level answers its first failing test (R77). -/
theorem returnSameLevel_tests (s : State) (ip cs img : Word) :
    s.returnSameLevel ip cs img =
      answered s ((((s.loadSeg .cs cs (s.descOf cs)).setIp ip).setFlags (s.returnFlags img)).setSp (s.regs.sp + 6#16))
        (firstFailed (s.returnCodeTests cs s.cpl ++ [(decide (ip ≤ (s.descOf cs).limit), .ipBeyondLimit)])) := by
  rw [State.returnSameLevel, checkReturnCs_tests, firstFailed_append]
  cases firstFailed (s.returnCodeTests cs s.cpl) with
  | some f => rfl
  | none => exact ipTest_answered s ip _ _

/-- The tests of a return to an outer level, in the order of R78. -/
def State.outerReturnTests (s : State) (ip cs ss : Word) : List (Bool × Fault) :=
  [(segReadOk s.ss (s.regs.sp + 6#16) 2, .stackLimit), (segReadOk s.ss (s.regs.sp + 8#16) 2, .stackLimit)] ++
    s.returnCodeTests cs (selRpl cs) ++ s.returnStackTests ss (selRpl cs) ++
    [(decide (ip ≤ (s.descOf cs).limit), .ipBeyondLimit)]

/-- A return to an outer level answers its first failing test (R78). -/
theorem returnOuterLevel_tests (s : State) (ip cs img : Word) :
    s.returnOuterLevel ip cs img =
      answered s ((s.leaveLevel ip cs img (s.stackWord 6#16) (s.stackWord 8#16) (s.descOf cs)
          (s.descOf (s.stackWord 8#16))).cleanData (selRpl cs))
        (firstFailed (s.outerReturnTests ip cs (s.stackWord 8#16))) := by
  simp only [State.returnOuterLevel, State.outerReturnTests, checkReturnCs_tests, checkReturnSs_tests,
    firstFailed_append]
  cases segReadOk s.ss (s.regs.sp + 6#16) 2 with
  | false => rfl
  | true =>
    cases segReadOk s.ss (s.regs.sp + 8#16) 2 with
    | false => rfl
    | true =>
      cases firstFailed (s.returnCodeTests cs (selRpl cs)) with
      | some f => rfl
      | none =>
        cases firstFailed (s.returnStackTests (s.stackWord 8#16) (selRpl cs)) with
        | some f => rfl
        | none => exact ipTest_answered s ip _ _

section

variable {s : State}

/-- The first test of a return by the frame: its three words may be read (R75). -/
theorem stackReturn_unreadable (h : s.frameReadable = false) : s.stackReturn = .error (failing s .stackLimit) := by
  unfold State.frameReadable at h
  simp [State.stackReturn, h]

/-- Once the frame is readable, the RPL of the return CS chooses the return (R75, R76). -/
theorem stackReturn_readable (h : s.frameReadable = true) :
    s.stackReturn =
      if selRpl (s.stackWord 2#16) < s.cpl then .error (failing s (.returnToInnerLevel (s.stackWord 2#16)))
      else if selRpl (s.stackWord 2#16) = s.cpl then
        s.returnSameLevel (s.stackWord 0#16) (s.stackWord 2#16) (s.stackWord 4#16)
      else s.returnOuterLevel (s.stackWord 0#16) (s.stackWord 2#16) (s.stackWord 4#16) := by
  unfold State.frameReadable at h
  simp [State.stackReturn, h]

theorem stackReturn_inner (h : s.frameReadable = true) (hr : selRpl (s.stackWord 2#16) < s.cpl) :
    s.stackReturn = .error (failing s (.returnToInnerLevel (s.stackWord 2#16))) := by
  rw [stackReturn_readable h, if_pos hr]

theorem stackReturn_same (h : s.frameReadable = true) (hr : selRpl (s.stackWord 2#16) = s.cpl) :
    s.stackReturn = s.returnSameLevel (s.stackWord 0#16) (s.stackWord 2#16) (s.stackWord 4#16) := by
  rw [stackReturn_readable h, if_neg (by simp [hr]), if_pos hr]

theorem stackReturn_outer (h : s.frameReadable = true) (hr : s.cpl < selRpl (s.stackWord 2#16)) :
    s.stackReturn = s.returnOuterLevel (s.stackWord 0#16) (s.stackWord 2#16) (s.stackWord 4#16) := by
  rw [stackReturn_readable h, if_neg (BitVec.not_lt.mpr (BitVec.le_of_lt hr)), if_neg (BitVec.ne_of_lt hr).symm]

/-- On a machine that stops at failed checks, a return that fails is the fault of the IRET (R114). -/
theorem exec_iret_fault {f : Failure} (hd : s.params.deliverFaults = false) (h : s.returnFromInterrupt = .error f) :
    exec .iret s = .fault f.reason := by
  have hleft : f.left.params.deliverFaults = false := (returnFromInterrupt_left h).params ▸ hd
  simp [exec, execIret, h, settle, hleft]

theorem exec_iret_stackFault {f : Failure} (hd : s.params.deliverFaults = false) (hnt : flagNt s.flags = false)
    (h : s.stackReturn = .error f) : exec .iret s = .fault f.reason :=
  exec_iret_fault hd (by simp [State.returnFromInterrupt, hnt, h])

theorem exec_iret_taskFault {f : Failure} (hd : s.params.deliverFaults = false) (hnt : flagNt s.flags = true)
    (h : s.taskReturn = .error f) : exec .iret s = .fault f.reason :=
  exec_iret_fault hd (by simp [State.returnFromInterrupt, hnt, h])

/-- A null selector has TI = 0. -/
theorem selTi_of_selNull {sel : Word} (h : selNull sel = true) : selTi sel = false := by
  cases hti : selTi sel with
  | false => rfl
  | true => simp [selNull_of_selTi hti] at h

/-- The first failing test on the back link, and on the task it names, is the fault of the IRET (R80, R110). -/
theorem exec_iret_linkFault {f : Fault} (hd : s.params.deliverFaults = false) (hnt : flagNt s.flags = true)
    (h : firstFailed (s.taskTests (s.read16 s.tr.base) .iret) = some f) : exec .iret s = .fault f :=
  exec_iret_taskFault hd hnt (by rw [taskReturn_tests, h])

/-- A check that fails in the linked task is the failure of the return (R110, steps 8 to 10). -/
theorem taskReturn_incoming {u : State} {d : Desc} {g : Failure}
    (hlink : s.taskAt (s.read16 s.tr.base) true d = true)
    (hu : u = s.leaveTask (s.read16 s.tr.base) d .iret (s.ip + 1#16))
    (hload : (u.loadTask .iret (u.readTss d.base)).loadTaskSegments (u.readTss d.base) = .error g) :
    s.taskReturn = .error g := by
  subst hu
  obtain ⟨hdesc, hpass⟩ := taskAt_tests hlink
  obtain ⟨-, -, -, -, hlimit⟩ := taskAt_iff.mp hlink
  rw [taskReturn_tests, show firstFailed (s.taskTests (s.read16 s.tr.base) .iret) = none from hpass]
  simp only [hdesc, State.taskSwitch, BitVec.not_lt.mpr hlimit, if_false, hload]

end

/-- Settles O49: each return answers its first failing test, and a machine that stops at failed checks makes that the
fault of the IRET. -/
theorem iretRefusesBadReturns : Obligations.IretRefusesBadReturns := by
  intro s hd
  refine ⟨fun hnt hframe => exec_iret_stackFault hd hnt (stackReturn_unreadable hframe),
    fun hnt hframe hrpl => exec_iret_stackFault hd hnt (stackReturn_inner hframe hrpl), fun d hnt hti hread hbusy => ?_,
    ?_, ?_, ?_⟩
  · obtain ⟨hnamed, hdesc⟩ := State.named_of_readDesc hread
    exact exec_iret_linkFault hd hnt (by simp [State.taskTests, hti, hnamed, hdesc, hbusy])
  · intro retIp retCs f hnt hframe hip hcs hrpl hf
    obtain rfl : retIp = s.stackWord 0#16 := hip.trans s.stackWord_zero.symm
    obtain rfl : retCs = s.stackWord 2#16 := hcs
    refine exec_iret_stackFault (f := failing s f) hd hnt ?_
    rw [stackReturn_same hframe hrpl, returnSameLevel_tests, hf, answered]
  · intro retIp retCs retSs f hnt hframe hip hcs hss hrpl hf
    obtain rfl : retIp = s.stackWord 0#16 := hip.trans s.stackWord_zero.symm
    obtain rfl : retCs = s.stackWord 2#16 := hcs
    obtain rfl : retSs = s.stackWord 8#16 := hss
    refine exec_iret_stackFault (f := failing s f) hd hnt ?_
    rw [stackReturn_outer hframe hrpl, returnOuterLevel_tests, State.outerReturnTests, hf, answered]
  · rintro link hnt rfl
    refine ⟨fun hnull => exec_iret_linkFault hd hnt ?_, fun f hf => exec_iret_linkFault hd hnt hf, ?_⟩
    · simp [State.taskTests, selTi_of_selNull hnull, State.named_of_null hnull]
    · rintro d u img g hlink hu rfl hload
      exact exec_iret_taskFault hd hnt (taskReturn_incoming hlink hu hload)

end Sys2Proof.Machine
end

section
/-! The proofs about LIDT: its test on the level, its test on the operand, and the bytes it loads. -/

namespace Sys2Proof.Machine

/-! ### Failed checks and addresses -/

/-- On a machine that stops at failed checks, a check that fails before any change is the fault it names (R114). -/
theorem settle_failing_fault {s : State} (hd : s.params.deliverFaults = false) (ext : Bool) (f : Fault) :
    settle ext (.error (failing s f)) = .fault f := by
  simp [settle, failing, hd]

theorem accessFault_eq (n : SegName) : accessFault n = if n = .ss then .stackLimit else .segmentLimit := by
  cases n <;> rfl

/-- Offsets that stay below 10000H name consecutive physical addresses (R35). -/
theorem phys_add (g : SegReg) {off j : Word} (h : off.toNat + j.toNat < 0x10000) :
    g.phys (off + j) = g.phys off + j.setWidth 24 := by
  have hsum : (off + j).setWidth 24 = off.setWidth 24 + j.setWidth 24 := by bv_omega
  rw [SegReg.phys, SegReg.phys, hsum, BitVec.add_assoc]

@[simp] theorem lowByte_read16 (s : State) (a : Addr) : lowByte (s.read16 a) = s.read8 a := lowByte_wordOf _ _

/-! ### The cases of LIDT -/

/-- The test of R82 on the six bytes of the operand: below 10000H, and each word readable in its segment. -/
def State.lidtOperandOk (s : State) (m : MemOperand) : Bool :=
  let g := s.seg (operandSegment m)
  let ea := effectiveOffset s.regs m
  decide (ea ≤ 0xFFFA#16) && (segReadOk g ea 2 && segReadOk g (ea + 2#16) 2 && segReadOk g (ea + 4#16) 2)

/-- The table register that the operand of LIDT holds: a word of limit, a word of base, and the low byte of the next word
above it (R82). -/
def State.lidtTable (s : State) (m : MemOperand) : TableReg :=
  let g := s.seg (operandSegment m)
  let ea := effectiveOffset s.regs m
  { base := addrOf (lowByte (s.read16 (g.phys (ea + 4#16)))) (s.read16 (g.phys (ea + 2#16)))
    limit := s.read16 (g.phys ea) }

section

variable {s : State} {m : MemOperand}

theorem lidtOperandOk_iff :
    s.lidtOperandOk m = true ↔ effectiveOffset s.regs m ≤ 0xFFFA#16 ∧
      ∀ j ∈ [0#16, 2#16, 4#16], segReadOk (s.seg (operandSegment m)) (effectiveOffset s.regs m + j) 2 = true := by
  simp [State.lidtOperandOk, and_assoc]

theorem lidtOperandOk_eq_false_iff :
    s.lidtOperandOk m = false ↔ 0xFFFA#16 < effectiveOffset s.regs m ∨
      ∃ j ∈ [0#16, 2#16, 4#16], segReadOk (s.seg (operandSegment m)) (effectiveOffset s.regs m + j) 2 = false := by
  rw [← Bool.not_eq_true, lidtOperandOk_iff, not_and_or, BitVec.not_le]
  push Not
  simp only [ne_eq, Bool.not_eq_true]

/-- LIDT tests the level, then the operand, and only then loads (R82). -/
theorem exec_lidt (s : State) (m : MemOperand) :
    exec (.lidt m) s =
      if s.cpl ≠ 0#2 then settle false (.error (failing s .privilegedInstruction))
      else if s.lidtOperandOk m then
        .next { s with idtr := s.lidtTable m, ip := s.ip + BitVec.ofNat 16 (3 + m.dispSize) }
      else settle false (.error (failing s (accessFault (operandSegment m)))) := by
  simp only [exec, execLidt, ← BitVec.not_le, decide_not, ← Bool.not_and, Bool.not_eq_true', ← Bool.not_eq_true, ite_not]
  rfl

/-- Below level 0 the operand is not looked at (R82). -/
theorem exec_lidt_unprivileged (hd : s.params.deliverFaults = false) (hcpl : s.cpl ≠ 0#2) :
    exec (.lidt m) s = .fault .privilegedInstruction := by
  rw [exec_lidt, if_pos hcpl, settle_failing_fault hd]

theorem exec_lidt_unreadable (hd : s.params.deliverFaults = false) (hcpl : s.cpl = 0#2)
    (hop : s.lidtOperandOk m = false) : exec (.lidt m) s = .fault (accessFault (operandSegment m)) := by
  rw [exec_lidt, if_neg (not_not.mpr hcpl), if_neg (ne_true_of_eq_false hop), settle_failing_fault hd]

theorem exec_lidt_loads (hcpl : s.cpl = 0#2) (hop : s.lidtOperandOk m = true) :
    exec (.lidt m) s = .next { s with idtr := s.lidtTable m, ip := s.ip + BitVec.ofNat 16 (3 + m.dispSize) } := by
  rw [exec_lidt, if_neg (not_not.mpr hcpl), if_pos hop]

/-- The six bytes of an operand below 10000H are consecutive in memory, so the words of LIDT are made of them, the
lowest byte first (R38, R82). -/
theorem lidtTable_bytes {a : Addr} (hea : effectiveOffset s.regs m ≤ 0xFFFA#16)
    (ha : a = (s.seg (operandSegment m)).phys (effectiveOffset s.regs m)) :
    s.lidtTable m =
      { base := s.read8 (a + 4#24) ++ (s.read8 (a + 3#24) ++ s.read8 (a + 2#24))
        limit := s.read8 (a + 1#24) ++ s.read8 a } := by
  have h2 : (s.seg (operandSegment m)).phys (effectiveOffset s.regs m + 2#16) = a + 2#24 :=
    ha ▸ phys_add _ (by bv_omega)
  have h4 : (s.seg (operandSegment m)).phys (effectiveOffset s.regs m + 4#16) = a + 4#24 :=
    ha ▸ phys_add _ (by bv_omega)
  have h3 : a + 2#24 + 1#24 = a + 3#24 := BitVec.add_assoc _ _ _
  rw [State.lidtTable, h2, h4, ← ha, lowByte_read16, State.read16, State.read16, h3]
  rfl

end

/-- Settles O26: the operand passes its test, and its words are made of the six bytes. -/
theorem lidtLoadsTheTableRegister : Obligations.LidtLoadsTheTableRegister := by
  intro s m hcpl hea h0 h2 h4
  have hop : s.lidtOperandOk m = true := lidtOperandOk_iff.mpr ⟨hea, by simp [h0, h2, h4]⟩
  exact ⟨_, rfl, by rw [exec_lidt_loads hcpl hop, lidtTable_bytes hea rfl]; rfl⟩

/-- Settles O27: the level is tested first, and each way in which the operand may lie outside fails its test. -/
theorem lidtFaultsOutsideItsConditions : Obligations.LidtFaultsOutsideItsConditions := by
  intro s m hd
  refine ⟨exec_lidt_unprivileged hd, fun hcpl hout => ?_⟩
  rw [exec_lidt_unreadable hd hcpl (lidtOperandOk_eq_false_iff.mpr hout), accessFault_eq]

end Sys2Proof.Machine
end

section
/-! The proofs about MOV and OUT: what a register or one byte of it reads after a write, and what the level and the port in
DX make of OUT. -/

namespace Sys2Proof.Machine

/-! ### General registers after a write -/

/-- A write replaces one register and no other (R13). -/
theorem GenRegs.read_write (g : GenRegs) (r : Reg16) (v : Word) :
    (g.write r v).read = Function.update g.read r v := by
  funext q
  cases r <;> cases q <;> rfl

@[simp] theorem GenRegs.read_write_same (g : GenRegs) (r : Reg16) (v : Word) : (g.write r v).read r = v := by
  simp [GenRegs.read_write]

theorem GenRegs.read_write_other (g : GenRegs) {r q : Reg16} (v : Word) (h : q ≠ r) : (g.write r v).read q = g.read q := by
  simp [GenRegs.read_write, h]

/-- The number of a byte register is that of its word register, plus 4 for a high byte (R13, R14). -/
theorem reg8Of_home_half (r : Reg8) :
    reg8Of ((if reg8IsHigh r then 4#3 else 0#3) + reg16Number (reg8Home r)) = r := by
  cases r <;> rfl

theorem reg8_ext {q r : Reg8} (hhome : reg8Home q = reg8Home r) (hhalf : reg8IsHigh q = reg8IsHigh r) : q = r := by
  rw [← reg8Of_home_half q, hhome, hhalf, reg8Of_home_half]

theorem GenRegs.read8_write8_same (g : GenRegs) (r : Reg8) (v : Byte) : (g.write8 r v).read8 r = v := by
  cases hhalf : reg8IsHigh r <;> simp [GenRegs.read8, GenRegs.write8, hhalf]

theorem GenRegs.read_write8_other (g : GenRegs) {r : Reg8} {q : Reg16} (v : Byte) (h : q ≠ reg8Home r) :
    (g.write8 r v).read q = g.read q :=
  g.read_write_other _ h

/-- The other byte of the home register stays, and so does every byte of another register (R14). -/
theorem GenRegs.read8_write8_other (g : GenRegs) {r q : Reg8} (v : Byte) (h : q ≠ r) :
    (g.write8 r v).read8 q = g.read8 q := by
  by_cases hhome : reg8Home q = reg8Home r
  · have hhalf : reg8IsHigh q = !reg8IsHigh r := Bool.eq_not.mpr fun hh => h (reg8_ext hhome hh)
    cases hr : reg8IsHigh r <;> simp [GenRegs.read8, GenRegs.write8, hhome, hhalf, hr]
  · rw [GenRegs.read8, GenRegs.read8, g.read_write8_other v hhome]

/-! ### The two forms of MOV -/

/-- Settles O23: the bytes of the registers after one byte is written. -/
theorem movByteLoadsItsRegister : Obligations.MovByteLoadsItsRegister := fun s r v =>
  ⟨s.regs.write8 r v, rfl, s.regs.read8_write8_same r v, fun _ => s.regs.read8_write8_other v,
    fun _ => s.regs.read_write8_other v⟩

/-- Settles O24: the registers after one is written. -/
theorem movWordLoadsItsRegister : Obligations.MovWordLoadsItsRegister := fun s r v =>
  ⟨s.regs.write r v, rfl, s.regs.read_write_same r v, fun _ => s.regs.read_write_other v⟩

/-! ### OUT -/

section

variable {s : State}

theorem ioWrite_icw2 {port : Word} (h : port = s.params.picIcw2Port) (v : Byte) :
    s.ioWrite port v = { s with pic := { s.pic with icw2 := v } } :=
  if_pos h

theorem ioWrite_other {port : Word} (h : port ≠ s.params.picIcw2Port) (v : Byte) : s.ioWrite port v = s :=
  if_neg h

/-- At a level that IOPL permits, OUT gives AL to the port in DX and advances IP (R86). -/
theorem exec_outDxAl_permitted (h : s.cpl ≤ flagIopl s.flags) :
    exec .outDxAl s = .next { s.ioWrite s.regs.dx (s.regs.read8 .al) with ip := s.ip + 1#16 } :=
  if_neg (BitVec.not_lt.mpr h)

/-- At a level above IOPL, OUT is the failed check of R86. -/
theorem exec_outDxAl_unprivileged (h : flagIopl s.flags < s.cpl) :
    exec .outDxAl s = settle false (.error (failing s .ioPrivilege)) :=
  if_pos h

end

/-- Settles O25: the test on the level, then the port that is written. -/
theorem outWritesThePort : Obligations.OutWritesThePort := by
  intro s
  refine ⟨fun hcpl hport => ?_, fun hcpl hport => ?_, fun hcpl hd => ?_⟩
  · rw [exec_outDxAl_permitted hcpl, ioWrite_icw2 hport]
    rfl
  · rw [exec_outDxAl_permitted hcpl, ioWrite_other hport]
  · rw [exec_outDxAl_unprivileged hcpl, settle_failing_fault hd]

end Sys2Proof.Machine
end

section
/-! The proofs about the 8259, the 8205 and the flag word at the entry of a handler, and about what a boundary
delivers. -/

namespace Sys2Proof.Machine

/-! ### Single bits -/

section

variable {w : Nat} (v : BitVec w) (n j : Nat)

theorem getLsbD_clearBit : (v &&& ~~~(BitVec.twoPow w n)).getLsbD j = (v.getLsbD j && decide (j ≠ n)) := by
  by_cases hj : j < w
  · simp [hj]
  · simp [BitVec.getLsbD_of_ge _ _ (Nat.not_lt.mp hj)]

theorem getLsbD_setBit (h : n < w) : (v ||| BitVec.twoPow w n).getLsbD j = (v.getLsbD j || decide (j = n)) := by
  by_cases hj : j = n
  · simp [hj, h]
  · simp [BitVec.getLsbD_twoPow, hj, Ne.symm hj]

end

/-! ### The flag word of a handler -/

theorem getLsbD_clearTf (v : Word) (j : Nat) : (clearTf v).getLsbD j = (v.getLsbD j && decide (j ≠ 8)) :=
  getLsbD_clearBit v 8 j

theorem getLsbD_clearIf (v : Word) (j : Nat) : (clearIf v).getLsbD j = (v.getLsbD j && decide (j ≠ 9)) :=
  getLsbD_clearBit v 9 j

theorem getLsbD_clearNt (v : Word) (j : Nat) : (clearNt v).getLsbD j = (v.getLsbD j && decide (j ≠ 14)) :=
  getLsbD_clearBit v 14 j

/-- Settles O55, by the bit that each step of the entry clears. -/
theorem gateEntryClearsTheseFlags : Obligations.GateEntryClearsTheseFlags := by
  intro clear v j
  rw [handlerFlags, getLsbD_clearNt, getLsbD_clearTf]
  cases clear with
  | false => simp
  | true => simp [getLsbD_clearIf, Bool.and_comm, Bool.and_left_comm]

/-! ### The 8259 and the 8205 -/

theorem irBit_eq (n : Fin 8) : irBit n = BitVec.twoPow 8 n.val := rfl

/-- Settles O57, by the bits of the three registers that the pulse changes. -/
theorem firstIntaFreezesTheRequest : Obligations.FirstIntaFreezesTheRequest := by
  intro p n m lines
  have hmn : (m ≠ n) ↔ m.val ≠ n.val := Fin.val_ne_iff.symm
  have hedge : (p.firstInta n).edge.getLsbD m.val = (p.edge.getLsbD m.val && decide (m ≠ n)) := by
    rw [Pic.firstInta, irBit_eq, getLsbD_clearBit, decide_eq_decide.mpr hmn]
  have hset : ∀ v : BitVec 8, (v ||| irBit n).getLsbD m.val = (v.getLsbD m.val || decide (m = n)) := fun v => by
    rw [irBit_eq, getLsbD_setBit v _ _ n.isLt, decide_eq_decide.mpr Fin.ext_iff.symm]
  exact ⟨BitVec.getLsbD_or, rfl, rfl, rfl, hedge, hset p.irr, hset p.isr, rfl⟩

/-- The bits of the vector byte: the input's number below, ICW2 above (R120). -/
theorem getLsbD_vector (p : Pic) (n : Fin 8) {j : Nat} (hj : j < 8) :
    (p.vector n).getLsbD j = if j < 3 then n.val.testBit j else p.icw2.getLsbD j := by
  have hhigh : 3 ≤ j → n.val.testBit j = false := fun h =>
    Nat.testBit_lt_two_pow (n.isLt.trans_le (Nat.pow_le_pow_right (n := 2) Nat.two_pos h))
  have hmask : (0xF8#8).getLsbD j = decide (3 ≤ j) := by interval_cases j <;> rfl
  rw [Pic.vector, BitVec.getLsbD_or, BitVec.getLsbD_and, hmask, BitVec.getLsbD_ofNat]
  by_cases h : j < 3
  · simp [h, hj, Nat.not_le.mpr h]
  · simp [h, hhigh (Nat.not_lt.mp h), Nat.not_lt.mp h]

/-- Settles O58, by the bits of the vector byte. -/
theorem vectorByteCarriesTheInput : Obligations.VectorByteCarriesTheInput := by
  intro p n
  constructor
  · apply BitVec.eq_of_getLsbD_eq
    intro j hj
    have hlow : ¬ 3 + j < 3 := by omega
    simp [hj, getLsbD_vector p n (show 3 + j < 8 by omega), hlow]
  · have hnum : (p.vector n).extractLsb' 0 3 = BitVec.ofNat 3 n.val := by
      apply BitVec.eq_of_getLsbD_eq
      intro j hj
      simp [hj, getLsbD_vector p n (show j < 8 by omega)]
    rw [hnum, BitVec.toNat_ofNat]
    exact Nat.mod_eq_of_lt n.isLt

theorem extractA4A3A2_eq_iff (a : Addr) (o : BitVec 3) : a.extractLsb' 2 3 = o ↔ a.toNat / 4 % 8 = o.toNat := by
  rw [← BitVec.toNat_inj, BitVec.extractLsb'_toNat, Nat.shiftRight_eq_div_pow]

/-- Settles O59, by the test of the decoder and the number it reads. -/
theorem chipSelectDecodesA4A3A2 : Obligations.ChipSelectDecodesA4A3A2 := by
  intro bheHigh a o
  simp [decoder8205, extractA4A3A2_eq_iff, and_assoc]

/-! ### The input that is served -/

theorem mem_pickRequesting (choice : Nat) {l : List (Fin 8)} (h : l ≠ []) : pickRequesting choice l ∈ l := by
  match l with
  | [] => exact absurd rfl h
  | [n] => exact List.mem_singleton.mpr rfl
  | n :: m :: rest =>
    have hlt : choice % (n :: m :: rest).length < (n :: m :: rest).length := Nat.mod_lt _ (by simp)
    rw [pickRequesting, List.getD_eq_getElem _ _ hlt]
    exact List.getElem_mem hlt

theorem mem_requesting {p : Pic} {n : Fin 8} : n ∈ p.requesting ↔ p.requests n = true := by
  have hall : n ∈ ([0, 1, 2, 3, 4, 5, 6, 7] : List (Fin 8)) := by fin_cases n <;> simp
  rw [Pic.requesting, List.mem_filter]
  exact ⟨fun h => h.2, fun h => ⟨hall, h⟩⟩

/-- INTR can be 1 only if some input requests (R117). -/
theorem requesting_ne_nil {b : BoundaryInput} {p : Pic} (h : intrLevel b p = true) : p.requesting ≠ [] := by
  simp only [intrLevel, Bool.and_eq_true, bne_iff_ne] at h
  obtain ⟨hedge, _⟩ := h
  intro hnil
  refine hedge (BitVec.eq_of_getLsbD_eq fun j hj => ?_)
  have hno : (⟨j, hj⟩ : Fin 8) ∉ p.requesting := by simp [hnil]
  simpa [mem_requesting, Pic.requests] using hno

/-- Whoever makes the choice, the input served is one that requests (R117, log 8). -/
theorem requests_servedInput {b : BoundaryInput} {p : Pic} (h : intrLevel b p = true) (choice : Nat) :
    p.requests (servedInput b p choice) = true := by
  have hpick := mem_requesting.mp (mem_pickRequesting choice (requesting_ne_nil h))
  unfold servedInput
  split
  · split
    · assumption
    · exact hpick
  · exact hpick

/-- A requesting input that the outside names is the one served, and no free choice is used up (log 8). -/
theorem servedInput_of_serve {b : BoundaryInput} {p : Pic} {m : Fin 8} (hs : b.serve = some m)
    (hr : p.requests m = true) (choice : Nat) : servedInput b p choice = m ∧ servedFreely b p = false := by
  simp [servedInput, servedFreely, hs, hr]

/-! ### What a boundary delivers -/

theorem atBoundary_iff {s : State} : s.atBoundary = true ↔ s.launched = true ∧ flagTf s.flags = false := by
  simp [State.atBoundary]

/-- A launched state that does not single-step acknowledges INTR where it is due and no NMI is (R93, R95). -/
theorem step_of_intrDue {s : State} (hb : s.atBoundary = true) (hn : s.nmiDue = false) (hi : s.intrDue = true) :
    step s = (s.arrive.acknowledge s.boundaryInput).2.deliverExternal (s.arrive.acknowledge s.boundaryInput).1 := by
  obtain ⟨hl, htf⟩ := atBoundary_iff.mp hb
  unfold step State.boundary
  rw [accept_ok.mpr (.inl ⟨hl, htf, rfl⟩)]
  rcases recognise_cases s with ⟨h, _⟩ | ⟨_, _, hr⟩ | ⟨_, h, _⟩
  · simp [hn] at h
  · simp only [hr]
  · simp [hi] at h

theorem intrLevel_of_intrDue {s : State} (h : s.intrDue = true) : intrLevel s.boundaryInput s.arrive.pic = true := by
  rw [State.intrDue, Bool.and_eq_true] at h
  exact h.1

/-- Settles O9: a due NMI is recognised first, and nothing of it reads the 8259. -/
theorem nmiIsDeliveredFirst : Obligations.NmiIsDeliveredFirst := by
  intro s hb hn
  obtain ⟨hl, htf⟩ := atBoundary_iff.mp hb
  exact ⟨_, rfl, rfl, rfl, rfl, step_of_nmiDue hl htf hn⟩

/-- Settles O10: the acknowledge serves an input that requests, and its second pulse reads that input's vector. -/
theorem acceptedIntrServesARequest : Obligations.AcceptedIntrServesARequest := by
  intro s hb hn hi
  have hlevel := intrLevel_of_intrDue hi
  refine ⟨servedInput s.boundaryInput s.arrive.pic (Config.freeServed s.freeUsed),
    if servedFreely s.boundaryInput s.arrive.pic then s.freeUsed + 1 else s.freeUsed,
    requests_servedInput hlevel _, fun m hs hr => ?_, step_of_intrDue hb hn hi⟩
  obtain ⟨hserved, hfree⟩ := servedInput_of_serve (p := s.arrive.pic) hs hr (Config.freeServed s.freeUsed)
  exact ⟨hserved, by rw [hfree]; rfl⟩

/-- Settles O11: TF is tested before the boundary. -/
theorem trapFlagEndsTheRun : Obligations.TrapFlagEndsTheRun := by
  intro s hl htf
  have hrefused : s.accept = .error .notInScopeTf := by simp [State.accept, hl, flagTf, htf]
  rw [step, hrefused]

end Sys2Proof.Machine
end

section
/-! The proofs about the entry of a handler: the tests on the IDT entry and on the segment the gate leads to, the level
at which a handler runs, and the frame that it finds. -/

namespace Sys2Proof.Machine

/-! ### The tests on an IDT entry -/

/-- The tests on the IDT entry of a vector, in the order of R99; the one on the gate's DPL for software interrupts only. -/
def State.idtEntryTests (s : State) (v : Byte) (k : EventKind) : List (Bool × Fault) :=
  [(decide (8 * v.toNat + 7 ≤ s.idtr.limit.toNat), .vectorBeyondIdtLimit v),
   ((s.idtEntry v).isIdtGate, .idtEntryNotGate v),
   (decide (k ≠ .software) || decide (s.cpl ≤ arDpl (s.idtEntry v).ar), .gateDplBelowCpl v),
   (arPresent (s.idtEntry v).ar, .gateNotPresent v)]

/-- `IdtLookup` answers its first failing test (R99, R100). -/
theorem idtLookup_tests (s : State) (v : Byte) (k : EventKind) :
    s.idtLookup v k = answered s (s.idtEntry v) (firstFailed (s.idtEntryTests v k)) := by
  unfold State.idtLookup State.idtEntryTests
  by_cases hlimit : 8 * v.toNat + 7 ≤ s.idtr.limit.toNat
  · cases hgate : (s.idtEntry v).isIdtGate with
    | false => simp [hlimit, Nat.not_lt.mpr hlimit, hgate, answered]
    | true =>
      have hlevel : (decide (k = .software) && decide (arDpl (s.idtEntry v).ar < s.cpl)) =
          !(decide (k ≠ .software) || decide (s.cpl ≤ arDpl (s.idtEntry v).ar)) := by
        simp [← BitVec.not_le]
      simp only [hlevel, hgate, Nat.not_lt.mpr hlimit]
      cases decide (k ≠ .software) || decide (s.cpl ≤ arDpl (s.idtEntry v).ar) <;>
        cases arPresent (s.idtEntry v).ar <;> simp [hlimit, answered]
  · simp [hlimit, Nat.not_le.mp hlimit, answered]

/-- The kind of an event takes part in its delivery through `IdtLookup` alone (R98). -/
theorem deliver_congr_idtLookup {s : State} {v : Byte} {k l : EventKind} (h : s.idtLookup v k = s.idtLookup v l)
    (r : Word) (err : Option Word) : s.deliver v k r err = s.deliver v l r err := by
  unfold State.deliver
  rw [h]

/-- A delivery fails on the first failing test on its IDT entry (R98). -/
theorem deliver_of_idtFailed {s : State} {v : Byte} {k : EventKind} {f : Fault}
    (h : firstFailed (s.idtEntryTests v k) = some f) (r : Word) (err : Option Word) :
    s.deliver v k r err = .error (failing s f) := by
  unfold State.deliver
  rw [idtLookup_tests, h, answered]

/-- On a machine that stops at failed checks, a delivery that fails is the fault of its software interrupt (R114). -/
theorem exec_event_fault {s : State} {i : Instr} {v : Byte} {r : Word} {f : Failure}
    (hi : softwareEvent s i = some (v, r)) (hd : s.params.deliverFaults = false)
    (h : s.deliver v .software r none = .error f) : exec i s = .fault f.reason := by
  have hmove : CpuMove s f.left := by simpa [h, Attempt.all] using move_deliver s v .software r none
  have hleft : f.left.params.deliverFaults = false := hmove.params ▸ hd
  simp [exec_softwareEvent hi, h, settle, hleft]

/-- Settles O45: `IdtLookup` answers its first failing test. -/
theorem idtEntryTestsComeInOrder : Obligations.IdtEntryTestsComeInOrder := by
  intro s v k retIp err
  refine ⟨fun hlimit => deliver_of_idtFailed ?_ retIp err, fun hlimit hgate => deliver_of_idtFailed ?_ retIp err,
    fun hlimit hgate hk hdpl => deliver_of_idtFailed ?_ retIp err,
    fun hlimit hgate hlevel hpresent => deliver_of_idtFailed ?_ retIp err, fun i f hi hd h => exec_event_fault hi hd h⟩
  · simp [State.idtEntryTests, Nat.not_le.mpr hlimit]
  · simp [State.idtEntryTests, hlimit, hgate]
  · simp [State.idtEntryTests, hlimit, hgate, hk, BitVec.not_le.mpr hdpl]
  · simpa [State.idtEntryTests, hlimit, hgate, hpresent, imp_iff_not_or] using hlevel

/-! ### The gate's DPL -/

/-- An entry that is a present gate inside the limit passes for a kind of event unless R100 refuses it. -/
theorem gateOpen_iff {s : State} {v : Byte} {k : EventKind} (hlimit : 8 * v.toNat + 7 ≤ s.idtr.limit.toNat)
    (hgate : (s.idtEntry v).isIdtGate = true) (hpresent : arPresent (s.idtEntry v).ar = true) :
    s.gateOpen v k = true ↔ k ≠ .software ∨ s.cpl ≤ arDpl (s.idtEntry v).ar := by
  simp [State.gateOpen, hlimit, hgate, hpresent]

theorem idtLookup_eq_of_open {s : State} {v : Byte} {k : EventKind} (hlimit : 8 * v.toNat + 7 ≤ s.idtr.limit.toNat)
    (hgate : (s.idtEntry v).isIdtGate = true) (hpresent : arPresent (s.idtEntry v).ar = true) :
    s.idtLookup v k = .ok (s.idtEntry v) ↔ k ≠ .software ∨ s.cpl ≤ arDpl (s.idtEntry v).ar := by
  rw [idtLookup_ok, gateOpen_iff hlimit hgate hpresent, and_iff_left rfl]

/-- The tests on the entry are the same for two kinds of event for which R100 says the same. -/
theorem idtLookup_congr {s : State} {v : Byte} {k l : EventKind}
    (h : (k ≠ .software ∨ s.cpl ≤ arDpl (s.idtEntry v).ar) ↔ (l ≠ .software ∨ s.cpl ≤ arDpl (s.idtEntry v).ar)) :
    s.idtLookup v k = s.idtLookup v l := by
  rw [idtLookup_tests, idtLookup_tests, State.idtEntryTests, State.idtEntryTests, ← Bool.decide_or, ← Bool.decide_or,
    decide_eq_decide.mpr h]

/-- A software interrupt through a gate of smaller DPL than CPL is not delivered (R100). -/
theorem deliver_refused {s : State} {v : Byte} (h : arDpl (s.idtEntry v).ar < s.cpl) (r : Word) (err : Option Word) :
    ∃ f, s.deliver v .software r err = .error f := by
  cases hd : s.deliver v .software r err with
  | error f => exact ⟨f, rfl⟩
  | ok u =>
    obtain ⟨ho, _⟩ := deliver_ok.mp hd
    simp [State.gateOpen, BitVec.not_le.mpr h] at ho

/-- Settles O41: the test on the gate's DPL is the only one in which the kind of event takes part. -/
theorem hardwareIgnoresTheGateLevel : Obligations.HardwareIgnoresTheGateLevel := by
  intro s v retIp err
  refine ⟨fun hlimit hgate hpresent => ⟨?_, ?_, ?_⟩, ?_, fun hlevel => ?_, fun hlevel i retIp' hi hd => ?_⟩
  · exact (idtLookup_eq_of_open hlimit hgate hpresent).mpr (.inl (by simp))
  · exact (idtLookup_eq_of_open hlimit hgate hpresent).mpr (.inl (by simp))
  · simp [idtLookup_eq_of_open hlimit hgate hpresent]
  · exact deliver_congr_idtLookup (idtLookup_congr (by simp)) retIp err
  · exact deliver_congr_idtLookup (idtLookup_congr (by simp [hlevel])) retIp err
  · obtain ⟨f, hf⟩ := deliver_refused hlevel retIp' none
    rw [exec_event_fault hi hd hf]
    rfl

/-! ### The tests on the segment that a gate leads to -/

section

variable {s : State} {v : Byte} {k : EventKind} {r : Word} {err : Option Word} {d : Desc}

/-- Through an interrupt or trap gate a delivery fails as the gate's checks do (R98, R101). -/
theorem deliver_of_gateFailed {f : Failure} (ho : s.gateOpen v k = true) (hp : s.procedureGate v = true)
    (h : s.checkGate (s.idtEntry v) err = .error f) : s.deliver v k r err = .error f := by
  simp [deliver_gate ho, procedureGate_not_task hp, State.gatePath, h]

theorem checkGate_null {g : Desc} (h : selNull g.gateSelector = true) :
    s.checkGate g err = .error (failing s .nullSelector) := if_pos h

theorem checkGate_unnamed {g : Desc} (hn : selNull g.gateSelector = false) (h : s.readDesc g.gateSelector = none) :
    s.checkGate g err = .error (failing s (.selectorBeyondTable g.gateSelector)) := by
  simp [State.checkGate, hn, h]

/-- The checks of a gate on the descriptor that its selector names (R101, R102, R103). -/
theorem checkGate_named {g : Desc} (h : s.readDesc g.gateSelector = some d) :
    s.checkGate g err =
      if !arIsCode d.ar then .error (failing s (.notCodeSegment g.gateSelector))
      else if !arPresent d.ar then .error (failing s (.segmentNotPresent g.gateSelector))
      else if !arConforming d.ar && decide (arDpl d.ar < s.cpl) then s.checkInner g.gateSelector d g.gateOffset err
      else if arCodeFits d.ar s.cpl then s.checkSame g.gateSelector d g.gateOffset err
      else .error (failing s (.targetDplAboveCpl g.gateSelector)) := by
  simp [State.checkGate, readDesc_some_not_null h, h]

/-- A code segment that suits the level is entered on the stack in use: either it conforms or its DPL is CPL. -/
theorem not_inner_of_arCodeFits {ar : Byte} {l : Level} (h : arCodeFits ar l = true) :
    (!arConforming ar && decide (arDpl ar < l)) = false := by
  cases hc : arConforming ar with
  | true => rfl
  | false => simp [arDpl_of_arCodeFits hc h]

theorem arCodeFits_of_dplAbove {ar : Byte} {l : Level} (h : l < arDpl ar) : arCodeFits ar l = false := by
  have hne : arDpl ar ≠ l := (BitVec.ne_of_lt h).symm
  simp [arCodeFits, hne, h]

theorem frameWords_eq (base : Nat) (err : Option Word) :
    frameWords base err = if err.isSome then base + 1 else base := by
  cases err <;> rfl

end

/-- Settles O46: the checks of a gate, branch by branch, and the lists of tests of the two entries. -/
theorem handlerSegmentTestsComeInOrder : Obligations.HandlerSegmentTestsComeInOrder := by
  rintro s v k retIp err sel ho hp rfl
  refine ⟨fun hnull => deliver_of_gateFailed ho hp (checkGate_null hnull),
    fun hnull hread => deliver_of_gateFailed ho hp (checkGate_unnamed hnull hread), fun d hread => ?_⟩
  refine ⟨fun hcode => ?_, fun hcode hpresent => ?_, fun hcode hpresent habove => ?_, fun hcode hpresent hfits f hf => ?_,
    fun hcode hpresent hconf hlevel f hf => ?_⟩ <;>
    refine deliver_of_gateFailed ho hp ?_ <;> rw [checkGate_named hread]
  · simp [hcode]
  · simp [hcode, hpresent]
  · simp [hcode, hpresent, BitVec.not_lt.mpr (BitVec.le_of_lt habove), arCodeFits_of_dplAbove habove]
  · rw [← frameWords_eq 3 err] at hf
    simp [hcode, hpresent, not_inner_of_arCodeFits hfits, hfits, checkSame_tests, hf, answered]
  · rw [← frameWords_eq 5 err] at hf
    obtain ⟨newSs, newSp, e, hinner⟩ := checkInner_tests s (s.idtEntry v).gateSelector d (s.idtEntry v).gateOffset err
    simp [hcode, hpresent, hconf, hlevel, hinner, hf, answered]

/-! ### The level of a handler -/

theorem enterHandler_cs (s : State) (sel : Word) (d : Desc) (off : Word) (l : Level) (err : Option Word) (clear : Bool) :
    (s.enterHandler sel d off l err clear).cs = d.toSegReg (selWithRpl sel l) := by
  cases err <;> simp [State.enterHandler, State.pushErr]

theorem enterHandler_cpl (s : State) (sel : Word) (d : Desc) (off : Word) (l : Level) (err : Option Word) (clear : Bool) :
    (s.enterHandler sel d off l err clear).cpl = l := by
  cases err <;> rfl

/-- The segment `d` suits a handler at level `l` of the interrupted level `k`: `l` is not above `k`, and is the DPL of
`d` unless that conforms, in which case it is `k` (R92, R102, R103). -/
structure HandlerLevel (k l : Level) (ar : Byte) : Prop where
  level : l ≤ k
  dpl : arDpl ar ≤ k
  conforming : arConforming ar = true → l = k
  plain : arConforming ar = false → l = arDpl ar

theorem handlerLevel_of_fits {ar : Byte} {k : Level} (h : arCodeFits ar k = true) : HandlerLevel k k ar := by
  cases hc : arConforming ar with
  | true =>
    have hdpl : arDpl ar ≤ k := by simpa [arCodeFits, hc] using h
    exact ⟨BitVec.le_refl k, hdpl, fun _ => rfl, fun hn => by simp [hc] at hn⟩
  | false =>
    have hdpl : arDpl ar = k := arDpl_of_arCodeFits hc h
    exact ⟨BitVec.le_refl k, hdpl ▸ BitVec.le_refl _, fun _ => rfl, fun _ => hdpl.symm⟩

theorem handlerLevel_of_inner {ar : Byte} {k : Level} (hc : arConforming ar = false) (h : arDpl ar < k) :
    HandlerLevel k (arDpl ar) ar :=
  ⟨BitVec.le_of_lt h, BitVec.le_of_lt h, fun hn => by simp [hc] at hn, fun _ => rfl⟩

/-- Every entry that passes the checks of a gate runs its handler at a level that the segment suits. -/
theorem enterGate_handlerLevel {s : State} {g : Desc} {err : Option Word} {en : GateEntry}
    (h : s.checkGate g err = .ok en) (r : Word) (clear : Bool) :
    HandlerLevel s.cpl (s.enterGate en r err clear).cpl (s.enterGate en r err clear).cs.ar := by
  obtain ⟨d, _, ⟨hc, hl, newSs, newSp, e, _, _, rfl⟩ | ⟨hfits, _, rfl⟩⟩ := checkGate_ok.mp h
  · rw [State.enterGate, enterHandler_cs, enterHandler_cpl]
    have hlevel := handlerLevel_of_inner (ar := arAccessed d.ar) (k := s.cpl) (by simpa using hc) (by simpa using hl)
    rwa [arDpl_arAccessed] at hlevel
  · rw [State.enterGate, enterHandler_cs, enterHandler_cpl]
    exact handlerLevel_of_fits (ar := arAccessed d.ar) (by simpa using hfits)

/-- Settles O40, by the two entries that the checks of a gate let pass. -/
theorem handlersNeverRunOutward : Obligations.HandlersNeverRunOutward := by
  intro s t v k retIp err hp h
  obtain ⟨_, ⟨htask, _⟩ | ⟨_, hgate⟩⟩ := deliver_ok.mp h
  · simp [procedureGate_not_task hp] at htask
  · obtain ⟨en, hcheck, rfl⟩ := gatePath_ok.mp hgate
    have hl := enterGate_handlerLevel hcheck retIp (s.idtEntry v).isInterruptGate
    exact ⟨hl.level, hl.dpl, hl.conforming, hl.plain⟩

end Sys2Proof.Machine
end

section
/-! The proofs about the frame of a handler: at an inner level, with an error code, and as the IRET after it reads it. -/

namespace Sys2Proof.Machine

/-! ### An external interrupt -/

/-- An external interrupt completes in the state that its delivery answers (R93). -/
theorem deliverExternal_of_deliver {s t : State} {v : Byte} (h : s.deliver v .external s.ip none = .ok t) :
    s.deliverExternal v = .next t := by
  rw [State.deliverExternal, h, settle]

/-- Settles O42, by what the handler finds on the stack of the inner level. -/
theorem externalInterruptEntersAnInnerLevel : Obligations.ExternalInterruptEntersAnInnerLevel := by
  intro s v d newSs newSp e ho hp hd hconf hlevel hstack hf
  have h := enterGate_inner_entered (s := s) (s.idtEntry v).gateSelector d (s.idtEntry v).gateOffset s.ip
    (s.idtEntry v).isInterruptGate hf
  exact ⟨_, deliverExternal_of_deliver (deliver_inner ho hp hd hconf hlevel hstack hf), h.ip, h.cpl, h.cs, h.ss, h.regs,
    h.flags, h.ds, h.es, h.task, h.move.keepsSystem, h.move.nmiInService, h.other, h.frame⟩

/-! ### The error code -/

/-- What the first instruction of a handler finds in `t` after the words `ws` and the error code `err` have been pushed
on the stack of `s`: they stand in their frame, the error code lowest, unless the accessed bit of the handler's segment
stands there (R104, R107, R55). -/
structure ErrorFrame (s t : State) (ws : List Word) (err : Word) (d : Desc) (off : Word) (l : Level) : Prop where
  ip : t.ip = off
  cpl : t.cpl = l
  ss : t.ss = s.ss
  regs : t.regs = s.regs.write .sp (s.regs.sp - BitVec.ofNat 16 (2 * (ws.length + 1)))
  frame : (∀ a, marksAt d a → ¬ inFrame s.ss s.regs.sp (ws.length + 1) a) →
    frameHolds t s.ss s.regs.sp (ws ++ [err]) ∧ ∀ a, marksAt d a → t.read8 a = arAccessed d.ar
  other : ∀ a, ¬ inFrame s.ss s.regs.sp (ws.length + 1) a → ¬ marksAt d a → t.read8 a = s.read8 a

theorem enterHandler_errorFrame {s : State} {ws : List Word} (sel : Word) (d : Desc) (off : Word) (l : Level)
    (err : Word) (clear : Bool) (hn : ws.length ≤ 8) (hf : frameFits s.ss s.regs.sp (ws.length + 1) = true) :
    ErrorFrame s ((s.pushWords ws).enterHandler sel d off l (some err) clear) ws err d off l := by
  obtain ⟨hip, hcpl, hss, hregs, hframe, hother⟩ :=
    enterHandler_err (sel := sel) (d := d) (off := off) (k := l) (err := err) (c := clear) hn hf
  exact ⟨hip, hcpl, hss, hregs, hframe, hother⟩

/-- The words of a frame with an error code are one more (R107). -/
theorem enterGate_same_errorFrame {s : State} (sel : Word) (d : Desc) (off r err : Word) (clear : Bool)
    (hf : frameFits s.ss s.regs.sp 4 = true) :
    ErrorFrame s (s.enterGate (.same sel d off) r (some err) clear) [s.flagWord, s.cs.sel, r] err d off s.cpl :=
  enterHandler_errorFrame sel d off s.cpl err clear (by simp) hf

theorem enterGate_inner_errorFrame {s : State} {newSs newSp : Word} {e : Desc} (sel : Word) (d : Desc) (off r err : Word)
    (clear : Bool) (hf : frameFits (e.toSegReg newSs) newSp 6 = true) :
    ErrorFrame (s.onInnerStack newSs newSp e) (s.enterGate (.inner sel d off newSs newSp e) r (some err) clear)
      [s.ss.sel, s.regs.sp, s.flagWord, s.cs.sel, r] err d off (arDpl d.ar) :=
  enterHandler_errorFrame sel d off (arDpl d.ar) err clear (by simp) (by rw [onInnerStack_ss]; exact hf)

/-! ### The error code on the incoming task's stack -/

/-- Through a task gate to an available TSS, a delivery loads the segments of the incoming task and then pushes the error
code, if there is one, there; it fails where either fails (R109, R110). -/
theorem deliver_taskGate_bind {s u : State} {v : Byte} {k : EventKind} {r : Word} {err : Option Word} {d : Desc}
    (ho : s.gateOpen v k = true) (ht : (s.idtEntry v).isTaskGate = true)
    (hd : s.taskAt (s.idtEntry v).gateSelector false d = true)
    (hu : u = s.leaveTask (s.idtEntry v).gateSelector d .nest r) :
    s.deliver v k r err =
      (u.loadTask .nest (u.readTss d.base)).loadTaskSegments (u.readTss d.base) >>= fun w => w.pushTaskErr err := by
  subst hu
  obtain ⟨hdesc, hpass⟩ := taskAt_tests hd
  obtain ⟨-, -, -, -, hlimit⟩ := taskAt_iff.mp hd
  have hpass' : firstFailed (s.taskTests (s.idtEntry v).gateSelector .nest) = none := hpass
  rw [deliver_gate ho, if_pos ht, taskGatePath_tests, hpass']
  simp only [hdesc, State.taskSwitch, BitVec.not_lt.mpr hlimit, if_false]
  generalize State.loadTaskSegments _ _ = answer
  cases answer <;> rfl

theorem push16_fits {s : State} (h : segWriteOk s.ss (s.regs.sp - 2#16) 2 = true) (v : Word) :
    s.push16 v = .ok (s.pushWord v) := if_pos h

theorem push16_stackLimit {s : State} (h : segWriteOk s.ss (s.regs.sp - 2#16) 2 = false) (v : Word) :
    s.push16 v = .error (failing s .stackLimit) := by
  rw [State.push16, h]
  rfl

/-- Settles O43: in each of the three entries the error code is pushed last. -/
theorem errorCodeLiesLowestInTheFrame : Obligations.ErrorCodeLiesLowestInTheFrame := by
  intro s v retIp err ho
  refine ⟨fun d hp hd hlevel hf => ?_, fun d newSs newSp e hp hd hconf hlevel hstack hf => ?_, ?_⟩
  · have h := enterGate_same_errorFrame (s := s) (s.idtEntry v).gateSelector d (s.idtEntry v).gateOffset retIp err
      (s.idtEntry v).isInterruptGate hf
    exact ⟨_, deliver_same ho hp hd hlevel hf, h.ip, h.regs, h.ss, h.frame, h.other⟩
  · have h := enterGate_inner_errorFrame (s := s) (newSs := newSs) (newSp := newSp) (e := e) (s.idtEntry v).gateSelector d
      (s.idtEntry v).gateOffset retIp err (s.idtEntry v).isInterruptGate hf
    have hss := onInnerStack_ss s newSs newSp e
    refine ⟨_, deliver_inner ho hp hd hconf hlevel hstack hf, h.ip, h.cpl, h.ss.trans hss, ?_, hss ▸ h.frame,
      fun a hframe hmark he => ?_⟩
    · rw [h.regs, onInnerStack_regs]
      rfl
    · rw [h.other a (by rw [hss]; exact hframe) hmark, read8_onInnerStack_other s newSs newSp e he]
  · rintro d u img t ht hd hu rfl hload
    have hdeliver : s.deliver v .exception retIp (some err) = t.push16 err := by
      rw [deliver_taskGate_bind ho ht hd hu, hload]
      rfl
    rw [hdeliver]
    refine ⟨fun hfits => ⟨_, push16_fits hfits err, rfl, ⟨t.read16_write16_same _ err, trivial⟩, fun a ha => ?_, rfl⟩,
      fun hlimit => push16_stackLimit hlimit err⟩
    exact read8_pushWord_other fun hin => ha (.inl hin)

/-! ### The IRET that follows an entry -/

/-- Where a word may be written it may be read: a writable segment is readable (R49, R53). -/
theorem segReadOk_of_segWriteOk {g : SegReg} {off : Word} {n : Nat} (h : segWriteOk g off n = true) :
    segReadOk g off n = true := by
  obtain ⟨hnull, hwrite, hrange⟩ := segWriteOk_iff.mp h
  have hdata : arIsData g.ar = true := by
    rw [arWritable, Bool.and_eq_true] at hwrite
    exact hwrite.1
  exact segReadOk_iff.mpr ⟨hnull, by simp [arReadable, hdata], hrange⟩

/-- The three words that an entry has pushed are the frame that IRET reads (R75, R104). -/
theorem stackWords_of_frameHolds {t : State} {g : SegReg} {sp fl cs ip : Word} (hss : t.ss = g)
    (hsp : t.regs.sp = sp - 6#16) (h : frameHolds t g sp [fl, cs, ip]) :
    t.stackWord 0#16 = ip ∧ t.stackWord 2#16 = cs ∧ t.stackWord 4#16 = fl := by
  obtain ⟨hfl, hcs, hip, -⟩ := h
  have e0 : sp - 6#16 + 0#16 = sp - 2#16 - 2#16 - 2#16 := by bv_omega
  have e2 : sp - 6#16 + 2#16 = sp - 2#16 - 2#16 := by bv_omega
  have e4 : sp - 6#16 + 4#16 = sp - 2#16 := by bv_omega
  simp only [State.stackWord, hss, hsp, e0, e2, e4]
  exact ⟨hip, hcs, hfl⟩

theorem frameReadable_of_frameFits {t : State} {g : SegReg} {sp : Word} (hss : t.ss = g) (hsp : t.regs.sp = sp - 6#16)
    (h : frameFits g sp 3 = true) : t.frameReadable = true := by
  have e2 : sp - 6#16 + 2#16 = sp - 4#16 := by bv_omega
  have e4 : sp - 6#16 + 4#16 = sp - 2#16 := by bv_omega
  have hword : ∀ j, 1 ≤ j → j ≤ 3 → segReadOk g (sp - BitVec.ofNat 16 (2 * j)) 2 = true :=
    fun j h1 h3 => segReadOk_of_segWriteOk (frameFits_index h h1 h3)
  simp only [State.frameReadable, hss, hsp, e2, e4, Bool.and_eq_true]
  exact ⟨⟨hword 3 (by decide) (by decide), hword 2 (by decide) (by decide)⟩, hword 1 (by decide) (by decide)⟩

/-- The interrupted code may be returned to: CS caches the descriptor that its selector names (R77). -/
theorem returnCodeAt_of_cacheAgrees {s t : State} {ip : Word} (hcache : t.cacheAgrees s.cs = true)
    (hsafe : s.codeSafe = true) (hip : ip ≤ s.cs.limit) :
    ∃ d, t.returnCodeAt s.cs.sel ip s.cpl d = true ∧ d.toSegReg s.cs.sel = s.cs := by
  unfold State.cacheAgrees at hcache
  cases hread : t.readDesc s.cs.sel with
  | none => simp [hread] at hcache
  | some d =>
    have hcs : s.cs = d.toSegReg s.cs.sel := by simpa [hread] using hcache
    have har : s.cs.ar = arAccessed d.ar := congrArg SegReg.ar hcs
    have hlimit : s.cs.limit = d.limit := congrArg SegReg.limit hcs
    simp only [State.codeSafe, codeHeld, har, arPresent_arAccessed, arIsCode_arAccessed, arCodeFits_arAccessed,
      Bool.and_eq_true] at hsafe
    obtain ⟨⟨_, ⟨hpresent, hcode⟩, hfits⟩, _⟩ := hsafe
    refine ⟨d, returnCodeAt_iff.mpr ⟨checkReturnCs_ok.mpr ⟨hread, hcode, hfits, hpresent⟩, hlimit ▸ hip⟩, hcs.symm⟩

theorem selRpl_of_codeSafe {s : State} (h : s.codeSafe = true) : selRpl s.cs.sel = s.cpl := by
  rw [State.codeSafe, Bool.and_eq_true] at h
  simpa [State.levelAgrees] using h.2

theorem flagNt_handlerFlags (clear : Bool) (v : Word) : flagNt (handlerFlags clear v) = false := by
  rw [flagNt, gateEntryClearsTheseFlags clear v 14]
  simp

/-- An entry leaves every bit of the flag word but TF, IF and NT (R106). -/
theorem getLsbD_handlerFlags_other (clear : Bool) (v : Word) {j : Nat} (h8 : j ≠ 8) (h9 : j ≠ 9) (h14 : j ≠ 14) :
    (handlerFlags clear v).getLsbD j = v.getLsbD j := by
  rw [gateEntryClearsTheseFlags clear v j]
  simp [h8, h9, h14]

theorem flagIopl_handlerFlags (clear : Bool) (v : Word) : flagIopl (handlerFlags clear v) = flagIopl v := by
  apply BitVec.eq_of_getLsbD_eq
  intro j hj
  rw [flagIopl, flagIopl, BitVec.getLsbD_extractLsb', BitVec.getLsbD_extractLsb',
    getLsbD_handlerFlags_other clear v (by omega) (by omega) (by omega)]

/-- The filter gives the interrupted flag word back: IOPL was not changed by the entry, and IF is let through (R79,
R106). -/
theorem filterFlags_handlerFlags {filter clear : Bool} {cpl : Level} {v : Word} (hfix : fixFlags v = v)
    (hif : filter = true → cpl ≤ flagIopl v) : filterFlags filter cpl (handlerFlags clear v) v = v := by
  apply BitVec.eq_of_getLsbD_eq
  intro j hj
  have hfixed := getLsbD_fixFlags v hj
  rw [hfix] at hfixed
  have hiopl : j = 12 ∨ j = 13 → (handlerFlags clear v).getLsbD j = v.getLsbD j := fun h =>
    getLsbD_handlerFlags_other clear v (by omega) (by omega) (by omega)
  have hpass : ¬ (j = 9 ∧ filter = true ∧ flagIopl v < cpl) := fun ⟨_, hfilter, hlt⟩ =>
    BitVec.not_lt.mpr (hif hfilter) hlt
  rw [iretFilterBits filter cpl _ v j hj, flagIopl_handlerFlags, if_neg hpass]
  by_cases h1 : j = 1
  · rw [hfixed, if_pos h1, if_pos h1]
  · by_cases h0 : j = 3 ∨ j = 5 ∨ j = 15
    · rw [hfixed, if_neg h1, if_pos h0, if_neg h1, if_pos h0]
    · rw [if_neg h1, if_neg h0]
      split
      · exact hiopl (by tauto)
      · rfl

theorem GenRegs.write_sp_write_sp (g : GenRegs) (v w : Word) : (g.write .sp v).write .sp w = g.write .sp w := rfl

theorem GenRegs.write_sp_self (g : GenRegs) : g.write .sp g.sp = g := rfl

/-- Settles O44: the IRET reads the three words of the entry, and its filter gives the flag word back. -/
theorem iretUndoesASameLevelEntry : Obligations.IretUndoesASameLevelEntry := by
  intro s i v retIp d hi ho hp hd hlevel hf hmark hsafe hip hfixed hiopl
  have h := enterGate_same_entered (s.idtEntry v).gateSelector d (s.idtEntry v).gateOffset retIp
    (s.idtEntry v).isInterruptGate hf
  refine ⟨_, exec_of_deliver hi (deliver_same ho hp hd hlevel hf), fun hcache => ?_⟩
  generalize s.enterGate _ _ _ _ = t at h hcache ⊢
  have hflagWord : s.flagWord = s.flags := beq_iff_eq.mp hfixed
  have hsp : t.regs.sp = s.regs.sp - 6#16 := by rw [h.regs]; rfl
  obtain ⟨hip0, hcs2, hflags4⟩ := stackWords_of_frameHolds h.ss hsp (h.frame hmark)
  obtain ⟨c, hcode, hcs⟩ := returnCodeAt_of_cacheAgrees hcache hsafe hip
  have hnt : flagNt t.flags = false := by rw [h.flags, flagNt_handlerFlags]
  obtain ⟨r, hr, rip, rcs, rcpl, rflags, rregs, rss, rds, res, -, rtask, rsystem, -⟩ :=
    iretReturnsToTheSameLevel t retIp s.cs.sel s.flagWord c hnt (frameReadable_of_frameFits h.ss hsp hf)
      (hip0.symm.trans t.stackWord_zero) hcs2.symm hflags4.symm (h.cpl ▸ selRpl_of_codeSafe hsafe) (h.cpl ▸ hcode)
  refine ⟨r, hr, rip, rcs.trans hcs, rcpl.trans h.cpl, ?_, ?_, rss.trans h.ss, rds.trans h.ds, res.trans h.es,
    h.task.trans rtask, h.move.keepsSystem.trans rsystem⟩
  · have hold : t.flagWord = handlerFlags (s.idtEntry v).isInterruptGate s.flags := by
      rw [State.flagWord, h.flags, State.flagWord, fixFlags_handlerFlags, ← State.flagWord, hflagWord]
    rw [rflags, h.cpl, hold, hflagWord, h.move.params]
    exact filterFlags_handlerFlags hflagWord hiopl
  · have hback : s.regs.sp - 6#16 + 6#16 = s.regs.sp := by bv_omega
    rw [rregs, hsp, hback, h.regs, GenRegs.write_sp_write_sp, GenRegs.write_sp_self]

end Sys2Proof.Machine
end

section
/-! The proofs about task switches: the tests of a task gate, and the loads of the segments of an incoming task one after
the other. -/

namespace Sys2Proof.Machine

/-! ### Task gates that are refused -/

/-- Through a task gate a delivery fails on the first failing test up to the point of no return (R109, R110). -/
theorem deliver_of_taskFailed {s : State} {v : Byte} {k : EventKind} {f : Fault} (ho : s.gateOpen v k = true)
    (ht : (s.idtEntry v).isTaskGate = true) (h : firstFailed (s.taskTests (s.idtEntry v).gateSelector .nest) = some f)
    (r : Word) (err : Option Word) :
    s.deliver v k r err = .error (failingAlt s f (decide (f = .selectorBeyondTable (s.idtEntry v).gateSelector))) := by
  rw [deliver_gate ho, if_pos ht, taskGatePath_tests, h]

/-- A busy TSS has another TYPE than an available one (R50). -/
theorem not_available_of_busy {d : Desc} (h : d.isBusyTss = true) : d.isAvailableTss = false := by
  rw [Desc.isBusyTss, Bool.and_eq_true, beq_iff_eq] at h
  simp [Desc.isAvailableTss, h.2]

/-- Settles O47: the first failing test of the task gate, or the failure in the incoming task. -/
theorem busyTasksCannotBeEntered : Obligations.BusyTasksCannotBeEntered := by
  rintro s v k retIp err sel ho ht rfl
  refine ⟨fun hti => ?_, fun d hti hread havail => ?_, fun d => not_available_of_busy,
    fun f hf => deliver_of_taskFailed ho ht hf retIp err, ?_⟩
  · exact deliver_of_taskFailed (f := .tssSelectorNotGlobal _) ho ht (by simp [State.taskTests, hti]) retIp err
  · obtain ⟨hnamed, hdesc⟩ := State.named_of_readDesc hread
    exact deliver_of_taskFailed (f := .tssNotAvailable _) ho ht
      (by simp [State.taskTests, hti, hnamed, hdesc, havail]) retIp err
  · rintro d u img g hd hu rfl hload
    rw [deliver_taskGate_bind ho ht hd hu, hload]
    rfl

/-! ### States whose selectors name the same descriptors -/

/-- What `ReadDesc` reads is the same in two states: memory and the two descriptor tables (R42). -/
structure SameTables (s t : State) : Prop where
  mem : t.mem = s.mem
  gdtr : t.gdtr = s.gdtr
  ldtr : t.ldtr = s.ldtr

namespace SameTables

variable {s t : State}

theorem named (h : SameTables s t) (sel : Word) : t.named sel = s.named sel :=
  (State.named_congr h.mem h.gdtr h.ldtr sel).1

theorem descOf (h : SameTables s t) (sel : Word) : t.descOf sel = s.descOf sel :=
  (State.named_congr h.mem h.gdtr h.ldtr sel).2

theorem taskDataTests (h : SameTables s t) (sel : Word) (k : Level) : t.taskDataTests sel k = s.taskDataTests sel k := by
  simp only [State.taskDataTests, h.named, h.descOf]

theorem markAccessed_mem (h : t.mem = s.mem) (d : Desc) : (t.markAccessed d).mem = (s.markAccessed d).mem := by
  unfold State.markAccessed
  split
  · exact h
  · rw [State.write8_mem, State.write8_mem, h]

/-- Loading a segment sets the accessed bit, whichever register is loaded. -/
theorem loadSeg (h : SameTables s t) (n : SegName) (sel : Word) :
    SameTables (s.markAccessed (s.descOf sel)) (t.loadSeg n sel (t.descOf sel)) where
  mem := by rw [State.loadSeg_mem, h.descOf, markAccessed_mem h.mem]
  gdtr := by cases n <;> simp [h.gdtr]
  ldtr := by cases n <;> simp [h.ldtr]

theorem setSeg (h : SameTables s t) (n : SegName) (g : SegReg) : SameTables s (t.setSeg n g) := by
  cases n <;> exact ⟨h.mem, h.gdtr, h.ldtr⟩

end SameTables

theorem sameTables_setCpl (s : State) (k : Level) : SameTables s (s.setCpl k) := ⟨rfl, rfl, rfl⟩

/-! ### The loads of an incoming task -/

/-- LDTR loaded (R110 step 8). -/
def State.ldtLoaded (s : State) (ldt : Word) : State :=
  { s with ldtr := if selNull ldt then { sel := ldt, base := 0#24, limit := 0#16 } else (s.descOf ldt).toSysSegReg ldt }

/-- CPL taken from the selector, and CS loaded (R110 step 9). -/
def State.csLoaded (s : State) (cs : Word) : State := (s.setCpl (selRpl cs)).loadSeg .cs cs (s.descOf cs)

/-- DS or ES loaded, or made null (R110 step 9). -/
def State.dataLoaded (s : State) (n : SegName) (sel : Word) : State :=
  if selNull sel then s.setSeg n ((s.seg n).asNull sel) else s.loadSeg n sel (s.descOf sel)

/-- CPL, LDTR, CS and SS loaded. -/
def State.stackLoaded (s : State) (img : TssImage) : State :=
  let u := (s.ldtLoaded img.ldt).csLoaded img.cs
  u.loadSeg .ss img.ss (u.descOf img.ss)

/-- All segments of the incoming task loaded (R110, steps 8 and 9). -/
def State.segmentsLoaded (s : State) (img : TssImage) : State :=
  ((s.stackLoaded img).dataLoaded .ds img.ds).dataLoaded .es img.es

/-- The stages of an incoming task have the tables of the states in which its selectors are looked up. -/
theorem sameTables_atSs (s : State) (img : TssImage) :
    SameTables (s.taskStages img).atSs ((s.ldtLoaded img.ldt).csLoaded img.cs) :=
  (sameTables_setCpl (s.ldtLoaded img.ldt) (selRpl img.cs)).loadSeg .cs img.cs

theorem sameTables_atDs (s : State) (img : TssImage) : SameTables (s.taskStages img).atDs (s.stackLoaded img) :=
  (sameTables_atSs s img).loadSeg .ss img.ss

theorem SameTables.dataLoaded {s t : State} (h : SameTables s t) (n : SegName) (sel : Word) :
    SameTables (if selNull sel then s else s.markAccessed (s.descOf sel)) (t.dataLoaded n sel) := by
  unfold State.dataLoaded
  split
  · exact h.setSeg n _
  · exact h.loadSeg n sel

theorem sameTables_atEs (s : State) (img : TssImage) :
    SameTables (s.taskStages img).atEs ((s.stackLoaded img).dataLoaded .ds img.ds) :=
  (sameTables_atDs s img).dataLoaded .ds img.ds

theorem seg_dataLoaded_other (s : State) {n m : SegName} (h : m ≠ n) (sel : Word) :
    (s.dataLoaded n sel).seg m = s.seg m := by
  unfold State.dataLoaded
  split
  · rw [seg_setSeg, if_neg h]
  · rw [seg_loadSeg, if_neg h]

theorem seg_dataLoaded_same (s : State) {n : SegName} {sel : Word} (h : selNull sel = false) :
    (s.dataLoaded n sel).seg n = (s.descOf sel).toSegReg sel := by
  rw [State.dataLoaded, h, if_neg Bool.false_ne_true, seg_loadSeg, if_pos rfl]

/-! ### What the loads leave alone -/

/-- What loading the segments of a task leaves alone, whether it completes or fails: TR, MSW, IP, the flag word, the
general registers and what no procedure of the processor touches (R110, steps 8 to 10). -/
structure LoadKeeps (s t : State) : Prop where
  tr : t.tr = s.tr
  msw : t.msw = s.msw
  ip : t.ip = s.ip
  flags : t.flags = s.flags
  regs : t.regs = s.regs
  move : CpuMove s t

namespace LoadKeeps

variable {s t u : State}

theorem refl (s : State) : LoadKeeps s s := ⟨rfl, rfl, rfl, rfl, rfl, .refl s⟩

theorem trans (h : LoadKeeps s t) (k : LoadKeeps t u) : LoadKeeps s u where
  tr := k.tr.trans h.tr
  msw := k.msw.trans h.msw
  ip := k.ip.trans h.ip
  flags := k.flags.trans h.flags
  regs := k.regs.trans h.regs
  move := h.move.trans k.move

theorem setCpl (s : State) (k : Level) : LoadKeeps s (s.setCpl k) := ⟨rfl, rfl, rfl, rfl, rfl, move_setCpl s k⟩

theorem setSeg (s : State) (n : SegName) (g : SegReg) : LoadKeeps s (s.setSeg n g) := by
  cases n <;> exact ⟨rfl, rfl, rfl, rfl, rfl, move_setSeg s _ g⟩

theorem loadSeg (s : State) (n : SegName) (sel : Word) (d : Desc) : LoadKeeps s (s.loadSeg n sel d) := by
  obtain ⟨hregs, hflags, _, hip, htr, _, hmsw⟩ := loadSeg_fields s n sel d
  exact ⟨htr, hmsw, hip, hflags, hregs, move_loadSeg s n sel d⟩

theorem ldtLoaded (s : State) (ldt : Word) : LoadKeeps s (s.ldtLoaded ldt) :=
  ⟨rfl, rfl, rfl, rfl, rfl, ⟨rfl, rfl, rfl, rfl, rfl, rfl, rfl, rfl, rfl, rfl, id⟩⟩

theorem csLoaded (s : State) (cs : Word) : LoadKeeps s (s.csLoaded cs) :=
  (setCpl s (selRpl cs)).trans (loadSeg _ .cs cs _)

theorem stackLoaded (s : State) (img : TssImage) : LoadKeeps s (s.stackLoaded img) :=
  ((ldtLoaded s img.ldt).trans (csLoaded _ img.cs)).trans (loadSeg _ .ss img.ss _)

theorem dataLoaded (s : State) (n : SegName) (sel : Word) : LoadKeeps s (s.dataLoaded n sel) := by
  unfold State.dataLoaded
  split
  · exact setSeg s n _
  · exact loadSeg s n sel _

end LoadKeeps

@[simp] theorem dataLoaded_cpl (s : State) (n : SegName) (sel : Word) : (s.dataLoaded n sel).cpl = s.cpl := by
  unfold State.dataLoaded
  split
  · cases n <;> rfl
  · obtain ⟨_, _, hcpl, _⟩ := loadSeg_fields s n sel (s.descOf sel)
    exact hcpl

theorem csLoaded_cpl (s : State) (cs : Word) : (s.csLoaded cs).cpl = selRpl cs := by simp [State.csLoaded]

theorem stackLoaded_cpl (s : State) (img : TssImage) : (s.stackLoaded img).cpl = selRpl img.cs := by
  simp [State.stackLoaded, State.csLoaded]

theorem stackLoaded_cs (s : State) (img : TssImage) :
    (s.stackLoaded img).cs = ((s.taskStages img).atCs.descOf img.cs).toSegReg img.cs := by
  simp [State.stackLoaded, State.csLoaded]
  rfl

theorem segmentsLoaded_cs (s : State) (img : TssImage) :
    (s.segmentsLoaded img).cs = ((s.taskStages img).atCs.descOf img.cs).toSegReg img.cs := by
  have hes : (s.segmentsLoaded img).seg .cs = _ := seg_dataLoaded_other _ (by decide) img.es
  rw [seg_dataLoaded_other _ (by decide)] at hes
  exact hes.trans (stackLoaded_cs s img)

theorem segmentsLoaded_ss (s : State) (img : TssImage) :
    (s.segmentsLoaded img).ss = ((s.taskStages img).atSs.descOf img.ss).toSegReg img.ss := by
  have hes : (s.segmentsLoaded img).seg .ss = _ := seg_dataLoaded_other _ (by decide) img.es
  rw [seg_dataLoaded_other _ (by decide)] at hes
  rw [← (sameTables_atSs s img).descOf]
  exact hes.trans (State.loadSeg_ss_ss _ _ _)

theorem segmentsLoaded_ds {s : State} {img : TssImage} (h : selNull img.ds = false) :
    (s.segmentsLoaded img).ds = ((s.taskStages img).atDs.descOf img.ds).toSegReg img.ds := by
  have hes : (s.segmentsLoaded img).seg .ds = _ := seg_dataLoaded_other _ (by decide) img.es
  rw [seg_dataLoaded_same _ h, (sameTables_atDs s img).descOf] at hes
  exact hes

theorem segmentsLoaded_es {s : State} {img : TssImage} (h : selNull img.es = false) :
    (s.segmentsLoaded img).es = ((s.taskStages img).atEs.descOf img.es).toSegReg img.es := by
  have hes : (s.segmentsLoaded img).seg .es = _ := seg_dataLoaded_same _ h
  rw [(sameTables_atEs s img).descOf] at hes
  exact hes

@[simp] theorem dataLoaded_ldtr (s : State) (n : SegName) (sel : Word) : (s.dataLoaded n sel).ldtr = s.ldtr := by
  unfold State.dataLoaded
  split <;> cases n <;> simp

theorem segmentsLoaded_ldtr {s : State} {img : TssImage} (h : selNull img.ldt = false) :
    (s.segmentsLoaded img).ldtr = (s.descOf img.ldt).toSysSegReg img.ldt := by
  simp [State.segmentsLoaded, State.stackLoaded, State.csLoaded, State.ldtLoaded, h]

/-! ### The tests of an incoming task -/

/-- The tests on LDTR (R110 step 8). -/
def State.taskLdtTests (s : State) (ldt : Word) : List (Bool × (Fault × Bool)) :=
  [(selNull ldt || (!selTi ldt && s.named ldt && (s.descOf ldt).isLdt), (.incomingLdtInvalid ldt, false)),
   (selNull ldt || arPresent (s.descOf ldt).ar, (.incomingLdtInvalid ldt, true))]

/-- The tests on CS (R110 step 9). -/
def State.taskCsTests (s : State) (cs : Word) : List (Bool × (Fault × Bool)) :=
  [(s.named cs && arIsCode (s.descOf cs).ar && arCodeFits (s.descOf cs).ar (selRpl cs), (.incomingCsInvalid cs, false)),
   (arPresent (s.descOf cs).ar, (.incomingCsInvalid cs, true))]

/-- The tests on SS for level `k` (R110 step 9). -/
def State.taskSsTests (s : State) (ss : Word) (k : Level) : List (Bool × (Fault × Bool)) :=
  [(s.named ss && selRpl ss == k && arWritable (s.descOf ss).ar && arDpl (s.descOf ss).ar == k,
    (.incomingSsInvalid ss, false)),
   (arPresent (s.descOf ss).ar, (.incomingSsInvalid ss, true))]

theorem SameTables.taskSsTests {s t : State} (h : SameTables s t) (ss : Word) (k : Level) :
    t.taskSsTests ss k = s.taskSsTests ss k := by
  simp only [State.taskSsTests, h.named, h.descOf]

/-- The test on IP (R110 step 10). -/
def taskIpTests (ip limit : Word) : List (Bool × (Fault × Bool)) := [(decide (ip ≤ limit), (.ipBeyondLimit, false))]

/-- The tests of an incoming task are those of its loads, one after the other. -/
theorem tests_eq_append (g : TaskStages) (img : TssImage) (ip : Word) :
    g.tests img ip = g.atLdt.taskLdtTests img.ldt ++ (g.atCs.taskCsTests img.cs ++
      (g.atSs.taskSsTests img.ss (selRpl img.cs) ++ (g.atDs.taskDataTests img.ds (selRpl img.cs) ++
        (g.atEs.taskDataTests img.es (selRpl img.cs) ++ taskIpTests ip (g.atCs.descOf img.cs).limit)))) := by
  simp [TaskStages.tests, State.taskLdtTests, State.taskCsTests, State.taskSsTests, taskIpTests]

/-- The attempt answers `t` if no test fails, and otherwise fails on that test in a state with the property `P`. -/
def Answers (P : State → Prop) (t : State) : Option (Fault × Bool) → Attempt → Prop
  | none, r => r = .ok t
  | some f, r => ∃ u, P u ∧ r = .error (failingAlt u f.1 f.2)

theorem answers_stepAnswer {P : State → Prop} {u : State} (h : P u) (t : State) (o : Option (Fault × Bool)) :
    Answers P t o (stepAnswer u t o) := by
  cases o with
  | none => rfl
  | some f => exact ⟨u, h, rfl⟩

/-- Attempts one after the other fail on the first test that fails. -/
theorem Answers.bind {P : State → Prop} {t w : State} {o p : Option (Fault × Bool)} {r : Attempt} {f : State → Attempt}
    (h : Answers P t o r) (k : Answers P w p (f t)) : Answers P w (o.or p) (r >>= f) := by
  cases o with
  | none =>
    rw [Answers] at h
    rw [h]
    exact k
  | some e =>
    obtain ⟨u, hu, rfl⟩ := h
    exact ⟨u, hu, rfl⟩

theorem answers_ok {P : State → Prop} {t : State} {r : Attempt} (h : Answers P t none r) : r = .ok t := h

theorem answers_error {P : State → Prop} {t : State} {o : Option (Fault × Bool)} {h : Failure}
    (ha : Answers P t o (.error h)) : P h.left := by
  cases o with
  | none => cases ha
  | some f =>
    obtain ⟨u, hu, he⟩ := ha
    cases he
    exact hu

section

variable {P : State → Prop} {s : State}

theorem loadLdt_answers (h : P s) (ldt : Word) :
    Answers P (s.ldtLoaded ldt) (firstFailed (s.taskLdtTests ldt)) (s.loadLdt ldt) := by
  rw [loadLdt_tests]
  exact answers_stepAnswer h _ _

/-- A failed check of CS leaves CPL at the RPL of the selector (R110 step 9). -/
theorem loadTaskCs_answers {cs : Word} (h : P (s.setCpl (selRpl cs))) :
    Answers P (s.csLoaded cs) (firstFailed (s.taskCsTests cs)) (s.loadTaskCs cs) := by
  rw [loadTaskCs_tests]
  exact answers_stepAnswer h _ _

theorem loadTaskSs_answers (h : P s) (ss : Word) :
    Answers P (s.loadSeg .ss ss (s.descOf ss)) (firstFailed (s.taskSsTests ss s.cpl)) (s.loadTaskSs ss) := by
  rw [loadTaskSs_tests]
  exact answers_stepAnswer h _ _

theorem loadTaskData_answers (h : P s) (n : SegName) (sel : Word) :
    Answers P (s.dataLoaded n sel) (firstFailed (s.taskDataTests sel s.cpl)) (s.loadTaskData n sel) := by
  rw [loadTaskData_tests]
  exact answers_stepAnswer h _ _

theorem checkTaskIp_answers (h : P s) : Answers P s (firstFailed (taskIpTests s.ip s.cs.limit)) s.checkTaskIp := by
  rw [checkTaskIp_tests]
  exact answers_stepAnswer h _ _

end

/-- Loading the segments of an incoming task fails on the first failing test, and otherwise answers the state with all
of them loaded (R110, steps 8 to 10). -/
theorem loadTaskSegments_answers (s : State) (img : TssImage) :
    Answers (LoadKeeps s) (s.segmentsLoaded img) (firstFailed ((s.taskStages img).tests img s.ip))
      (s.loadTaskSegments img) := by
  have kLdt := LoadKeeps.ldtLoaded s img.ldt
  have kCs := kLdt.trans (.csLoaded _ img.cs)
  have kSs := LoadKeeps.stackLoaded s img
  have kDs := kSs.trans (.dataLoaded _ .ds img.ds)
  have kEs : LoadKeeps s (s.segmentsLoaded img) := kDs.trans (.dataLoaded _ .es img.es)
  have ldt := loadLdt_answers (LoadKeeps.refl s) img.ldt
  have cs := loadTaskCs_answers (cs := img.cs) (kLdt.trans (.setCpl _ _))
  have ss := loadTaskSs_answers kCs img.ss
  have ds := loadTaskData_answers kSs .ds img.ds
  have es := loadTaskData_answers kDs .es img.es
  have ip := checkTaskIp_answers kEs
  rw [csLoaded_cpl, (sameTables_atSs s img).taskSsTests] at ss
  rw [stackLoaded_cpl, (sameTables_atDs s img).taskDataTests] at ds
  rw [dataLoaded_cpl, stackLoaded_cpl, (sameTables_atEs s img).taskDataTests] at es
  rw [kEs.ip, segmentsLoaded_cs] at ip
  simp only [tests_eq_append, firstFailed_append, State.loadTaskSegments]
  exact ldt.bind (cs.bind (ss.bind (ds.bind (es.bind ip))))

/-- Settles O60: the loads of R110 one after the other, each with its tests in the tables that the loads before it left. -/
theorem incomingTaskSegmentsLoadInOrder : Obligations.IncomingTaskSegmentsLoadInOrder := by
  rintro s img g rfl
  have hanswer := loadTaskSegments_answers s img
  refine ⟨fun hpass => ?_, fun f alt hfail => ?_⟩
  · rw [hpass] at hanswer
    have hok := answers_ok hanswer
    have h := loadTaskSegments_loaded hok
    exact ⟨_, hok, h.cpl, h.ldtSel, segmentsLoaded_ldtr, segmentsLoaded_cs s img, segmentsLoaded_ss s img, h.dsSel,
      segmentsLoaded_ds, h.esSel, segmentsLoaded_es, h.regs, h.flags, h.ip, h.tr, h.msw, h.nmiInService, h.system, h.marks⟩
  · rw [hfail] at hanswer
    obtain ⟨u, hu, herror⟩ := hanswer
    exact ⟨_, herror, rfl, rfl, hu.tr, hu.msw, hu.ip, hu.flags, hu.regs, hu.move.keepsSystem⟩

/-! ### A task without LDT and data segments -/

/-- A selector with TI = 0 names the same descriptor whatever LDTR holds (R42). -/
theorem readDesc_congr_gdt {s t : State} {sel : Word} (hti : selTi sel = false) (hm : t.mem = s.mem)
    (hg : t.gdtr = s.gdtr) : t.readDesc sel = s.readDesc sel := by
  cases hnull : selNull sel with
  | true => rw [readDesc_of_selNull hnull, readDesc_of_selNull hnull]
  | false => rw [readDesc_gdt hnull hti, readDesc_gdt hnull hti, hg, State.descAt_congr hm]

theorem returnStackAt_iff {s : State} {ss : Word} {k : Level} {e : Desc} :
    s.returnStackAt ss k e = true ↔ s.readDesc ss = some e ∧ selRpl ss = k ∧ arWritable e.ar = true ∧ arDpl e.ar = k ∧
      arPresent e.ar = true := by
  simp only [State.returnStackAt, Bool.and_eq_true, beq_iff_eq, and_assoc]

/-- Settles O33: with an absent LDT the tests are those on CS, SS and IP, and the null selectors leave memory alone. -/
theorem incomingTaskWithoutDataSegmentsLoads : Obligations.IncomingTaskWithoutDataSegmentsLoads := by
  intro s img d e hldt hds hes hcsTi hssTi hcode hstack
  obtain ⟨hcheck, hip⟩ := returnCodeAt_iff.mp hcode
  obtain ⟨hcs, hisCode, hfits, hpresent⟩ := checkReturnCs_ok.mp hcheck
  obtain ⟨hss, hrpl, hwrite, hdpl, hpresentSs⟩ := returnStackAt_iff.mp hstack
  have hcs' : (s.taskStages img).atCs.readDesc img.cs = some d :=
    (readDesc_congr_gdt (s := s) (t := (s.taskStages img).atCs) hcsTi rfl rfl).trans hcs
  obtain ⟨hcsNamed, hcsDesc⟩ := State.named_of_readDesc hcs'
  have hatSs : (s.taskStages img).atSs = (s.taskStages img).atCs.markAccessed d := by rw [← hcsDesc]; rfl
  have hss' : (s.taskStages img).atSs.readDesc img.ss = some e := by
    rw [hatSs, ← hss]
    have hmem : (s.taskStages img).atCs.mem = (s.setCpl (selRpl img.cs)).mem := rfl
    exact readDesc_congr_gdt hssTi (SameTables.markAccessed_mem hmem d) (by simp [State.taskStages])
  obtain ⟨hssNamed, hssDesc⟩ := State.named_of_readDesc hss'
  have hpass : firstFailed ((s.taskStages img).tests img s.ip) = none := by
    simp [tests_eq_append, State.taskLdtTests, State.taskCsTests, State.taskSsTests, State.taskDataTests, taskIpTests,
      hldt, hds, hes, hcsNamed, hcsDesc, hisCode, hfits, hpresent, hssNamed, hssDesc, hrpl, hwrite, hdpl, hpresentSs, hip]
  have hok : s.loadTaskSegments img = .ok (s.segmentsLoaded img) :=
    answers_ok (hpass ▸ loadTaskSegments_answers s img)
  have h := loadTaskSegments_loaded hok
  refine ⟨_, hok, h.cpl, by rw [segmentsLoaded_cs, hcsDesc], by rw [segmentsLoaded_ss, hssDesc], h.dsSel, h.esSel,
    h.ldtSel, h.regs, h.flags, h.ip, h.tr, h.msw, fun a hd he => ?_⟩
  have hdata : (s.segmentsLoaded img).read8 a = (s.stackLoaded img).read8 a := by
    simp [State.segmentsLoaded, State.dataLoaded, hds, hes]
  have hssLoad : ((s.ldtLoaded img.ldt).csLoaded img.cs).descOf img.ss = e :=
    ((sameTables_atSs s img).descOf img.ss).trans hssDesc
  have hcsLoad : (s.ldtLoaded img.ldt).descOf img.cs = d := hcsDesc
  rw [hdata, State.stackLoaded, hssLoad, read8_loadSeg_other he, State.csLoaded, hcsLoad, read8_loadSeg_other hd]
  rfl

/-! ### What a failure leaves -/

theorem answered_left {α : Type} {s : State} {v : α} {o : Option Fault} {f : Failure} (h : answered s v o = .error f) :
    f.left = s := by
  cases o with
  | none => cases h
  | some e => cases h; rfl

/-- A return by the frame that fails has changed nothing (R75, R77, R78). -/
theorem stackReturn_left {s : State} {f : Failure} (h : s.stackReturn = .error f) : f.left = s := by
  cases hframe : s.frameReadable with
  | false =>
    rw [stackReturn_unreadable hframe] at h
    cases h
    rfl
  | true =>
    rw [stackReturn_readable hframe] at h
    split at h
    · cases h
      rfl
    · split at h
      · rw [returnSameLevel_tests] at h
        exact answered_left h
      · rw [returnOuterLevel_tests] at h
        exact answered_left h

/-- The machine is in the task that the selector names, entered by an interrupt from `s` (R110 steps 6 and 7, R111). -/
structure InIncomingTask (s t : State) (sel : Word) : Prop where
  tr : t.tr.sel = sel
  msw : t.msw = s.msw ||| 0x0008#16
  nested : flagNt t.flags = true

theorem inIncomingTask_of_load {s t : State} {new : Word} {d : Desc} {r : Word} {img : TssImage}
    (h : LoadKeeps ((s.leaveTask new d .nest r).loadTask .nest img) t) : InIncomingTask s t new := by
  obtain ⟨-, -, -, -, -, -, -, -, -, htr, hmsw, -⟩ := leaveTask_fields s new d .nest r
  refine ⟨?_, h.msw.trans hmsw, ?_⟩
  · rw [h.tr, State.loadTask_tr, htr]
    rfl
  · rw [h.flags]
    exact flagNt_setNt _

/-- A task switch that fails has changed nothing, or is past the point of no return (R110). -/
theorem taskSwitch_left {s : State} {new : Word} {d : Desc} {r : Word} {f : Failure}
    (h : s.taskSwitch new d .nest r = .error f) : f.left = s ∨ InIncomingTask s f.left new := by
  unfold State.taskSwitch at h
  split at h
  · cases h
    exact .inl rfl
  · exact .inr (inIncomingTask_of_load (answers_error (h ▸ loadTaskSegments_answers _ _)))

theorem taskSwitch_inIncomingTask {s t : State} {new : Word} {d : Desc} {r : Word}
    (h : s.taskSwitch new d .nest r = .ok t) : InIncomingTask s t new := by
  obtain ⟨_, hload⟩ := taskSwitch_ok.mp h
  obtain ⟨hloaded, -, htr, hmsw, -, -⟩ := loadTaskSegments_switched rfl hload
  exact ⟨by rw [htr]; rfl, hmsw, flagNt_of_taskLoaded hloaded⟩

theorem pushTaskErr_left {s : State} {err : Option Word} {f : Failure} (h : s.pushTaskErr err = .error f) : f.left = s := by
  cases err with
  | none => cases h
  | some e =>
    have hpush : s.push16 e = .error f := h
    cases hfits : segWriteOk s.ss (s.regs.sp - 2#16) 2 with
    | true => rw [push16_fits hfits] at hpush; cases hpush
    | false => rw [push16_stackLimit hfits] at hpush; cases hpush; rfl

theorem taskGatePath_left {s : State} {g : Desc} {r : Word} {err : Option Word} {f : Failure}
    (h : s.taskGatePath g r err = .error f) : f.left = s ∨ InIncomingTask s f.left g.gateSelector := by
  rw [taskGatePath_tests] at h
  split at h
  · cases h
    exact .inl rfl
  · split at h
    · rename_i hswitch
      cases h
      exact taskSwitch_left hswitch
    · rename_i hswitch
      rw [pushTaskErr_left h]
      exact .inr (taskSwitch_inIncomingTask hswitch)

theorem gatePath_left {s : State} {g : Desc} {r : Word} {err : Option Word} {clear : Bool} {f : Failure}
    (h : s.gatePath g r err clear = .error f) : f.left = s := by
  unfold State.gatePath at h
  split at h
  · rename_i hcheck
    cases h
    exact checkGate_left hcheck
  · cases h

/-- A delivery that fails has changed nothing, or has left the machine in the task of its gate (R98, R110). -/
theorem deliver_left {s : State} {v : Byte} {k : EventKind} {r : Word} {err : Option Word} {f : Failure}
    (h : s.deliver v k r err = .error f) :
    f.left = s ∨ ((s.idtEntry v).isTaskGate = true ∧ InIncomingTask s f.left (s.idtEntry v).gateSelector) := by
  cases ho : s.idtLookup v k with
  | error g =>
    rw [State.deliver, ho] at h
    cases h
    exact .inl (idtLookup_left ho)
  | ok g =>
    rw [deliver_gate (idtLookup_ok.mp ho).1] at h
    split at h
    · rename_i htask
      exact (taskGatePath_left h).imp_right fun hin => ⟨htask, hin⟩
    · exact .inl (gatePath_left h)

/-- Settles O48: only the loads of an incoming task fail after a change. -/
theorem failedEntryOrReturnChangesNothing : Obligations.FailedEntryOrReturnChangesNothing := by
  refine ⟨fun s v k retIp err f h => (deliver_left h).imp_right fun ⟨htask, hin⟩ => ⟨htask, hin.tr, hin.msw, hin.nested⟩,
    fun s f hnt h => ?_⟩
  simp only [State.returnFromInterrupt, hnt, Bool.false_eq_true, if_false] at h
  cases hreturn : s.stackReturn with
  | ok u => simp [hreturn] at h
  | error g =>
    obtain rfl : g = f := by simpa [hreturn] using h
    exact stackReturn_left hreturn

end Sys2Proof.Machine
end

section
/-! The proofs about what becomes of a failed check: the fault, the exception of R115, the double fault, the shutdown. -/

namespace Sys2Proof.Machine

/-! ### The outcome of a failed check -/

section

variable {f : Failure} {ext : Bool}

/-- A machine that stops at failed checks ends with the fault (R114). -/
theorem settle_stopped (hd : f.left.params.deliverFaults = false) : settle ext (.error f) = .fault f.reason := by
  simp [settle, hd]

theorem settle_reported (hd : f.left.params.deliverFaults = true) : settle ext (.error f) = f.deliverException ext :=
  if_pos hd

theorem deliverException_delivered {t : State}
    (h : f.left.deliver f.vector .exception f.left.ip (f.errorCode ext) = .ok t) : f.deliverException ext = .next t := by
  rw [Failure.deliverException, h]

theorem deliverException_double {g : Failure} {t : State}
    (h : f.left.deliver f.vector .exception f.left.ip (f.errorCode ext) = .error g)
    (hg : g.left.deliver 8#8 .exception g.left.ip (some 0x0000#16) = .ok t) : f.deliverException ext = .next t := by
  simp only [Failure.deliverException, h, hg]

theorem deliverException_shutdown {g e : Failure}
    (h : f.left.deliver f.vector .exception f.left.ip (f.errorCode ext) = .error g)
    (hg : g.left.deliver 8#8 .exception g.left.ip (some 0x0000#16) = .error e) :
    f.deliverException ext = .fault .shutdown := by
  simp only [Failure.deliverException, h, hg]

end

/-! ### Error codes -/

/-- The EXT bit as a number (R107). -/
def extBit (ext : Bool) : Word := if ext then 0x0001#16 else 0x0000#16

/-- To set bit 0 of an even word is to add 1. -/
theorem or_one_of_even {c : Word} (h : c &&& 0x0001#16 = 0#16) : c ||| 0x0001#16 = c + 0x0001#16 :=
  (BitVec.add_eq_or_of_and_eq_zero _ _ h).symm

theorem vectorCode_even (v : Byte) : vectorCode v &&& 0x0001#16 = 0#16 := by
  have hv := v.isLt
  apply BitVec.eq_of_toNat_eq
  rw [vectorCode, BitVec.toNat_and, show (0x0001#16).toNat = 1 from rfl, Nat.and_one_is_mod]
  simp only [BitVec.toNat_add, BitVec.toNat_mul, BitVec.toNat_setWidth, BitVec.toNat_ofNat]
  omega

theorem selectorCode_even (sel : Word) : selectorCode sel &&& 0x0001#16 = 0#16 := by
  rw [selectorCode, BitVec.and_assoc]
  exact BitVec.and_zero

/-- An error code without EXT is 0, or names a vector or a selector, and so is even (R107). -/
theorem baseCode_even (f : Failure) : ∀ c ∈ f.baseCode, c &&& 0x0001#16 = 0#16 := by
  unfold Failure.baseCode
  split <;> simp [vectorCode_even, selectorCode_even]

/-- The EXT bit is added where the row of R115 has it. -/
theorem errorCode_eq (f : Failure) (ext : Bool) :
    f.errorCode ext = if f.hasExt then f.baseCode.map (· + extBit ext) else f.baseCode := by
  rw [Failure.errorCode]
  cases hc : f.baseCode with
  | none => simp
  | some c =>
    cases f.hasExt <;> cases ext <;> simp [extBit, or_one_of_even (baseCode_even f c hc)]

/-- Settles O50: the three ways in which a failed check ends, and the two columns of R115 row by row. -/
theorem failedChecksAreDeliveredOnRequest : Obligations.FailedChecksAreDeliveredOnRequest := by
  refine ⟨fun s i v retIp hi hd hlimit hgate hdpl => ?_, fun f ext => ⟨settle_stopped, fun hd => ?_⟩, fun f ext hne => ?_⟩
  · obtain ⟨-, -, hrefused, -⟩ := idtEntryTestsComeInOrder s v .software retIp none
    have hexec : exec i s = (failing s (.gateDplBelowCpl v)).deliverException false := by
      rw [exec_softwareEvent hi, hrefused hlimit hgate rfl hdpl]
      exact settle_reported hd
    rw [hexec]
    exact ⟨fun t h => deliverException_delivered h, fun g t h hg => deliverException_double h hg,
      fun g e h hg => deliverException_shutdown h hg⟩
  · rw [settle_reported hd]
    exact ⟨fun t h => deliverException_delivered h, fun g t h hg => deliverException_double h hg,
      fun g e h hg => deliverException_shutdown h hg⟩
  · obtain ⟨reason, alt, left⟩ := f
    rw [errorCode_eq]
    cases reason <;>
      simp [Failure.vector, Failure.hasExt, Failure.baseCode, extBit, vectorCode, selectorCode] at hne ⊢

end Sys2Proof.Machine
end

section
/-! The proofs about the launch: what an accepted launch state meets, and the refusal of a state that breaks a condition. -/

namespace Sys2Proof.Machine

/-! ### The conditions of R129 -/

/-- The conditions of R129 that have a test, all met. -/
structure LaunchMet (s : State) : Prop where
  protectedMode : s.launch1 = true
  code : s.launch2 = true
  stack : s.launch3 = true
  data : s.launch4 = true
  caches : s.launch5 = true
  task : s.launch6 = true
  ldt : s.launch7 = true
  flags : s.launch8 = true

/-- No condition is broken where each is met: the tests come one after the other, and a failing one names its number. -/
theorem launchMet_of_unbroken {s : State} (h : s.brokenCondition = none) : LaunchMet s := by
  unfold State.brokenCondition at h
  iterate 8
    split at h
    · cases h
  constructor <;> simp_all

theorem brokenCondition_of_realMode {s : State} (h : s.msw.getLsbD 0 = false) : s.brokenCondition = some 1 := by
  rw [State.brokenCondition, State.launch1, h]
  rfl

section

variable {s : State}

theorem launch2_iff :
    s.launch2 = true ↔ codeHeld s.cs.ar s.cpl = true ∧ selRpl s.cs.sel = s.cpl ∧ s.ip ≤ s.cs.limit := by
  simp [State.launch2, and_assoc]

theorem launch3_iff : s.launch3 = true ↔ stackHeld s.ss.ar s.cpl = true ∧ selRpl s.ss.sel = s.cpl := by
  simp [State.launch3]

theorem launch8_iff : s.launch8 = true ↔ s.flagsFixed = true ∧ flagTf s.flags = false := by
  simp [State.launch8, State.flagsFixed]

/-- A register whose cache agrees with memory names a descriptor, so its selector is not null (R42). -/
theorem selNull_of_cacheAgrees {g : SegReg} (h : s.cacheAgrees g = true) : selNull g.sel = false := by
  unfold State.cacheAgrees at h
  split at h
  · cases h
  · rename_i hread
    exact readDesc_some_not_null hread

/-- Condition 5 asks of CS and SS that they name descriptors. -/
theorem selNull_of_launch5 (h : s.launch5 = true) : selNull s.cs.sel = false ∧ selNull s.ss.sel = false := by
  simp only [State.launch5, Bool.and_eq_true] at h
  obtain ⟨⟨⟨hcs, hss⟩, _⟩, _⟩ := h
  exact ⟨selNull_of_cacheAgrees hcs, selNull_of_cacheAgrees hss⟩

/-- Condition 6: TR caches the descriptor that its selector names, so the limit tested is that of TR. -/
theorem taskRegister_of_launch6 (h : s.launch6 = true) :
    selNull s.tr.sel = false ∧ selTi s.tr.sel = false ∧ tssMinLimit ≤ s.tr.limit := by
  simp only [State.launch6, Bool.and_eq_true, Bool.not_eq_true'] at h
  obtain ⟨hti, hdesc⟩ := h
  split at hdesc
  · cases hdesc
  · rename_i d hread
    simp only [Bool.and_eq_true, decide_eq_true_eq, beq_iff_eq] at hdesc
    obtain ⟨⟨_, hlimit⟩, hcache⟩ := hdesc
    have htr : s.tr.limit = d.limit := congrArg SysSegReg.limit hcache
    exact ⟨readDesc_some_not_null hread, hti, htr ▸ hlimit⟩

/-- Condition 7: LDTR is null or names its table through the GDT. -/
theorem ldtRegister_of_launch7 (h : s.launch7 = true) : selNull s.ldtr.sel = true ∨ selTi s.ldtr.sel = false := by
  simp only [State.launch7, Bool.or_eq_true, Bool.and_eq_true, Bool.not_eq_true'] at h
  exact h.imp_right And.left

end

/-! ### The first step of a state not yet launched -/

/-- Settles O12: the first step tests the conditions in order, the first of them protected mode. -/
theorem badLaunchStatesAreRefused : Obligations.BadLaunchStatesAreRefused := by
  intro s hl
  have refuse : ∀ n, s.brokenCondition = some n → step s = .refused (.badLaunchState n) := fun n hn => by
    simp [step, State.accept, hl, hn]
  refine ⟨refuse, fun hreal => refuse 1 (brokenCondition_of_realMode hreal), fun hmet => ?_⟩
  have met := launchMet_of_unbroken hmet
  obtain ⟨_, hcs, hip⟩ := launch2_iff.mp met.code
  obtain ⟨_, hss⟩ := launch3_iff.mp met.stack
  obtain ⟨hfixed, htf⟩ := launch8_iff.mp met.flags
  exact ⟨met.protectedMode, hcs, hip, hss, htf, hfixed⟩

end Sys2Proof.Machine
end

section
/-! The proofs about the protection state of a launched machine: what CS, SS, DS, ES, TR and LDTR hold, and that every
entry, return and task switch leaves them so. -/

namespace Sys2Proof.Machine

/-! ### What the registers hold -/

/-- The register holds a code segment that level `k` may run (R129, condition 2). -/
structure CodeRegister (g : SegReg) (k : Level) : Prop where
  named : selNull g.sel = false
  held : codeHeld g.ar k = true
  rpl : selRpl g.sel = k

/-- The register holds a stack segment of level `k` (R129, condition 3). -/
structure StackRegister (g : SegReg) (k : Level) : Prop where
  named : selNull g.sel = false
  held : stackHeld g.ar k = true
  rpl : selRpl g.sel = k

/-- The register names through the GDT a TSS that is large enough (R129, condition 6). -/
structure TaskRegister (g : SysSegReg) : Prop where
  named : selNull g.sel = false
  global : selTi g.sel = false
  large : tssMinLimit ≤ g.limit

/-- CS, SS, DS, ES, TR and LDTR hold what the present level allows (R129, conditions 2 to 4, 6 and 7; log 22). -/
structure RegistersProtected (s : State) : Prop where
  code : CodeRegister s.cs s.cpl
  stack : StackRegister s.ss s.cpl
  ds : dataHeld s.ds s.cpl = true
  es : dataHeld s.es s.cpl = true
  task : TaskRegister s.tr
  ldt : selNull s.ldtr.sel = true ∨ selTi s.ldtr.sel = false

section

variable {s t : State}

theorem codeSafe_iff : s.codeSafe = true ↔ CodeRegister s.cs s.cpl := by
  simp only [State.codeSafe, State.levelAgrees, Bool.and_eq_true, Bool.not_eq_true', beq_iff_eq]
  exact ⟨fun ⟨⟨named, held⟩, rpl⟩ => ⟨named, held, rpl⟩, fun ⟨named, held, rpl⟩ => ⟨⟨named, held⟩, rpl⟩⟩

theorem stackSafe_iff : s.stackSafe = true ↔ StackRegister s.ss s.cpl := by
  simp only [State.stackSafe, Bool.and_eq_true, Bool.not_eq_true', beq_iff_eq]
  exact ⟨fun ⟨⟨named, held⟩, rpl⟩ => ⟨named, held, rpl⟩, fun ⟨named, held, rpl⟩ => ⟨⟨named, held⟩, rpl⟩⟩

theorem taskSafe_iff :
    s.taskSafe = true ↔ TaskRegister s.tr ∧ (selNull s.ldtr.sel = true ∨ selTi s.ldtr.sel = false) := by
  simp only [State.taskSafe, Bool.and_eq_true, Bool.or_eq_true, Bool.not_eq_true', decide_eq_true_eq]
  exact ⟨fun ⟨⟨⟨named, global⟩, large⟩, ldt⟩ => ⟨⟨named, global, large⟩, ldt⟩,
    fun ⟨⟨named, global, large⟩, ldt⟩ => ⟨⟨⟨named, global⟩, large⟩, ldt⟩⟩

/-- The protection state of R129: a launched machine that stops at failed checks, in protected mode, with the fixed flag
bits and the six registers as the level allows. -/
theorem protectionHolds_iff :
    s.protectionHolds = true ↔
      s.launched = true ∧ s.params.deliverFaults = false ∧ s.msw.getLsbD 0 = true ∧ s.flagsFixed = true ∧
        RegistersProtected s := by
  simp only [State.protectionHolds, State.dataSafe, Bool.and_eq_true, Bool.not_eq_true', codeSafe_iff, stackSafe_iff,
    taskSafe_iff]
  constructor
  · rintro ⟨⟨⟨⟨⟨⟨⟨hl, hd⟩, hpe⟩, hf⟩, code⟩, stack⟩, ds, es⟩, task, ldt⟩
    exact ⟨hl, hd, hpe, hf, code, stack, ds, es, task, ldt⟩
  · rintro ⟨hl, hd, hpe, hf, code, stack, ds, es, task, ldt⟩
    exact ⟨⟨⟨⟨⟨⟨⟨hl, hd⟩, hpe⟩, hf⟩, code⟩, stack⟩, ds, es⟩, task, ldt⟩

end

/-- Settles O18: each fact of the invariant is one of the conditions that the launch tests. -/
theorem acceptedLaunchIsProtected : Obligations.AcceptedLaunchIsProtected := by
  intro s hmet hd
  have met := launchMet_of_unbroken hmet
  obtain ⟨hcode, hcs, _⟩ := launch2_iff.mp met.code
  obtain ⟨hstack, hss⟩ := launch3_iff.mp met.stack
  obtain ⟨csNamed, ssNamed⟩ := selNull_of_launch5 met.caches
  obtain ⟨hds, hes⟩ : dataHeld s.ds s.cpl = true ∧ dataHeld s.es s.cpl = true := by
    simpa [State.launch4] using met.data
  obtain ⟨trNamed, trGlobal, trLarge⟩ := taskRegister_of_launch6 met.task
  obtain ⟨hfixed, _⟩ := launch8_iff.mp met.flags
  exact protectionHolds_iff.mpr ⟨rfl, hd, met.protectedMode, hfixed,
    ⟨csNamed, hcode, hcs⟩, ⟨ssNamed, hstack, hss⟩, hds, hes, ⟨trNamed, trGlobal, trLarge⟩,
    ldtRegister_of_launch7 met.ldt⟩

section

variable {s t : State}

/-- CPL and the six registers alone matter. -/
theorem RegistersProtected.congr (h : RegistersProtected s) (hcpl : t.cpl = s.cpl) (hcs : t.cs = s.cs)
    (hss : t.ss = s.ss) (hds : t.ds = s.ds) (hes : t.es = s.es) (htr : t.tr = s.tr) (hldtr : t.ldtr = s.ldtr) :
    RegistersProtected t := by
  refine ⟨?_, ?_, ?_, ?_, ?_, ?_⟩ <;> simp only [hcpl, hcs, hss, hds, hes, htr, hldtr]
  exacts [h.code, h.stack, h.ds, h.es, h.task, h.ldt]

/-! ### What a segment load puts into CS and SS -/

/-- A present code segment that suits level `k`, loaded under a selector with RPL = `k` (R55). -/
theorem codeRegister_toSegReg {sel : Word} {d : Desc} {k : Level} (named : selNull sel = false) (rpl : selRpl sel = k)
    (hcode : arIsCode d.ar = true) (hfits : arCodeFits d.ar k = true) (hpresent : arPresent d.ar = true) :
    CodeRegister (d.toSegReg sel) k :=
  ⟨named, by simp [codeHeld, Desc.toSegReg, hcode, hfits, hpresent], rpl⟩

/-- A present writable data segment of level `k`, loaded under a selector with RPL = `k` (R55). -/
theorem stackRegister_toSegReg {sel : Word} {e : Desc} {k : Level} (named : selNull sel = false) (rpl : selRpl sel = k)
    (hwritable : arWritable e.ar = true) (hdpl : arDpl e.ar = k) (hpresent : arPresent e.ar = true) :
    StackRegister (e.toSegReg sel) k :=
  ⟨named, by simp [stackHeld, Desc.toSegReg, hwritable, hdpl, hpresent], rpl⟩

/-- The code segment that a return finds under a selector with RPL = `k` (R77, R78). -/
theorem codeRegister_of_returnCodeAt {cs ip : Word} {k : Level} {d : Desc} (h : s.returnCodeAt cs ip k d = true)
    (rpl : selRpl cs = k) : CodeRegister (d.toSegReg cs) k := by
  obtain ⟨hcheck, _⟩ := returnCodeAt_iff.mp h
  obtain ⟨hread, hcode, hfits, hpresent⟩ := checkReturnCs_ok.mp hcheck
  exact codeRegister_toSegReg (readDesc_some_not_null hread) rpl hcode hfits hpresent

theorem stackRegister_of_returnStackAt {ss : Word} {k : Level} {e : Desc} (h : s.returnStackAt ss k e = true) :
    StackRegister (e.toSegReg ss) k := by
  obtain ⟨hread, hrpl, hwritable, hdpl, hpresent⟩ := returnStackAt_iff.mp h
  exact stackRegister_toSegReg (readDesc_some_not_null hread) hrpl hwritable hdpl hpresent

/-- The code segment of a handler at level `k`, which becomes the RPL of CS (R101, R104, R105). -/
theorem codeRegister_of_handlerAt {g d : Desc} {k : Level} (h : s.handlerAt g d = true)
    (hfits : arCodeFits d.ar k = true) : CodeRegister (d.toSegReg (selWithRpl g.gateSelector k)) k := by
  simp only [State.handlerAt, Bool.and_eq_true, beq_iff_eq] at h
  obtain ⟨⟨⟨hread, hcode⟩, hpresent⟩, _⟩ := h
  exact codeRegister_toSegReg (by simpa using readDesc_some_not_null hread) (by simp) hcode hfits hpresent

/-- The stack segment that the TSS gives for level `k` (R105). -/
theorem stackRegister_of_innerStackAt {k : Level} {ss sp : Word} {e : Desc} (h : s.innerStackAt k ss sp e = true) :
    StackRegister (e.toSegReg ss) k := by
  simp only [State.innerStackAt, Bool.and_eq_true, beq_iff_eq] at h
  obtain ⟨⟨⟨⟨⟨_, hread⟩, hrpl⟩, hdpl⟩, hwritable⟩, hpresent⟩ := h
  exact stackRegister_toSegReg (readDesc_some_not_null hread) hrpl hwritable hdpl hpresent

/-! ### Entering a handler -/

/-- Through an interrupt or trap gate the level does not rise, so that DS and ES may stay, and SS stays with the level
(R102, R104, R105). No error code is pushed on a machine that stops at failed checks. -/
theorem gatePath_protected {g : Desc} {r : Word} {clear : Bool} (hs : RegistersProtected s)
    (h : s.gatePath g r none clear = .ok t) : RegistersProtected t := by
  obtain ⟨en, hcheck, rfl⟩ := gatePath_ok.mp h
  obtain ⟨d, hd, ⟨hconf, hlevel, newSs, newSp, e, hstack, hfits, rfl⟩ | ⟨hcode, hfits, rfl⟩⟩ := checkGate_ok.mp hcheck
  · have entered := enterGate_inner_entered (s := s) g.gateSelector d g.gateOffset r clear hfits
    obtain ⟨htr, hldtr, _⟩ := entered.task
    have hcode : arCodeFits d.ar (arDpl d.ar) = true := by simp [arCodeFits, hconf]
    refine ⟨?_, ?_, ?_, ?_, ?_, ?_⟩ <;>
      simp only [entered.cpl, entered.cs, entered.ss, entered.ds, entered.es, htr, hldtr]
    exacts [codeRegister_of_handlerAt hd hcode, stackRegister_of_innerStackAt hstack,
      dataHeld_mono (BitVec.le_of_lt hlevel) hs.ds, dataHeld_mono (BitVec.le_of_lt hlevel) hs.es, hs.task, hs.ldt]
  · have entered := enterGate_same_entered (s := s) g.gateSelector d g.gateOffset r clear hfits
    obtain ⟨htr, hldtr, _⟩ := entered.task
    refine ⟨?_, ?_, ?_, ?_, ?_, ?_⟩ <;>
      simp only [entered.cpl, entered.cs, entered.ss, entered.ds, entered.es, htr, hldtr]
    exacts [codeRegister_of_handlerAt hd hcode, hs.stack, hs.ds, hs.es, hs.task, hs.ldt]

/-! ### Switching tasks -/

/-- Step 8 of R110 refuses a selector for LDTR that is neither null nor global. -/
theorem ldt_of_loadLdt {ldt : Word} (h : s.loadLdt ldt = .ok t) : selNull ldt = true ∨ selTi ldt = false := by
  rcases loadLdt_ok h with ⟨hnull, _⟩ | ⟨hti, _⟩
  · exact .inl hnull
  · exact .inr hti

/-- Whatever the task left held, the segments of an incoming task are loaded as its level allows (R110, steps 8 to 10). -/
theorem loadTaskSegments_protected {img : TssImage} (htask : TaskRegister s.tr)
    (h : s.loadTaskSegments img = .ok t) : RegistersProtected t := by
  have loaded := loadTaskSegments_loaded h
  obtain ⟨a, b, c, d, hldt, hcs, hss, hds, hes, _⟩ := loadTaskSegments_ok.mp h
  obtain ⟨dcpl, _, _, _, dseg⟩ := loadTaskData_fields hds
  obtain ⟨tcpl, _, _, _, tseg⟩ := loadTaskData_fields hes
  have tcs : t.cs = c.cs := (tseg .cs (by decide)).trans (dseg .cs (by decide))
  have tss : t.ss = c.ss := (tseg .ss (by decide)).trans (dseg .ss (by decide))
  have tds : t.ds = d.ds := tseg .ds (by decide)
  obtain ⟨dc, readCs, hcode, hfits, csPresent, rfl⟩ := loadTaskCs_ok.mp hcs
  obtain ⟨ds, readSs, hrpl, hwritable, hdpl, ssPresent, rfl⟩ := loadTaskSs_ok.mp hss
  have hcpl : ((a.setCpl (selRpl img.cs)).loadSeg .cs img.cs dc).cpl = t.cpl := by simp [loaded.cpl]
  rw [hcpl] at hrpl hdpl
  refine ⟨?_, ?_, ?_, loadTaskData_held hes, loaded.tr ▸ htask, loaded.ldtSel ▸ ldt_of_loadLdt hldt⟩
  · rw [tcs, State.loadSeg_ss_cs, State.loadSeg_cs_cs]
    exact codeRegister_toSegReg (readDesc_some_not_null readCs) loaded.cpl.symm hcode (loaded.cpl ▸ hfits) csPresent
  · rw [tss, State.loadSeg_ss_ss]
    exact stackRegister_toSegReg (readDesc_some_not_null readSs) hrpl hwritable hdpl ssPresent
  · rw [tds, tcpl]
    exact loadTaskData_held hds

/-- A task switch leaves the registers of the incoming task, and in TR the selector of its TSS (R110). -/
theorem taskSwitch_protected {new : Word} {d : Desc} {cause : SwitchCause} {r : Word}
    (hread : s.readDesc new = some d) (hti : selTi new = false) (h : s.taskSwitch new d cause r = .ok t) :
    RegistersProtected t := by
  obtain ⟨hlimit, hload⟩ := taskSwitch_ok.mp h
  have htask : TaskRegister (d.toSysSegReg new) := ⟨readDesc_some_not_null hread, hti, hlimit⟩
  obtain ⟨-, -, -, -, -, -, -, -, -, htr, -⟩ := leaveTask_fields s new d cause r
  exact loadTaskSegments_protected (htr ▸ htask) hload

theorem taskGatePath_protected {g : Desc} {r : Word} (h : s.taskGatePath g r none = .ok t) : RegistersProtected t := by
  obtain ⟨hti, d, hread, _, _, w, hswitch, hpush⟩ := taskGatePath_ok.mp h
  cases hpush
  exact taskSwitch_protected hread hti hswitch

/-- A delivery without an error code, through any of the three gates (R98). -/
theorem deliver_protected {v : Byte} {k : EventKind} {r : Word} (hs : RegistersProtected s)
    (h : s.deliver v k r none = .ok t) : RegistersProtected t := by
  obtain ⟨_, ⟨_, htask⟩ | ⟨_, hgate⟩⟩ := deliver_ok.mp h
  · exact taskGatePath_protected htask
  · exact gatePath_protected hs hgate

/-! ### Returning -/

/-- The clean-up leaves in DS and ES nothing that the outer level may not read: a register it does not make null holds
a conforming segment or one of that level (R78). -/
theorem cleanDataSeg_held {g : SegReg} {k l : Level} (h : dataHeld g k = true) :
    dataHeld (cleanDataSeg l g) l = true := by
  by_cases keep : selNull g.sel = true ∨ arConforming g.ar = true ∨ l ≤ arDpl g.ar
  · rw [cleanDataSeg_keep keep]
    simp only [dataHeld, Bool.or_eq_true, Bool.and_eq_true, decide_eq_true_eq] at h ⊢
    tauto
  · push Not at keep
    obtain ⟨hnull, hconf, hdpl⟩ := keep
    simp only [ne_eq, Bool.not_eq_true] at hnull hconf
    have hsegment : arIsSegment g.ar = true := by
      simp only [dataHeld, hnull, Bool.false_or, Bool.and_eq_true, arReadable, arIsData, arIsCode] at h
      obtain ⟨⟨_, hreadable⟩, _⟩ := h
      by_contra hsystem
      simp [hsystem] at hreadable
    rw [cleanDataSeg_null hnull hsegment hconf (BitVec.not_le.mp hdpl)]
    simp [dataHeld, SegReg.asNull, selNull]

/-- A return by the frame: at the same level CS alone is loaded, at an outer level CS and SS, and DS and ES are cleaned
up (R77, R78). -/
theorem stackReturn_protected (hs : RegistersProtected s) (h : s.stackReturn = .ok t) : RegistersProtected t := by
  obtain ⟨_, ⟨hrpl, hsame⟩ | ⟨_, houter⟩⟩ := stackReturn_ok.mp h
  · obtain ⟨d, hcode, rfl⟩ := returnSameLevel_ok.mp hsame
    exact ⟨by simpa using codeRegister_of_returnCodeAt hcode hrpl, by simpa using hs.stack, by simpa using hs.ds,
      by simpa using hs.es, by simpa using hs.task, by simpa using hs.ldt⟩
  · obtain ⟨_, _, d, e, hcode, hstack, rfl⟩ := returnOuterLevel_ok.mp houter
    have returned := leaveLevel_cleanData_returned s d e
    obtain ⟨htr, hldtr, _⟩ := returned.task
    refine ⟨?_, ?_, ?_, ?_, ?_, ?_⟩ <;>
      simp only [returned.cpl, returned.cs, returned.ss, returned.ds, returned.es, htr, hldtr]
    exacts [codeRegister_of_returnCodeAt hcode rfl, stackRegister_of_returnStackAt hstack, cleanDataSeg_held hs.ds,
      cleanDataSeg_held hs.es, hs.task, hs.ldt]

theorem taskReturn_protected (h : s.taskReturn = .ok t) : RegistersProtected t := by
  obtain ⟨hti, d, hread, _, _, hswitch⟩ := taskReturn_ok.mp h
  exact taskSwitch_protected hread hti hswitch

theorem returnFromInterrupt_protected (hs : RegistersProtected s) (h : s.returnFromInterrupt = .ok t) :
    RegistersProtected t := by
  obtain ⟨u, hu, rfl⟩ := returnFromInterrupt_ok.mp h
  have hprotected : RegistersProtected u := by
    split at hu
    · exact taskReturn_protected hu
    · exact stackReturn_protected hs hu
  exact hprotected.congr rfl rfl rfl rfl rfl rfl rfl

/-! ### Every step -/

/-- On a machine that stops at failed checks a procedure's outcome is a next state only where nothing failed (R114). -/
theorem ok_of_settle_next {ext : Bool} {r : Attempt} (hd : s.params.deliverFaults = false)
    (hm : Attempt.all (CpuMove s) r) (h : settle ext r = .next t) : r = .ok t := by
  rcases settle_next h with hok | ⟨f, rfl, hf, _⟩
  · exact hok
  · rw [(Attempt.all_error.mp hm).params, hd] at hf
    cases hf

theorem settle_deliver_protected {ext : Bool} {v : Byte} {k : EventKind} {r : Word}
    (hd : s.params.deliverFaults = false) (hs : RegistersProtected s)
    (h : settle ext (s.deliver v k r none) = .next t) : RegistersProtected t :=
  deliver_protected hs (ok_of_settle_next hd (move_deliver s v k r none) h)

/-- LIDT loads IDTR and advances IP, or does not complete (R82). -/
theorem exec_lidt_protected {m : MemOperand} (hd : s.params.deliverFaults = false) (hs : RegistersProtected s)
    (h : exec (.lidt m) s = .next t) : RegistersProtected t := by
  by_cases hcpl : s.cpl = 0#2
  · cases hop : s.lidtOperandOk m with
    | true =>
      rw [exec_lidt_loads hcpl hop] at h
      cases h
      exact hs.congr rfl rfl rfl rfl rfl rfl rfl
    | false =>
      rw [exec_lidt_unreadable hd hcpl hop] at h
      cases h
  · rw [exec_lidt_unprivileged hd hcpl] at h
    cases h

/-- OUT writes the 8259 and advances IP, or does not complete (R86). -/
theorem exec_outDxAl_protected (hd : s.params.deliverFaults = false) (hs : RegistersProtected s)
    (h : exec .outDxAl s = .next t) : RegistersProtected t := by
  by_cases hcpl : s.cpl ≤ flagIopl s.flags
  · obtain ⟨p, hp⟩ := ioWrite_pic s s.regs.dx (s.regs.read8 .al)
    rw [exec_outDxAl_permitted hcpl, hp] at h
    cases h
    exact hs.congr rfl rfl rfl rfl rfl rfl rfl
  · rw [exec_outDxAl_unprivileged (BitVec.not_le.mp hcpl), settle_failing_fault hd] at h
    cases h

theorem exec_protected {i : Instr} (hd : s.params.deliverFaults = false) (hs : RegistersProtected s)
    (h : exec i s = .next t) : RegistersProtected t := by
  cases i with
  | intN n => exact settle_deliver_protected hd hs h
  | int3 => exact settle_deliver_protected hd hs h
  | into =>
    cases hof : flagOf s.flags with
    | true =>
      have hevent : softwareEvent s .into = some (4#8, s.ip + 1#16) := if_pos hof
      rw [exec_softwareEvent hevent] at h
      exact settle_deliver_protected hd hs h
    | false =>
      simp only [exec, execInto, hof, Bool.false_eq_true, if_false] at h
      cases h
      exact hs.congr rfl rfl rfl rfl rfl rfl rfl
  | iret => exact returnFromInterrupt_protected hs (returnFromInterrupt_of_exec hd h)
  | lidt m => exact exec_lidt_protected hd hs h
  | movR8Imm8 r v => cases h; exact hs.congr rfl rfl rfl rfl rfl rfl rfl
  | movR16Imm16 r v => cases h; exact hs.congr rfl rfl rfl rfl rfl rfl rfl
  | outDxAl => exact exec_outDxAl_protected hd hs h

theorem runInstruction_protected (hd : s.params.deliverFaults = false) (hs : RegistersProtected s)
    (h : s.runInstruction = .next t) : RegistersProtected t := by
  rcases runInstruction_next h with ⟨i, _, hexec⟩ | ⟨r, hfault⟩
  · exact exec_protected hd hs hexec
  · rw [settle_failing_fault hd] at hfault
    cases hfault

/-- What a boundary records of NMI, INTR and the 8259 takes no part in the protection state, so that each of its three
ends keeps it (R93). -/
theorem boundary_protected (hd : s.params.deliverFaults = false) (hs : RegistersProtected s)
    (h : s.boundary = .next t) : RegistersProtected t := by
  have harrive : RegistersProtected s.arrive := hs.congr rfl rfl rfl rfl rfl rfl rfl
  rcases boundary_next h with ⟨_, hnmi⟩ | ⟨_, _, hintr⟩ | ⟨_, _, hrun⟩
  · exact settle_deliver_protected (s := s.arrive.beginNmiService) hd (harrive.congr rfl rfl rfl rfl rfl rfl rfl) hnmi
  · exact settle_deliver_protected (s := (s.arrive.acknowledge s.boundaryInput).2) hd
      (harrive.congr rfl rfl rfl rfl rfl rfl rfl) hintr
  · exact runInstruction_protected (s := s.arrive) hd harrive hrun

theorem step_protected (hl : s.launched = true) (hd : s.params.deliverFaults = false) (hs : RegistersProtected s)
    (h : step s = .next t) : RegistersProtected t := by
  obtain ⟨u, haccept, hboundary⟩ := step_next h
  rcases accept_ok.mp haccept with ⟨_, _, rfl⟩ | ⟨hl', _⟩
  · exact boundary_protected hd hs hboundary
  · simp [hl] at hl'

end

/-- Settles O17: the launch, the parameters and MSW.PE are kept by every step (O20), the fixed flag bits by O16, and the
registers by every entry, return and task switch. -/
theorem stepKeepsProtection : Obligations.StepKeepsProtection := by
  intro s t hs h
  obtain ⟨hl, hd, hpe, hfixed, hregs⟩ := protectionHolds_iff.mp hs
  obtain ⟨_, hparams, hpe', hl'⟩ := stepKeepsGdtrAndProtectedMode s t h
  have hlevel : s.levelAgrees = true := by simp [State.levelAgrees, hregs.code.rpl]
  obtain ⟨_, hfixed'⟩ := stepKeepsLevelAndFixedFlags s t hlevel hfixed h
  exact protectionHolds_iff.mpr ⟨hl', hparams ▸ hd, hpe'.trans hpe, hfixed', step_protected hl hd hregs h⟩

end Sys2Proof.Machine
end
